-- ==== Sys2Proof/Word.lean ====
section
/-! DEFINITION. The two word types of the engine: the byte every access moves (20_memory.md R44) and the 32-bit
word a host register is read and written as (10_state.md R20). -/

namespace Sys2Proof

/-- One byte; bit 0 is the least significant bit (00_scope.md R7). -/
abbrev Byte := BitVec 8

/-- One 32-bit host register value (10_state.md R20). -/
abbrev Word := BitVec 32

end Sys2Proof
end

