-- ==== Sys2Proof/Config.lean ====
section
/-! DEFINITION. The implementation parameters of 00_scope.md R5 at the values that rule gives this hardware, and the
value the spec leaves open that is no part of the state (an opaque constant: nothing can be proved of what it is). -/

namespace Sys2Proof.Config

/-- `WINDOW_SPAN` (R5, C5, D11): the finder looks at candidates `m` with `p - windowSpan <= m < p`. -/
def windowSpan : Nat := 1023
/-- `MATCH_CAP` (R5, C5, D11): the longest match the finder reports. -/
def matchCap : Nat := 34
/-- `NEAR_MAX_DISP` (R5, C1, C4, D12): the largest displacement of the one-byte form. -/
def nearMaxDisp : Nat := 15
/-- `NEAR_MIN_LEN` (R5, C6). -/
def nearMinLen : Nat := 2
/-- `NEAR_MAX_LEN` (R5, C6). -/
def nearMaxLen : Nat := 5
/-- `FAR_MIN_LEN` (R5). -/
def farMinLen : Nat := 3
/-- `FAR_MAX_LEN` (R5); 33 when the displacement is below 256 (R88, C10, D13). -/
def farMaxLen : Nat := 34
/-- `FAR_MAX_DISP` (R5, C2). -/
def farMaxDisp : Nat := 1023
/-- `RAW_MIN_LEN` (R5, C3). -/
def rawMinLen : Nat := 8
/-- `RAW_MAX_LEN` (R5, C3). -/
def rawMaxLen : Nat := 71
/-- `TERM_FLAG` (R5): the flag byte of the Terminator. -/
def termFlag : Byte := 0x1F#8
/-- `HEADER_BYTES` (R5). -/
def headerBytes : Nat := 2
/-- `MAX_UNCOMPRESSED` (R5): also the largest `IN_LEN` that ENCODE accepts (46_commands.md R171). -/
def maxUncompressed : Nat := 0xFFFF
/-- `LEN_LIMIT` (R5, D4): the largest `IN_LEN` and `OUT_CAP` a command accepts. -/
def lenLimit : Nat := 0x00FFFFFF
/-- `OOB_FETCH_VALUE` (R5, D6): what a suppressed input fetch returns. The spec's own decision;
unsafe, log 8. -/
def oobFetchValue : Byte := 0x00#8
/-- `BAD_REF_VALUE` (R5, D9): what an invalid window read returns. The spec's own decision; unsafe, log 9. -/
def badRefValue : Byte := 0x00#8
/-- The longest payload of a token, a RawRun of 71 bytes behind its flag byte (30_encoding.md R80). -/
def maxPayload : Nat := 72

/-- The two address spaces (20_memory.md R40). -/
inductive Space where
  /-- IN, read by the engine and written by the host. -/
  | input
  /-- OUT, written by the engine. -/
  | output
deriving DecidableEq, Repr

/-- FREE VALUE. What the byte at an address holds while nothing has been written there: "unspec" (10_state.md R25,
R26, U2, U5). DESIGN CHOICE, safe, log 6. -/
opaque powerOnByte : Space → Nat → Byte

end Sys2Proof.Config
end

