-- ==== Sys2Proof/Machine/State.lean ====
section
/-! DEFINITION. The state of one engine, exactly what 10_state.md R10 lists, as plain data; the reasons a step can stop;
the state after power-on reset (10_state.md R25). -/

namespace Sys2Proof.Machine

/-- The bytes written so far in one address space: address and byte, addresses strictly rising (`Memory.wf`). An address
that is not listed has not been written and reads as a free value (log 6). -/
abbrev Memory := List Host.Cell

/-- The two commands (46_commands.md R170). -/
inductive Command where
  | encode
  | decode
deriving DecidableEq, Repr

/-- `STATUS.PHASE` (10_state.md R21): 0 IDLE, 1 BUSY, 2 DONE; 3 never occurs. BUSY carries the command that is running,
which the accounting step reads (45_buffer_accounting.md R162; log 17). -/
inductive Phase where
  | idle
  | busy (c : Command)
  | done
deriving DecidableEq, Repr

/-- The five flags of `ERR` (10_state.md R21). -/
structure ErrFlags where
  inputOverflow    : Bool
  inputUnderflow   : Bool
  outputOverflow   : Bool
  outputUnderflow  : Bool
  allocationFailed : Bool
deriving DecidableEq, Repr

/-- `ERR = 0`. -/
def ErrFlags.none : ErrFlags := ⟨false, false, false, false, false⟩

/-- The conditions of the catalogue of 60_exceptions.md R190. -/
inductive Condition where
  | inputOverflow
  | inputUnderflow
  | outputOverflow
  | outputUnderflow
  | allocationFailed
  | refFault
  | refused
deriving DecidableEq, Repr

/-- The host interface registers, which have names and no addresses (10_state.md R20, D1). -/
inductive HostReg where
  | cmd
  | inLen
  | outCap
  | status
  | err
  | resultLen
  | inCursor
  | outCursor
deriving DecidableEq, Repr

/-- One access of the host (10_state.md R20, 20_memory.md R40): it reads any register, IN and OUT, and writes
registers and IN. A space has 24-bit addresses (10_state.md R11). That the host may read IN back is the model's choice
(log 29), and so is that it has no write of OUT (log 30). -/
inductive HostAccess where
  | writeReg (r : HostReg) (v : Word)
  | writeIn (a : BitVec 24) (v : Byte)
  | readReg (r : HostReg)
  | readIn (a : BitVec 24)
  | readOut (a : BitVec 24)
deriving DecidableEq, Repr

/-- The state of one engine (10_state.md R10). Cursors, counts and lengths are naturals, as 00_scope.md R7 and
10_state.md R22 allow (log 1). -/
structure State where
  /-- IN (R11). -/
  inMem      : Memory
  /-- OUT (R12). -/
  outMem     : Memory
  /-- `IC`, the input cursor and program counter (R14); the host reads it as `IN_CURSOR`. -/
  ic         : Nat
  /-- `OC`, the output cursor (R15); the host reads it as `OUT_CURSOR`. -/
  oc         : Nat
  /-- `DF_ACC`, the description-field accumulator (R16). -/
  dfAcc      : Byte
  /-- `DF_CNT` (R16). -/
  dfCnt      : Nat
  /-- `DF_POS`, the OUT address of the open group's control byte (R16). -/
  dfPos      : Nat
  /-- `PEND`, the pending literals (R17). -/
  pend       : Nat
  /-- `M_DISP` (R18). -/
  mDisp      : Nat
  /-- `M_LEN` (R18). -/
  mLen       : Nat
  /-- `FLAG`, the flag byte of the token being decoded (R19). -/
  flag       : Byte
  /-- `T_DISP` (R19). -/
  tDisp      : Nat
  /-- `T_CNT` (R19). -/
  tCnt       : Nat
  /-- `TERMINATED` (R19). -/
  terminated : Bool
  /-- `IN_LEN` (R20). -/
  inLen      : Nat
  /-- `OUT_CAP` (R20). -/
  outCap     : Nat
  /-- `RESULT_LEN` (R20). -/
  resultLen  : Nat
  /-- `STATUS.PHASE` (R21). -/
  phase      : Phase
  /-- `STATUS.REFUSED` (R21). -/
  refused    : Bool
  /-- `STATUS.REF_FAULT` (R21). -/
  refFault   : Bool
  /-- `ERR` (R21). -/
  err        : ErrFlags
  /-- The model's own field: the argument `ALLOC_GRANT` (00_scope.md R5, R6, 46_commands.md R178, D10, U6) as plain data,
  the sizes `N` that the allocator environment denies. Every function `0..65535 -> Bool` is such a list (log 7). -/
  allocDenied : List Nat
  /-- The model's own field: the accesses the host has still to make, oldest first (log 3). -/
  host       : List HostAccess
deriving DecidableEq, Repr

/-- Why a step stops. No instruction's meaning does; the one reason is the host's breach of the handshake. -/
inductive Fault where
  /-- Raised by step: the host made an access other than a read of `STATUS` or a write of `CMD` while BUSY, to which
  the spec gives no meaning (20_memory.md R54, U9). Safe: log 4. -/
  | hostAccessWhileBusy
deriving DecidableEq, Repr

/-- Why an instruction has no meaning. -/
inductive Refusal where
  /-- Raised by exec for a row of the opcode table that has no meaning yet; none is left. Safe. -/
  | notModelled (mnemonic : String)
deriving DecidableEq, Repr

/-- The state after power-on reset: 10_state.md R25, first column (D21, 70_reset_and_hazards.md R210). The
allocator environment is the default platform of 00_scope.md R5, which grants every request (log 7). -/
def State.reset : State where
  inMem := []
  outMem := []
  ic := 0
  oc := 0
  dfAcc := 0
  dfCnt := 0
  dfPos := 0
  pend := 0
  mDisp := 0
  mLen := 0
  flag := 0
  tDisp := 0
  tCnt := 0
  terminated := false
  inLen := 0
  outCap := 0
  resultLen := 0
  phase := .idle
  refused := false
  refFault := false
  err := ErrFlags.none
  allocDenied := []
  host := []

end Sys2Proof.Machine
end

