-- ==== Sys2Proof/Machine/Ops.lean ====
section
/-! DEFINITION. The operations the meanings share: memory (20_memory.md), the four guarded accesses (R45 to R48), the
bitstream codec (43_bitstream_codec.md), raising a condition (60_exceptions.md R197), starting, refusing and completing
a command (46_commands.md R170 to R172), and the host's reads and writes (10_state.md R20). -/

namespace Sys2Proof.Machine

/-! ## Memory -/

/-- The byte written last at an address; none where nothing has been written. -/
def Memory.lookup : Memory → Nat → Option Byte
  | [], _ => none
  | (b, v) :: m, a => if a = b then some v else Memory.lookup m a

/-- Store a byte; the list stays sorted by address, one entry an address. -/
def Memory.write : Memory → Nat → Byte → Memory
  | [], a, v => [(a, v)]
  | (b, w) :: m, a, v =>
    if a < b then (a, v) :: (b, w) :: m
    else if a = b then (a, v) :: m
    else (b, w) :: Memory.write m a v

/-- The canonical form: addresses strictly rising. An unlisted address holds no byte of its own, so no entry can equal
what it reads as (log 6). -/
def Memory.wf : Memory → Bool
  | [] => true
  | [_] => true
  | (a, _) :: (b, w) :: m => decide (a < b) && Memory.wf ((b, w) :: m)

/-- Every listed address is below a bound. -/
def Memory.below (bound : Nat) (m : Memory) : Bool := m.all fun c => decide (c.1 < bound)

/-- `MemRead(IN, a, 1)` (00_scope.md R8); an unwritten byte is the free value of its address (R25, U5). -/
def State.readIn (s : State) (a : Nat) : Byte :=
  (Memory.lookup s.inMem a).getD (Config.powerOnByte .input a)

/-- `MemRead(OUT, a, 1)` (R8); an unwritten byte is the free value of its address (R25, R26, U2). -/
def State.readOut (s : State) (a : Nat) : Byte :=
  (Memory.lookup s.outMem a).getD (Config.powerOnByte .output a)

/-- `MemWrite(OUT, a, 1, v)` (R8). -/
def writeOut (a : Nat) (v : Byte) (s : State) : State :=
  { s with outMem := Memory.write s.outMem a v }

/-! ## Raising a condition: all that "taking an exception" is on this hardware -/

/-- `raise FLAG` sets a bit and does nothing else (60_exceptions.md R197, 00_scope.md R8). There is no trap entry and
nothing to return from (R197, R201). -/
def raise (c : Condition) (s : State) : State :=
  match c with
  | .inputOverflow => { s with err := { s.err with inputOverflow := true } }
  | .inputUnderflow => { s with err := { s.err with inputUnderflow := true } }
  | .outputOverflow => { s with err := { s.err with outputOverflow := true } }
  | .outputUnderflow => { s with err := { s.err with outputUnderflow := true } }
  | .allocationFailed => { s with err := { s.err with allocationFailed := true } }
  | .refFault => { s with refFault := true }
  | .refused => { s with refused := true }

/-! ## The guarded accesses -/

/-- The byte a guarded fetch at address `a` returns: 0x00 when it is suppressed (20_memory.md R45, D6). -/
def State.inByte (s : State) (a : Nat) : Byte :=
  if a < s.inLen then s.readIn a else Config.oobFetchValue

/-- `InFetch()` (20_memory.md R45): the cursor advances whether or not the fetch was in range. -/
def inFetch (s : State) : Byte × State := (s.inByte s.ic, { s with ic := s.ic + 1 })

/-- `OutStore(v)` (20_memory.md R46): a store at or beyond `OUT_CAP` is suppressed, the cursor advances always. -/
def outStore (v : Byte) (s : State) : State :=
  { s with
    outMem := if s.oc < s.outCap then Memory.write s.outMem s.oc v else s.outMem
    oc := s.oc + 1 }

/-- A window index names a byte this command has stored (20_memory.md R47). -/
def State.windowHolds (s : State) (i : Int) : Bool :=
  decide (0 ≤ i ∧ i < s.oc ∧ i < s.outCap)

/-- `WinRead(s)` (20_memory.md R47, D9): the index is an integer and may be negative. -/
def winRead (i : Int) (s : State) : Byte × State :=
  if s.windowHolds i then (s.readOut i.toNat, s) else (Config.badRefValue, raise .refFault s)

/-- `OutPatch(a, v)` (20_memory.md R48): no cursor moves. -/
def outPatch (a : Nat) (v : Byte) (s : State) : State :=
  if a < s.outCap then writeOut a v s else s

/-! ## The bitstream codec -/

/-- One control bit as a byte. -/
def bitByte (b : Bool) : Byte := if b then 1#8 else 0#8

/-- The first half of `pushBit` (43_bitstream_codec.md R131, R133): where no group is open, allocate a control byte. -/
def openGroup (s : State) : State :=
  if s.dfCnt = 8 then
    { outStore 0x00#8 { s with dfPos := s.oc } with dfAcc := 0x00#8, dfCnt := 0 }
  else s

/-- `pushBit(b)` (43_bitstream_codec.md R131): bit 0 first, the stored control byte kept current. -/
def pushBit (b : Bool) (s : State) : State :=
  let s := openGroup s
  let s := { s with dfAcc := s.dfAcc ||| (bitByte b <<< s.dfCnt), dfCnt := s.dfCnt + 1 }
  outPatch s.dfPos s.dfAcc s

/-- The first half of `nextBit` (43_bitstream_codec.md R132, R133): where the group is exhausted, fetch a control
byte. -/
def refillGroup (s : State) : State :=
  if s.dfCnt = 0 then { (inFetch s).2 with dfAcc := (inFetch s).1, dfCnt := 8 } else s

/-- `nextBit()` (43_bitstream_codec.md R132): least significant bit first. -/
def nextBit (s : State) : Bool × State :=
  let s := refillGroup s
  (s.dfAcc.getLsbD 0, { s with dfAcc := s.dfAcc >>> 1, dfCnt := s.dfCnt - 1 })

/-! ## Starting, refusing and completing a command -/

/-- `STATUS.PHASE = BUSY`. -/
def State.isBusy (s : State) : Bool :=
  match s.phase with
  | .idle => false
  | .busy _ => true
  | .done => false

/-- `DF_CNT` at the start of a command (10_state.md R25, 70_reset_and_hazards.md R211). -/
def startCount : Command → Nat
  | .encode => 8
  | .decode => 0

/-- Load the start values of 10_state.md R25 for a command and set BUSY (46_commands.md R170). IN, OUT, `IN_LEN` and
`OUT_CAP` are the host's and stay (R24). -/
def startCommand (c : Command) (s : State) : State :=
  { s with
    ic := 0, oc := 0
    dfAcc := 0, dfCnt := startCount c, dfPos := 0
    pend := 0, mDisp := 0, mLen := 0
    flag := 0, tDisp := 0, tCnt := 0, terminated := false
    resultLen := 0
    phase := .busy c, refused := false, refFault := false, err := ErrFlags.none }

/-- ENCODE's acceptance test (46_commands.md R171). -/
def acceptsEncode (s : State) : Bool :=
  decide (s.inLen ≤ Config.maxUncompressed ∧ s.outCap ≤ Config.lenLimit)

/-- DECODE's acceptance test (46_commands.md R171). -/
def acceptsDecode (s : State) : Bool := decide (s.inLen ≤ Config.lenLimit)

/-- A refused `CMD` write sets `REFUSED` and changes nothing else (46_commands.md R171). -/
def refuseCommand (s : State) : State := raise .refused s

/-- What a `CMD` write with no command in it does: ignored while BUSY, else refused (46_commands.md R170, R171). -/
def rejectedWrite (s : State) : State := if s.isBusy then s else refuseCommand s

/-- Completion (46_commands.md R172). -/
def complete (s : State) : State := { s with phase := .done }

/-- `ALLOC_GRANT(N)` (00_scope.md R5, 46_commands.md R178): the allocator environment's answer (log 7). -/
def State.allocGrant (s : State) (n : BitVec 16) : Bool := decide (n.toNat ∉ s.allocDenied)

/-! ## The host's reads and writes -/

/-- `STATUS.PHASE` as its 2-bit code (10_state.md R21). -/
def phaseCode : Phase → BitVec 2
  | .idle => 0
  | .busy _ => 1
  | .done => 2

/-- One flag as a bit. -/
def flagBit (b : Bool) : BitVec 1 := BitVec.ofBool b

/-- `STATUS[3:0] = REF_FAULT || REFUSED || PHASE` (10_state.md R21). -/
def State.statusWord (s : State) : BitVec 4 :=
  flagBit s.refFault ++ flagBit s.refused ++ phaseCode s.phase

/-- `ERR[4:0]` (10_state.md R21, D5). -/
def ErrFlags.word (e : ErrFlags) : BitVec 5 :=
  flagBit e.allocationFailed ++ flagBit e.outputUnderflow ++ flagBit e.outputOverflow ++
    flagBit e.inputUnderflow ++ flagBit e.inputOverflow

/-- What a host read of a register returns (10_state.md R20); a read of `CMD` returns 0. That the two cursors can be read
before the first command too is the model's choice (log 27). -/
def hostRead (r : HostReg) (s : State) : Word :=
  match r with
  | .cmd => 0
  | .inLen => BitVec.ofNat 32 s.inLen
  | .outCap => BitVec.ofNat 32 s.outCap
  | .status => s.statusWord.setWidth 32
  | .err => s.err.word.setWidth 32
  | .resultLen => BitVec.ofNat 32 s.resultLen
  | .inCursor => BitVec.ofNat 32 s.ic
  | .outCursor => BitVec.ofNat 32 s.oc

/-- The value of `CMD.OP` in a write of `CMD`, a register of 2 bits (10_state.md R20; log 20). -/
def commandField (v : Word) : BitVec 2 := v.setWidth 2

/-- A host write of a register that is not `CMD`, made while not BUSY (10_state.md R20). A read-only register keeps its
value: its flag cannot be cleared by the host, its result is stable (60_exceptions.md R201, 46_commands.md R172; that the
write does nothing else either is log 5). `CMD` holds nothing to write (log 17). -/
def hostWriteReg (r : HostReg) (v : Word) (s : State) : State :=
  match r with
  | .cmd => s
  | .inLen => { s with inLen := v.toNat }
  | .outCap => { s with outCap := v.toNat }
  | .status => s
  | .err => s
  | .resultLen => s
  | .inCursor => s
  | .outCursor => s

/-- A host write of IN, made while not BUSY (20_memory.md R40). -/
def hostWriteIn (a : BitVec 24) (v : Byte) (s : State) : State :=
  { s with inMem := Memory.write s.inMem a.toNat v }

/-- The registers the host may read while BUSY: `STATUS` alone (20_memory.md R54, U9). -/
def readableWhileBusy : HostReg → Bool
  | .cmd => false
  | .inLen => false
  | .outCap => false
  | .status => true
  | .err => false
  | .resultLen => false
  | .inCursor => false
  | .outCursor => false

end Sys2Proof.Machine
end

