-- ==== Sys2Proof/Machine/Flags.lean ====
section
/-! DEFINITION. Every flag computation of the accounting step (45_buffer_accounting.md). The two flags it does not
compute are raised where their rules say: `ALLOCATION_FAILED` in Commands.lean, `REF_FAULT` in Ops.lean. -/

namespace Sys2Proof.Machine

/-- The input side of `account` (45_buffer_accounting.md R161). -/
def accountInput (s : State) : State :=
  let s := if s.inLen < s.ic then raise .inputOverflow s else s
  if s.ic < s.inLen then raise .inputUnderflow s else s

/-- The command that is running is DECODE. -/
def State.runsDecode (s : State) : Bool := decide (s.phase = .busy .decode)

/-- The output side of `account` (45_buffer_accounting.md R162): underflow is tested in DECODE only (D19). -/
def accountOutput (s : State) : State :=
  let s := if s.outCap < s.oc then raise .outputOverflow s else s
  if s.runsDecode ∧ s.oc < s.outCap then raise .outputUnderflow s else s

/-- `RESULT_LEN <- min(OC, OUT_CAP)` (45_buffer_accounting.md R164). -/
def accountResult (s : State) : State := { s with resultLen := min s.oc s.outCap }

/-- `account`: all tests are made, whatever the result of the others (45_buffer_accounting.md R163). -/
def account (s : State) : State := accountResult (accountOutput (accountInput s))

end Sys2Proof.Machine
end

