-- ==== Sys2Proof/Syntax.lean ====
section
/-! DEFINITION. The instructions: the seven rows of spec/opcode_table.json, five tokens of the compressed stream and
two host commands. A token's operands are those of the notation of 30_encoding.md R90. -/

namespace Sys2Proof

/-- One constructor per row of spec/opcode_table.json. -/
inductive Instr where
  /-- `Literal(v)`, format L: control bit 0 and one byte (30_encoding.md R73). -/
  | literal (v : Byte)
  /-- `Terminator`, format T: control bit 1, flag 0x1F (R75). -/
  | terminator
  /-- `RawRun(length; bytes)`, format R: control bit 1, flag `11CCCCCC`, then the raw bytes (R78). -/
  | rawRun (raw : List Byte)
  /-- `NearMatch(disp, len)`, format N: control bit 1, flag `10LLDDDD` (R76). -/
  | nearMatch (disp len : Nat)
  /-- `FarMatch(disp, len)`, format F: control bit 1, flag `0HHLLLLL`, then the low displacement byte (R77). -/
  | farMatch (disp len : Nat)
  /-- The host command ENCODE, `CMD.OP` = 1 (46_commands.md R170, R174). -/
  | encode
  /-- The host command DECODE, `CMD.OP` = 2 (46_commands.md R170, R177). -/
  | decode
deriving DecidableEq, Repr

end Sys2Proof
end

