-- ==== Sys2Proof/WellFormed.lean ====
section
/-! DEFINITION. Which instruction terms have an encoding: the operand ranges of 30_encoding.md R76, R77, R78, R88, R90. -/

namespace Sys2Proof

/-- The near form carries a displacement 0..15 and a length 2..5 (R76). -/
def nearSpellable (disp len : Nat) : Bool :=
  decide (disp ≤ Config.nearMaxDisp ∧ Config.nearMinLen ≤ len ∧ len ≤ Config.nearMaxLen)

/-- The far form carries a displacement 0..1023 and a length 3..34, except length 34 with a displacement below 256,
whose flag byte is the Terminator's (R77, R88). -/
def farSpellable (disp len : Nat) : Bool :=
  decide (disp ≤ Config.farMaxDisp ∧ Config.farMinLen ≤ len ∧ len ≤ Config.farMaxLen ∧
    ¬ (disp < 256 ∧ len = Config.farMaxLen))

/-- A raw run holds 8..71 bytes (R78). -/
def rawSpellable (raw : List Byte) : Bool :=
  decide (Config.rawMinLen ≤ raw.length ∧ raw.length ≤ Config.rawMaxLen)

/-- The instruction has an encoding (R90). -/
def Instr.wellFormed : Instr → Bool
  | .literal _ => true
  | .terminator => true
  | .rawRun raw => rawSpellable raw
  | .nearMatch disp len => nearSpellable disp len
  | .farMatch disp len => farSpellable disp len
  | .encode => true
  | .decode => true

/-- The instruction is a token of the stream, not a host command. -/
def Instr.isToken : Instr → Bool
  | .literal _ => true
  | .terminator => true
  | .rawRun _ => true
  | .nearMatch _ _ => true
  | .farMatch _ _ => true
  | .encode => false
  | .decode => false

end Sys2Proof
end

