-- ==== Sys2Proof/Decode.lean ====
section
/-! DEFINITION. The decoder, total on any control bit and any bytes and on any value written to `CMD`, and after it the
encoder, both written from 30_encoding.md R72 to R79; then the reading of opcode_table.json's numbered words. -/

namespace Sys2Proof

/-- What spells an instruction: a control bit with the payload bytes in stream order (30_encoding.md R71, R72), or a
value written to `CMD.OP` (46_commands.md R170). -/
inductive Code where
  | token (ctl : Bool) (payload : List Byte)
  | command (op : BitVec 2)
deriving DecidableEq, Repr

/-- Why the decoder gives no instruction. No token encoding is rejected (30_encoding.md R82). -/
inductive Rejection where
  /-- `CMD.OP` 0 or 3, which name no command (46_commands.md R171). -/
  | noSuchCommand (op : BitVec 2)
deriving DecidableEq, Repr

/-- What the decoder answers. -/
inductive Decoded where
  | instr (i : Instr)
  | rejected (r : Rejection)
deriving DecidableEq, Repr

/-! ## Reading the fields -/

/-- The classes of a flag byte (30_encoding.md R74). -/
inductive FlagClass where
  | terminator
  | rawRun
  | nearMatch
  | farMatch
deriving DecidableEq, Repr

/-- R74: the tests in the order the rule makes them; the first that holds decides (70_reset_and_hazards.md R218). -/
def classify (flag : Byte) : FlagClass :=
  if flag = Config.termFlag then .terminator
  else if 0xC0 ≤ flag.toNat then .rawRun
  else if 0x80 ≤ flag.toNat then .nearMatch
  else .farMatch

/-- R76: displacement `= flag & 0x0F`. -/
def nearDisp (flag : Byte) : Nat := flag.toNat &&& 0x0F
/-- R76: length `= (flag >> 4) - 6`. -/
def nearLen (flag : Byte) : Nat := (flag.toNat >>> 4) - 6
/-- R77: displacement `= b | ((flag << 3) & 0x300)`. -/
def farDisp (flag b : Byte) : Nat := b.toNat ||| ((flag.toNat <<< 3) &&& 0x300)
/-- R77: length `= (flag & 0x1F) + 3`. -/
def farLen (flag : Byte) : Nat := (flag.toNat &&& 0x1F) + 3
/-- R78: length `= flag - 0xC0 + 8`. -/
def rawLen (flag : Byte) : Nat := flag.toNat - 0xC0 + 8

/-- Byte `k` of a payload; a byte that is not there reads as a suppressed fetch does (20_memory.md R45). -/
def byteAt (bytes : List Byte) (k : Nat) : Byte := bytes.getD k Config.oobFetchValue

/-- The first `n` bytes of a payload, missing ones as `byteAt` reads them. -/
def takeBytes (bytes : List Byte) (n : Nat) : List Byte := (List.range n).map (byteAt bytes)

/-- The token a flag byte and the bytes behind it spell (R74 to R78). -/
def decodeFlag (flag : Byte) (operands : List Byte) : Instr :=
  match classify flag with
  | .terminator => .terminator
  | .rawRun => .rawRun (takeBytes operands (rawLen flag))
  | .nearMatch => .nearMatch (nearDisp flag) (nearLen flag)
  | .farMatch => .farMatch (farDisp flag (byteAt operands 0)) (farLen flag)

/-- How many payload bytes a token has (30_encoding.md R80); a command has none. -/
def payloadBytes : Instr → Nat
  | .literal _ => 1
  | .terminator => 1
  | .rawRun raw => 1 + raw.length
  | .nearMatch _ _ => 1
  | .farMatch _ _ => 2
  | .encode => 0
  | .decode => 0

/-- The token that a control bit and the bytes of the stream behind it spell (R72, R74), and the bytes that follow it.
Total: every control bit and every byte spells a token (R82). -/
def decodeToken (ctl : Bool) (bytes : List Byte) : Instr × List Byte :=
  let i := if ctl then decodeFlag (byteAt bytes 0) bytes.tail else .literal (byteAt bytes 0)
  (i, bytes.drop (payloadBytes i))

/-- The command a value of `CMD.OP` selects; 0 and 3 are rejected by name (46_commands.md R170, R171). -/
def decodeCommand (op : BitVec 2) : Decoded :=
  if op = 1#2 then .instr .encode
  else if op = 2#2 then .instr .decode
  else .rejected (.noSuchCommand op)

/-- The decoder. -/
def decode : Code → Decoded
  | .token ctl bytes => .instr (decodeToken ctl bytes).1
  | .command op => decodeCommand op

/-! ## Packing the fields -/

/-- R79: `byte0 = 0x80 | ((len - 2) << 4) | d`. -/
def nearFlag (disp len : Nat) : Byte :=
  0x80#8 ||| (BitVec.ofNat 8 (len - 2) <<< 4) ||| BitVec.ofNat 8 disp
/-- R79: `byte0 = ((d >> 8) << 5) | (len - 3)`. -/
def farFlag (disp len : Nat) : Byte :=
  (BitVec.ofNat 8 (disp >>> 8) <<< 5) ||| BitVec.ofNat 8 (len - 3)
/-- R79: `byte1 = d & 0xFF`. -/
def farLow (disp : Nat) : Byte := BitVec.ofNat 8 (disp &&& 0xFF)
/-- R78 read backwards: the flag byte of a raw run of `len` bytes. -/
def rawFlag (len : Nat) : Byte := BitVec.ofNat 8 (0xC0 + (len - 8))

/-- The encoder: what spells a well-formed instruction (30_encoding.md R73, R75 to R79, 46_commands.md R170). -/
def encode : Instr → Code
  | .literal v => .token false [v]
  | .terminator => .token true [Config.termFlag]
  | .rawRun raw => .token true (rawFlag raw.length :: raw)
  | .nearMatch disp len => .token true [nearFlag disp len]
  | .farMatch disp len => .token true [farFlag disp len, farLow disp]
  | .encode => .command 1#2
  | .decode => .command 2#2

/-! ## The numbered words of opcode_table.json -/

/-- The first `n` bytes of a number whose bit 0 is the least significant bit of the first byte. -/
def bytesOfWord (n w : Nat) : List Byte := (List.range n).map fun k => BitVec.ofNat 8 (w >>> (8 * k))

/-- What a numbered word of opcode_table.json spells. The table numbers three kinds of word, the payload behind a
control bit 0, the payload behind a control bit 1, and the 2-bit `CMD.OP`, and does not number the control bit; this
picks one of the three from the number of bits. DESIGN CHOICE, log 15: no bits at all, the Literal row (its mask is
0x00); at most one byte with the value 1 or 2, or at most two bits, a `CMD.OP`; anything else, the payload behind a
control bit 1. -/
def tableCode (nbits w : Nat) : Code :=
  if nbits = 0 then .token false (bytesOfWord Config.maxPayload w)
  else if nbits ≤ 2 then .command (BitVec.ofNat 2 w)
  else if nbits ≤ 8 ∧ (w = 1 ∨ w = 2) then .command (BitVec.ofNat 2 w)
  else .token true (bytesOfWord Config.maxPayload w)

/-- The instruction the decoder reads from a numbered word of opcode_table.json. -/
def decodeTableWord (nbits w : Nat) : Option Instr :=
  match decode (tableCode nbits w) with
  | .instr i => some i
  | .rejected _ => none

end Sys2Proof
end

