-- ==== Sys2Proof/Machine/Finder.lean ====
section
/-! DEFINITION. The match finder (41_match_finder.md): a brute-force search of the window, nearest candidate first. -/

namespace Sys2Proof.Machine

/-- The inner loop of `find` (41_match_finder.md R101): how many bytes, at most `cap`, the runs at `m` and at `p` share.
The candidate run may overlap `p` (R103). -/
def commonPrefix (rd : Nat → Byte) (m p : Nat) : Nat → Nat
  | 0 => 0
  | cap + 1 => if rd m = rd p then commonPrefix rd (m + 1) (p + 1) cap + 1 else 0

/-- The outer loop of `find`: `n` candidates from displacement `d` outward; a longer match replaces the best so far,
an equally long one does not (41_match_finder.md R101, R102). -/
def scanWindow (rd : Nat → Byte) (p cap : Nat) : Nat → Nat → Nat × Nat → Nat × Nat
  | 0, _, best => best
  | n + 1, d, best =>
    let k := commonPrefix rd (p - d) p cap
    scanWindow rd p cap n (d + 1) (if best.2 < k then (d, k) else best)

/-- `min(MATCH_CAP, IN_LEN - p)` (41_match_finder.md R101). -/
def matchLimit (s : State) : Nat := min Config.matchCap (s.inLen - s.ic)

/-- How many candidates the window holds: `p - max(0, p - WINDOW_SPAN)`. -/
def windowSize (p : Nat) : Nat := min p Config.windowSpan

/-- The pair `find` answers, `(0, 0)` for "no match" (41_match_finder.md R101, D20). -/
def bestMatch (s : State) : Nat × Nat :=
  scanWindow s.readIn s.ic (matchLimit s) (windowSize s.ic) 1 (0, 0)

/-- `find()` (41_match_finder.md R101). -/
def find (s : State) : State := { s with mDisp := (bestMatch s).1, mLen := (bestMatch s).2 }

end Sys2Proof.Machine
end

