-- ==== Sys2Proof/Machine/Selector.lean ====
section
/-! DEFINITION. The mode selector and the token emissions (42_mode_selector.md). -/

namespace Sys2Proof.Machine

/-- What the selector decides (42_mode_selector.md R111). -/
inductive Choice where
  | lit
  | near (disp len : Nat)
  | far (disp len : Nat)
deriving DecidableEq, Repr

/-- `clamp(d, len)` (42_mode_selector.md R112): the one length the far form cannot spell. -/
def clamp (disp len : Nat) : Nat :=
  if disp < 256 ∧ len = Config.farMaxLen then Config.farMaxLen - 1 else len

/-- `select(d, len)` (42_mode_selector.md R111). `PEND` is no input of it (D28). -/
def select (disp len : Nat) : Choice :=
  if Config.nearMinLen ≤ len ∧ 1 ≤ disp ∧ disp ≤ Config.nearMaxDisp then
    if len ≤ Config.nearMaxLen then .near disp len else .far disp (clamp disp len)
  else if Config.farMinLen ≤ len then .far disp (clamp disp len)
  else .lit

/-- Emit `n` pending literals, the first at IN address `a` (42_mode_selector.md R116). -/
def flushFrom : Nat → Nat → State → State
  | 0, _, s => s
  | n + 1, a, s => flushFrom n (a + 1) (outStore (s.readIn a) (pushBit false s))

/-- `flush()` (42_mode_selector.md R116): oldest first, at addresses `IC - PEND .. IC - 1`. -/
def flush (s : State) : State := { flushFrom s.pend (s.ic - s.pend) s with pend := 0 }

/-- Literal decision (42_mode_selector.md R113). -/
def literalDecision (s : State) : State := { s with pend := s.pend + 1, ic := s.ic + 1 }

/-- Move past `n` input bytes. -/
def advanceInput (n : Nat) (s : State) : State := { s with ic := s.ic + n }

/-- Near emission (42_mode_selector.md R114). -/
def nearEmission (disp len : Nat) (s : State) : State :=
  advanceInput len (outStore (nearFlag disp len) (pushBit true (flush s)))

/-- Far emission (42_mode_selector.md R115): the flag byte before the low displacement byte. -/
def farEmission (disp len : Nat) (s : State) : State :=
  advanceInput len (outStore (farLow disp) (outStore (farFlag disp len) (pushBit true (flush s))))

/-- End of input (42_mode_selector.md R117): flush, then the Terminator. -/
def endOfInput (s : State) : State := outStore Config.termFlag (pushBit true (flush s))

/-- One iteration of `encode_loop` (42_mode_selector.md R110, 46_commands.md R175). -/
def encodeIteration (s : State) : State :=
  let s := find s
  match select s.mDisp s.mLen with
  | .lit => literalDecision s
  | .near disp len => nearEmission disp len s
  | .far disp len => farEmission disp len s

end Sys2Proof.Machine
end

