-- ==== Sys2Proof/Machine/Operands.lean ====
section
/-! DEFINITION. The operand forms of the tokens: the guarded bytes behind the input cursor (20_memory.md R45), the
window index of a match (R47), and the fetch of a token (44_decoder_copy_engine.md R142). -/

namespace Sys2Proof.Machine

/-- The bytes a token at the input cursor may be spelled with, each as a guarded fetch would return it (20_memory.md
R45), as many as the longest payload has (30_encoding.md R80). No cursor moves. -/
def operandBytes (s : State) : List Byte :=
  (List.range Config.maxPayload).map fun k => s.inByte (s.ic + k)

/-- The source index of a match, in the integers: `OC - T_DISP` (20_memory.md R47, 44_decoder_copy_engine.md R147). -/
def windowIndex (s : State) : Int := (s.oc : Int) - (s.tDisp : Int)

/-- `FLAG <- InFetch()` (44_decoder_copy_engine.md R142). -/
def fetchFlag (s : State) : State := { (inFetch s).2 with flag := (inFetch s).1 }

/-- The fetch half of `decode_token` (44_decoder_copy_engine.md R142): take the control bit, read the token it and the
bytes at the cursor spell, and for a control bit of 1 fetch the flag byte. The token's other payload bytes are consumed
by its meaning (log 19). -/
def fetchToken (s : State) : Instr × State :=
  let (ctl, s1) := nextBit s
  ((decodeToken ctl (operandBytes s1)).1, if ctl then fetchFlag s1 else s1)

end Sys2Proof.Machine
end

