-- ==== Sys2Proof/Machine/Tokens.lean ====
section
/-! DEFINITION. The meanings of the five tokens (44_decoder_copy_engine.md). Each begins where `decode_token` hands over
(R142): the control bit is taken and, for a control bit of 1, the flag byte is in `FLAG`. A meaning consumes the rest of
its payload with `InFetch`, byte by byte, and stores the operand bytes the decoder read there (log 19). -/

namespace Sys2Proof.Machine

/-! ## Shared: one byte input to output, and the copy engine -/

/-- One `InFetch` and one `OutStore` of the byte `v` that the decoder read at the cursor. -/
def passByte (v : Byte) (s : State) : State := outStore v (inFetch s).2

/-- One iteration of a loop "repeat T_CNT" is over: `T_CNT` holds the bytes still to copy (10_state.md R13; log 14). -/
def countDown (s : State) : State := { s with tCnt := s.tCnt - 1 }

/-- `repeat T_CNT: OutStore(InFetch())` (44_decoder_copy_engine.md R145). -/
def passBytes : List Byte → State → State
  | [], s => s
  | v :: vs, s => passBytes vs (countDown (passByte v s))

/-- One iteration of `copy_match` (44_decoder_copy_engine.md R147): the read sees the store of the iteration before
(20_memory.md R53). -/
def copyByte (s : State) : State :=
  let (v, s1) := winRead (windowIndex s) s
  countDown (outStore v s1)

/-- `n` iterations of `copy_match`. -/
def copyBytes : Nat → State → State
  | 0, s => s
  | n + 1, s => copyBytes n (copyByte s)

/-- `copy_match()` (44_decoder_copy_engine.md R147). -/
def copyMatch (s : State) : State := copyBytes s.tCnt s

/-! ## The tokens as state functions -/

/-- `Literal(v)` (44_decoder_copy_engine.md R143). -/
def literalToken (v : Byte) (s : State) : State := passByte v s

/-- `Terminator` (44_decoder_copy_engine.md R144). -/
def terminatorToken (s : State) : State := { s with terminated := true }

/-- `RawRun(length; raw)` (44_decoder_copy_engine.md R145). -/
def rawRunToken (raw : List Byte) (s : State) : State := passBytes raw { s with tCnt := raw.length }

/-- `NearMatch(disp, len)` (44_decoder_copy_engine.md R146). -/
def nearMatchToken (disp len : Nat) (s : State) : State :=
  copyMatch { s with tDisp := disp, tCnt := len }

/-- `FarMatch(disp, len)` (44_decoder_copy_engine.md R148): one more byte of input is fetched. -/
def farMatchToken (disp len : Nat) (s : State) : State :=
  copyMatch { (inFetch s).2 with tDisp := disp, tCnt := len }

/-- What executing a token does. The two commands are no tokens: the token decoder never gives one. -/
def tokenEffect (i : Instr) (s : State) : State :=
  match i with
  | .literal v => literalToken v s
  | .terminator => terminatorToken s
  | .rawRun raw => rawRunToken raw s
  | .nearMatch disp len => nearMatchToken disp len s
  | .farMatch disp len => farMatchToken disp len s
  | .encode => s
  | .decode => s

/-- `decode_token()` (44_decoder_copy_engine.md R142). -/
def runToken (s : State) : State := tokenEffect (fetchToken s).1 (fetchToken s).2

/-! ## The meanings -/

/-- Literal (R143). -/
def execLiteral (v : Byte) (s : State) : Host.Outcome State Fault Refusal := .next (literalToken v s)

/-- Terminator (R144). -/
def execTerminator (s : State) : Host.Outcome State Fault Refusal := .next (terminatorToken s)

/-- RawRun (R145). -/
def execRawRun (raw : List Byte) (s : State) : Host.Outcome State Fault Refusal := .next (rawRunToken raw s)

/-- NearMatch (R146). -/
def execNearMatch (disp len : Nat) (s : State) : Host.Outcome State Fault Refusal :=
  .next (nearMatchToken disp len s)

/-- FarMatch (R148). -/
def execFarMatch (disp len : Nat) (s : State) : Host.Outcome State Fault Refusal :=
  .next (farMatchToken disp len s)

end Sys2Proof.Machine
end

