-- ==== Sys2Proof/Machine/Commands.lean ====
section
/-! DEFINITION. The two host commands (46_commands.md). A command is one atomic step (R173, U9; log 2); its loops are
the while loops of R141 and R175, run on the bound those rules give. -/

namespace Sys2Proof.Machine

/-! ## ENCODE -/

/-- The header, big-endian (46_commands.md R174, 20_memory.md R41). -/
def encodeHeader (s : State) : State :=
  outStore (BitVec.ofNat 8 s.inLen) (outStore (BitVec.ofNat 8 (s.inLen >>> 8)) s)

/-- `encode_loop()` (46_commands.md R175): every iteration advances `IC`, so `IN_LEN - IC` iterations are enough. -/
def encodeLoop : Nat → State → State
  | 0, s => s
  | n + 1, s => if s.ic < s.inLen then encodeLoop n (encodeIteration s) else s

/-- What follows ENCODE's loop: the end of the input, accounting, DONE (46_commands.md R174, R172). -/
def finishEncode (s : State) : State := complete (account (endOfInput s))

/-- ENCODE up to its loop: start values and header (46_commands.md R170, R174). -/
def beginEncode (s : State) : State := encodeHeader (startCommand .encode s)

/-- An accepted ENCODE, whole (46_commands.md R174). -/
def runEncode (s : State) : State :=
  let s := beginEncode s
  finishEncode (encodeLoop (s.inLen - s.ic) s)

/-! ## DECODE -/

/-- The header value `N` (46_commands.md R177, 20_memory.md R41). -/
def headerValue (h0 h1 : Byte) : BitVec 16 := h0 ++ h1

/-- The two header fetches (46_commands.md R177). -/
def fetchHeader (s : State) : BitVec 16 × State :=
  let (h0, s1) := inFetch s
  let (h1, s2) := inFetch s1
  (headerValue h0 h1, s2)

/-- The decode loop goes on (44_decoder_copy_engine.md R141): tested between tokens only (D8). -/
def State.moreTokens (s : State) : Bool := decide (s.terminated = false ∧ s.ic < s.inLen)

/-- `decode_loop()` (44_decoder_copy_engine.md R141): every token fetches a byte, so `IN_LEN - IC` tokens are enough. -/
def decodeLoop : Nat → State → State
  | 0, s => s
  | n + 1, s => if s.moreTokens then decodeLoop n (runToken s) else s

/-- What follows DECODE's loop: accounting, DONE (46_commands.md R177, R172). -/
def finishDecode (s : State) : State := complete (account s)

/-- A denied allocation (46_commands.md R177, R178): no loop, no accounting. -/
def denyBuffer (s : State) : State :=
  complete { raise .allocationFailed s with outCap := 0, resultLen := 0 }

/-- A granted allocation (46_commands.md R177, R178): the buffer is sized to the header value. -/
def grantBuffer (n : BitVec 16) (s : State) : State := { s with outCap := n.toNat, terminated := false }

/-- The loop and the accounting of a granted DECODE. -/
def decodeBody (s : State) : State := finishDecode (decodeLoop (s.inLen - s.ic) s)

/-- An accepted DECODE up to its loop, or to its end where the allocation is denied (46_commands.md R177). -/
def beginDecode (s : State) : State :=
  let (n, s1) := fetchHeader (startCommand .decode s)
  if s1.allocGrant n then grantBuffer n s1 else denyBuffer s1

/-- An accepted DECODE, whole (46_commands.md R177). -/
def runDecode (s : State) : State :=
  let (n, s1) := fetchHeader (startCommand .decode s)
  if s1.allocGrant n then decodeBody (grantBuffer n s1) else denyBuffer s1

/-! ## The meanings -/

/-- ENCODE: ignored while BUSY, refused where the acceptance test fails, else run (46_commands.md R170, R171, R174). -/
def execEncode (s : State) : Host.Outcome State Fault Refusal :=
  .next (if s.isBusy then s else if acceptsEncode s then runEncode s else refuseCommand s)

/-- DECODE: ignored while BUSY, refused where the acceptance test fails, else run (46_commands.md R170, R171, R177). -/
def execDecode (s : State) : Host.Outcome State Fault Refusal :=
  .next (if s.isBusy then s else if acceptsDecode s then runDecode s else refuseCommand s)

end Sys2Proof.Machine
end

