-- ==== Sys2Proof/Machine/Dispatch.lean ====
section
/-! DEFINITION. One arm per constructor of Instr. -/

namespace Sys2Proof.Machine

/-- The meaning of every instruction. -/
def exec (i : Instr) (s : State) : Host.Outcome State Fault Refusal :=
  match i with
  | .literal v => Sys2Proof.Machine.execLiteral v s
  | .terminator => Sys2Proof.Machine.execTerminator s
  | .rawRun raw => Sys2Proof.Machine.execRawRun raw s
  | .nearMatch disp len => Sys2Proof.Machine.execNearMatch disp len s
  | .farMatch disp len => Sys2Proof.Machine.execFarMatch disp len s
  | .encode => Sys2Proof.Machine.execEncode s
  | .decode => Sys2Proof.Machine.execDecode s

end Sys2Proof.Machine
end

