-- ==== Sys2Proof/Machine/Engine.lean ====
section
/-! DEFINITION. What a step does, case by case: make one access of the host, or run the next piece of a command that is
BUSY, or wait; and how an instruction comes to stand where the next step fetches it. -/

namespace Sys2Proof.Machine

/-- A write of `CMD` (46_commands.md R170): the command its field names, or the refusal of a field that names none. -/
def commandWrite (op : BitVec 2) (s : State) : Host.Outcome State Fault Refusal :=
  match decodeCommand op with
  | .instr i => exec i s
  | .rejected (.noSuchCommand _) => .next (rejectedWrite s)

/-- An access the spec gives no meaning while BUSY (U9, log 4): `after` while not BUSY, a stop while BUSY. -/
def whenNotBusy (s : State) (after : Host.Outcome State Fault Refusal) : Host.Outcome State Fault Refusal :=
  if s.isBusy then .fault .hostAccessWhileBusy else after

/-- A host write of a register (10_state.md R20). -/
def registerWrite (r : HostReg) (v : Word) (s : State) : Host.Outcome State Fault Refusal :=
  match r with
  | .cmd => commandWrite (commandField v) s
  | r => whenNotBusy s (.next (hostWriteReg r v s))

/-- One access of the host. A read changes nothing (20_memory.md R50); what it returns is `hostRead`, `State.readIn`,
`State.readOut`. That the cursors and OUT can be read before the first command, and IN whenever the engine is not BUSY,
is the model's choice (logs 27, 28 and 29). -/
def hostAccess (a : HostAccess) (s : State) : Host.Outcome State Fault Refusal :=
  match a with
  | .writeReg r v => registerWrite r v s
  | .writeIn a v => whenNotBusy s (.next (hostWriteIn a v s))
  | .readReg r => if readableWhileBusy r then .next s else whenNotBusy s (.next s)
  | .readIn _ => whenNotBusy s (.next s)
  | .readOut _ => whenNotBusy s (.next s)

/-- One piece of a DECODE that is BUSY: the next token, or accounting and DONE (44_decoder_copy_engine.md R141, R142,
46_commands.md R177). -/
def decodeStep (s : State) : Host.Outcome State Fault Refusal :=
  if s.moreTokens then exec (fetchToken s).1 (fetchToken s).2 else .next (finishDecode s)

/-- One piece of an ENCODE that is BUSY: the next selector step, or the end of the input, accounting and DONE
(46_commands.md R174, R175). -/
def encodeStep (s : State) : State :=
  if s.ic < s.inLen then encodeIteration s else finishEncode s

/-- What the engine does when the host makes no access: an engine that is not BUSY waits and keeps its state
(60_exceptions.md R203; log 25). -/
def engineStep (s : State) : Host.Outcome State Fault Refusal :=
  match s.phase with
  | .idle => .next s
  | .busy .encode => .next (encodeStep s)
  | .busy .decode => decodeStep s
  | .done => .next s

/-- Store bytes in IN from an address on. -/
def placeBytes : List Byte → Nat → Memory → Memory
  | [], _, m => m
  | v :: vs, a, m => placeBytes vs (a + 1) (Memory.write m a v)

/-- The state whose next step fetches what a code spells (log 16). A command: the host's next access writes it to
`CMD`. A token: a DECODE is running, at a token boundary, one control bit of its group is left and is the token's, and
the token's payload stands at the input cursor, inside IN. -/
def placeCode (c : Code) (s : State) : State :=
  match c with
  | .command op => { s with host := .writeReg .cmd (op.setWidth 32) :: s.host }
  | .token ctl payload =>
    { s with
      host := []
      phase := .busy .decode
      terminated := false
      dfAcc := bitByte ctl
      dfCnt := 1
      inMem := placeBytes payload s.ic s.inMem
      inLen := max s.inLen (s.ic + payload.length) }

end Sys2Proof.Machine
end

