-- ==== Sys2Proof/Machine/Step.lean ====
section
/-! DEFINITION. The one step function, and the placing of a numbered word where the next step fetches it. -/

namespace Sys2Proof.Machine

/-- One step: the host's next access if there is one (log 26), else the engine's next move. -/
def step (s : State) : Host.Outcome State Fault Refusal :=
  match s.host with
  | a :: rest => hostAccess a { s with host := rest }
  | [] => engineStep s

/-- `s` with the instruction that a numbered word of opcode_table.json spells placed where step fetches next (log 16). -/
def State.withFetchWord (s : State) (nbits w : Nat) : State := placeCode (tableCode nbits w) s

end Sys2Proof.Machine
end

