-- ==== Sys2Proof/Safety.lean ====
section
/-! DEFINITION. What counts as a safe state and a clean result, and the few words the statements use: the invariant of
the machine, reading a condition's bit, sequences of codec calls, agreement of two states on a command's input. -/

namespace Sys2Proof.Machine

/-! ## The invariant -/

/-- Every register holds a value of its width (10_state.md R13, R20, R22) and both memories are in canonical form inside
the 24-bit spaces (R11); `DF_ACC` has no bit above the `DF_CNT` bits it holds (R16). -/
structure State.Fits (s : State) : Prop where
  inMem_wf     : Memory.wf s.inMem = true
  outMem_wf    : Memory.wf s.outMem = true
  inMem_below  : Memory.below (2 ^ 24) s.inMem = true
  outMem_below : Memory.below (2 ^ 24) s.outMem = true
  ic_lt        : s.ic < 2 ^ 32
  oc_lt        : s.oc < 2 ^ 32
  dfCnt_le     : s.dfCnt ≤ 8
  dfAcc_lt     : s.dfAcc.toNat < 2 ^ s.dfCnt
  dfPos_lt     : s.dfPos < 2 ^ 32
  pend_lt      : s.pend < 2 ^ 32
  mDisp_lt     : s.mDisp < 2 ^ 10
  mLen_le      : s.mLen ≤ 34
  tDisp_lt     : s.tDisp < 2 ^ 10
  tCnt_le      : s.tCnt ≤ 71
  inLen_lt     : s.inLen < 2 ^ 32
  outCap_lt    : s.outCap < 2 ^ 32
  resultLen_lt : s.resultLen < 2 ^ 32

/-- What holds between the selector steps of a running ENCODE: its acceptance test (46_commands.md R171), the cursors'
bounds (20_memory.md R49, 10_state.md R17, 20_memory.md R48) and the size bound of 42_mode_selector.md R118 (c), (d) as
one inequality. -/
structure State.EncodeRunning (s : State) : Prop where
  inLen_le  : s.inLen ≤ Config.maxUncompressed
  outCap_le : s.outCap ≤ Config.lenLimit
  ic_le     : s.ic ≤ s.inLen
  pend_le   : s.pend ≤ s.ic
  header    : Config.headerBytes ≤ s.oc
  patch     : s.dfPos < s.oc
  size      : 8 * s.oc + s.dfCnt ≤ 24 + 9 * (s.ic - s.pend)

/-- What holds between the tokens of a running DECODE: its acceptance test (46_commands.md R171), the header value's
range (R178) and the cursors' bounds of 10_state.md R22. -/
structure State.DecodeRunning (s : State) : Prop where
  inLen_le  : s.inLen ≤ Config.lenLimit
  outCap_le : s.outCap ≤ Config.maxUncompressed
  ic_le     : s.ic ≤ s.inLen + Config.maxPayload
  oc_le     : s.oc ≤ 71 * min s.ic s.inLen

/-- What holds of the command that is running, if one is. -/
def State.Running (s : State) : Prop :=
  match s.phase with
  | .idle => True
  | .busy .encode => s.EncodeRunning
  | .busy .decode => s.DecodeRunning
  | .done => True

/-- The invariant of the machine. -/
def State.Inv (s : State) : Prop := s.Fits ∧ s.Running

/-! ## Results -/

/-- The command has finished and reports no condition (60_exceptions.md R193). -/
def State.Clean (s : State) : Prop :=
  s.phase = .done ∧ s.err = ErrFlags.none ∧ s.refFault = false

/-- The bit a condition of the catalogue sets (60_exceptions.md R190). -/
def State.raised (s : State) (c : Condition) : Bool :=
  match c with
  | .inputOverflow => s.err.inputOverflow
  | .inputUnderflow => s.err.inputUnderflow
  | .outputOverflow => s.err.outputOverflow
  | .outputUnderflow => s.err.outputUnderflow
  | .allocationFailed => s.err.allocationFailed
  | .refFault => s.refFault
  | .refused => s.refused

/-- The `N` that the two header bytes of IN declare, missing ones read as suppressed fetches (46_commands.md R177). -/
def State.declaredSize (s : State) : BitVec 16 := headerValue (s.inByte 0) (s.inByte 1)

/-- Two states give a command the same input: `IN_LEN` and the bytes of IN below it. -/
def State.sameInput (s t : State) : Prop :=
  s.inLen = t.inLen ∧ ∀ a, a < s.inLen → s.readIn a = t.readIn a

/-! ## Sequences of codec calls -/

/-- `pushBit` for each bit of a list, the first first. -/
def pushBits : List Bool → State → State
  | [], s => s
  | b :: bs, s => pushBits bs (pushBit b s)

/-- `n` calls of `nextBit`: the bits they return, the first first, and the state they leave. -/
def nextBits : Nat → State → List Bool × State
  | 0, s => ([], s)
  | n + 1, s =>
    let (b, s1) := nextBit s
    let (bs, s2) := nextBits n s1
    (b :: bs, s2)

/-- Store bytes one after another. -/
def outStores : List Byte → State → State
  | [], s => s
  | v :: vs, s => outStores vs (outStore v s)

/-- Fetch `n` bytes one after another. -/
def inFetches : Nat → State → List Byte × State
  | 0, s => ([], s)
  | n + 1, s =>
    let (v, s1) := inFetch s
    let (vs, s2) := inFetches n s1
    (v :: vs, s2)

/-- The encoder's calls for a sequence of tokens, each a control bit and a payload (43_bitstream_codec.md R134). -/
def emitAll : List (Bool × List Byte) → State → State
  | [], s => s
  | (b, payload) :: ts, s => emitAll ts (outStores payload (pushBit b s))

/-- The decoder's calls for a sequence of tokens of known payload lengths (43_bitstream_codec.md R134). -/
def readAll : List Nat → State → List (Bool × List Byte) × State
  | [], s => ([], s)
  | n :: ns, s =>
    let (b, s1) := nextBit s
    let (payload, s2) := inFetches n s1
    let (rest, s3) := readAll ns s2
    ((b, payload) :: rest, s3)

/-- The length of the longest run, at most `cap` bytes, that the bytes at `m` and at `p` share, said without a loop:
`k` bytes agree, and either the cap is reached or the next ones differ (41_match_finder.md R100, R101). -/
def IsCommonPrefix (rd : Nat → Byte) (m p cap k : Nat) : Prop :=
  k ≤ cap ∧ (∀ j, j < k → rd (m + j) = rd (p + j)) ∧ (k < cap → rd (m + k) ≠ rd (p + k))

end Sys2Proof.Machine
end

