-- ==== Sys2Proof/Certificates/Slice0/Obligations.lean ====
section
/-! DEFINITION. The statements for the provers. Each docstring names the rule it formalises. Where a statement rests on a
decision of 92_eei_decisions.md or on a row of the assumption log, its docstring says so. No statement uses the content
of OUT after an ENCODE that overflowed (U1, D32, log 12) or the value of a byte that nothing has written (log 6). -/

open Sys2Proof Sys2Proof.Machine

/-! ## Encoding -/

/-- For every well-formed instruction, decoding what the encoder writes gives it back, every operand at every value
(30_encoding.md R79, R82 with R73 to R78, 46_commands.md R170). -/
def Obligations.DecodeOfEncodeIsIdentity : Prop :=
  ∀ i : Instr, i.wellFormed = true → decode (encode i) = .instr i

/-- Every control bit and every byte sequence long enough spells a well-formed token, and encoding that token gives back
the control bit and exactly the bytes it takes from the stream (30_encoding.md R80, R82). -/
def Obligations.EncodeOfDecodedTokenIsItsPayload : Prop :=
  ∀ (ctl : Bool) (bytes : List Byte), payloadBytes (decodeToken ctl bytes).1 ≤ bytes.length →
    (decodeToken ctl bytes).1.isToken = true ∧
    (decodeToken ctl bytes).1.wellFormed = true ∧
    encode (decodeToken ctl bytes).1 =
      .token ctl (bytes.take (payloadBytes (decodeToken ctl bytes).1)) ∧
    (decodeToken ctl bytes).2 = bytes.drop (payloadBytes (decodeToken ctl bytes).1)

/-- The dispatch of a flag byte behind a control bit of 1, with its operands: the classes of R74 in their order, the near
fields of R76, the far fields of R77, the raw-run length and bytes of R78, the Terminator of R75. -/
def Obligations.FlagByteSelectsTokenAndOperands : Prop :=
  ∀ (flag : Byte) (rest : List Byte),
    (flag = 0x1F#8 → (decodeToken true (flag :: rest)).1 = .terminator) ∧
    (0xC0 ≤ flag.toNat → ∃ raw, (decodeToken true (flag :: rest)).1 = .rawRun raw ∧
      raw.length = flag.toNat - 0xC0 + 8 ∧ ∀ k, k < raw.length → k < rest.length → raw[k]? = rest[k]?) ∧
    (0x80 ≤ flag.toNat → flag.toNat < 0xC0 →
      (decodeToken true (flag :: rest)).1 = .nearMatch (flag.toNat % 16) (flag.toNat / 16 - 6)) ∧
    (flag.toNat < 0x80 → flag ≠ 0x1F#8 → ∀ b rest', rest = b :: rest' →
      (decodeToken true (flag :: rest)).1 =
        .farMatch (b.toNat + 256 * (flag.toNat / 32)) (flag.toNat % 32 + 3))

/-- A few tokens and both commands, word by word from the spec's encodings (95_test_vectors.md VD3, VD5, VD8, VD15,
VD18; opcode_table.json). -/
def Obligations.SampleWordsDecode : Prop :=
  decode (.token false [0x41#8]) = .instr (.literal 0x41#8) ∧
  decode (.token true [0x1F#8]) = .instr .terminator ∧
  decode (.token true [0x94#8]) = .instr (.nearMatch 4 3) ∧
  decode (.token true [0x04#8, 0x01#8]) = .instr (.farMatch 1 7) ∧
  decode (.token true [0x3F#8, 0x2C#8]) = .instr (.farMatch 300 34) ∧
  decode (.token true [0xC0#8, 1#8, 2#8, 3#8, 4#8, 5#8, 6#8, 7#8, 8#8]) =
    .instr (.rawRun [1#8, 2#8, 3#8, 4#8, 5#8, 6#8, 7#8, 8#8]) ∧
  decode (.command 1#2) = .instr .encode ∧ decode (.command 2#2) = .instr .decode

/-! ## Tokens -/

/-- `Literal(v)`: one byte input to output, both cursors advance by 1, nothing else changes; a store at or beyond
`OUT_CAP` is suppressed (44_decoder_copy_engine.md R143). -/
def Obligations.LiteralPassesOneByte : Prop :=
  ∀ (v : Byte) (s : State), ∃ t, exec (.literal v) s = .next t ∧
    t = { s with ic := s.ic + 1, oc := s.oc + 1, outMem := t.outMem } ∧
    (s.oc < s.outCap → t.readOut s.oc = v) ∧
    (∀ a, ¬ (a = s.oc ∧ s.oc < s.outCap) → t.readOut a = s.readOut a)

/-- `Terminator`: `TERMINATED` is set; nothing is stored, nothing is fetched, nothing else changes; and in a running DECODE
the loop is over, whatever input and control bits are left: the next step is the accounting and DONE
(44_decoder_copy_engine.md R144). -/
def Obligations.TerminatorEndsTheLoop : Prop :=
  ∀ s : State, exec .terminator s = .next { s with terminated := true } ∧
    (s.host = [] → s.phase = .busy .decode →
      step { s with terminated := true } = .next { account { s with terminated := true } with phase := .done })

/-- `RawRun`: the bytes go input to output one by one, both cursors advance by the length whatever fits, nothing else
changes but `T_CNT`; stores at or beyond `OUT_CAP` are suppressed (44_decoder_copy_engine.md R145). `T_CNT` holds the
bytes still to copy (10_state.md R13), so that it is 0 after the run (log 14, DEDUCED). -/
def Obligations.RawRunPassesItsBytes : Prop :=
  ∀ (raw : List Byte) (s : State), ∃ t, exec (.rawRun raw) s = .next t ∧
    t = { s with ic := s.ic + raw.length, oc := s.oc + raw.length, tCnt := 0, outMem := t.outMem } ∧
    (∀ k v, raw[k]? = some v → s.oc + k < s.outCap → t.readOut (s.oc + k) = v) ∧
    (∀ a, ¬ (s.oc ≤ a ∧ a < s.oc + raw.length ∧ a < s.outCap) → t.readOut a = s.readOut a)

/-- `NearMatch(d, len)`: each byte produced is the byte `d` behind it in OUT, which the same token may have produced, and
0x00 where there is none (the value and `REF_FAULT` are decision D9, log 9); `IC` does not move, `OC` advances by the
length, nothing else changes but `T_DISP` and `T_CNT` (44_decoder_copy_engine.md R146, R147). `T_CNT` holds the bytes still
to copy (10_state.md R13), so that it is 0 after the copy, and `T_DISP` still holds `d` (log 14, DEDUCED). -/
def Obligations.NearMatchCopiesFromTheWindow : Prop :=
  ∀ (d len : Nat) (s : State), ∃ t, exec (.nearMatch d len) s = .next t ∧
    t = { s with oc := s.oc + len, tDisp := d, tCnt := 0, outMem := t.outMem, refFault := t.refFault } ∧
    (∀ i, i < len → s.oc + i < s.outCap → t.readOut (s.oc + i) =
      if 0 < d ∧ d ≤ s.oc + i then t.readOut (s.oc + i - d) else 0x00#8) ∧
    (∀ a, ¬ (s.oc ≤ a ∧ a < s.oc + len ∧ a < s.outCap) → t.readOut a = s.readOut a) ∧
    (t.refFault = true ↔ s.refFault = true ∨
      ∃ i, i < len ∧ ¬ (0 < d ∧ d ≤ s.oc + i ∧ s.oc + i - d < s.outCap))

/-- `FarMatch(d, len)`: as the near match, and `IC` advances by 1 past the low displacement byte
(44_decoder_copy_engine.md R148, R147; the value 0x00 and `REF_FAULT` are decision D9, log 9; that `T_CNT` is 0 after the
copy, by 10_state.md R13, and that `T_DISP` still holds `d` is log 14, DEDUCED). -/
def Obligations.FarMatchCopiesFromTheWindow : Prop :=
  ∀ (d len : Nat) (s : State), ∃ t, exec (.farMatch d len) s = .next t ∧
    t = { s with ic := s.ic + 1, oc := s.oc + len, tDisp := d, tCnt := 0,
                 outMem := t.outMem, refFault := t.refFault } ∧
    (∀ i, i < len → s.oc + i < s.outCap → t.readOut (s.oc + i) =
      if 0 < d ∧ d ≤ s.oc + i then t.readOut (s.oc + i - d) else 0x00#8) ∧
    (∀ a, ¬ (s.oc ≤ a ∧ a < s.oc + len ∧ a < s.outCap) → t.readOut a = s.readOut a) ∧
    (t.refFault = true ↔ s.refFault = true ∨
      ∃ i, i < len ∧ ¬ (0 < d ∧ d ≤ s.oc + i ∧ s.oc + i - d < s.outCap))

/-- A match whose source lies in the written window repeats the last `d` bytes cyclically, however far it overlaps
itself, and raises nothing (44_decoder_copy_engine.md R147, the rule's derived form; 20_memory.md R53). -/
def Obligations.MatchRepeatsLastBytesCyclically : Prop :=
  ∀ (d len : Nat) (s : State), 1 ≤ d → d ≤ s.oc → s.oc + len ≤ s.outCap →
    ∀ i : Instr, (i = .nearMatch d len ∨ i = .farMatch d len) → ∃ t, exec i s = .next t ∧
      t.refFault = s.refFault ∧
      ∀ k, k < len → t.readOut (s.oc + k) = s.readOut (s.oc - d + k % d)

/-- No token and no encoder step reads a flag: with any `ERR`, `REFUSED` and `REF_FAULT` beforehand the step does the
same, leaves `ERR` and `REFUSED`, and raises `REF_FAULT` exactly when it does so from a clear one (10_state.md R23). -/
def Obligations.NoTokenOrEncoderStepReadsAFlag : Prop :=
  ∀ (s u : State) (e : ErrFlags) (r f : Bool), s.host = [] →
    (s.phase = .busy .decode ∧ s.terminated = false ∨ s.phase = .busy .encode) → s.ic < s.inLen →
    step { s with refFault := false } = .next u →
    step { s with err := e, refused := r, refFault := f } =
      .next { u with err := e, refused := r, refFault := f || u.refFault }

/-! ## Fetching and stepping -/

/-- A step of a running DECODE runs the decoded instruction: where the next control bit and the guarded bytes behind it
are the spelling of a well-formed token, the step is `exec` of that token at the state with the control bit taken and,
for a control bit of 1, `FLAG` loaded and `IC` moved past the flag byte (44_decoder_copy_engine.md R141, R142).
That `exec` takes over behind the flag byte, with the payload as operands, is the model's choice (log 19). -/
def Obligations.StepRunsTheDecodedToken : Prop :=
  ∀ (s s1 : State) (i : Instr) (ctl : Bool) (payload : List Byte),
    s.host = [] → s.phase = .busy .decode → s.terminated = false → s.ic < s.inLen →
    i.wellFormed = true → encode i = .token ctl payload →
    nextBit s = (ctl, s1) →
    (∀ k v, payload[k]? = some v → s1.inByte (s1.ic + k) = v) →
    step s = exec i (if ctl then { s1 with ic := s1.ic + 1, flag := s1.inByte s1.ic } else s1)

/-- A step that finds a `CMD` write makes it: the command of the field runs, or a field of 0 or 3 is refused, `REFUSED`
alone changing, and while BUSY nothing changes (46_commands.md R170, R171). That a 32-bit value above 3 counts by its low
2 bits is the model's choice (log 20), and so is that the write is made before a BUSY engine's next piece (log 26). -/
def Obligations.StepMakesTheCommandWrite : Prop :=
  ∀ (s : State) (v : Word) (rest : List HostAccess), s.host = .writeReg .cmd v :: rest →
    (v.toNat % 4 = 1 → step s = exec .encode { s with host := rest }) ∧
    (v.toNat % 4 = 2 → step s = exec .decode { s with host := rest }) ∧
    (v.toNat % 4 = 0 ∨ v.toNat % 4 = 3 →
      step s = .next { s with host := rest, refused := s.refused || !s.isBusy })

/-- The acceptance test (46_commands.md R171): a `CMD` write made while not BUSY is accepted, and its command runs to DONE
with `REFUSED` clear, exactly under the rule's condition; any other is refused, `REFUSED` alone changing (decisions D2,
D4). The model's choices in it: the value counts by its low 2 bits (log 20), the command is DONE in the one step of the
write (log 2), and the access leaves the model's list `host` (log 3). -/
def Obligations.CommandWritePassesTheAcceptanceTest : Prop :=
  ∀ (s u : State) (v : Word) (rest : List HostAccess), s.host = .writeReg .cmd v :: rest → s.isBusy = false →
    u = { s with host := rest } →
    ((v.toNat % 4 = 1 ∧ s.inLen ≤ 0xFFFF ∧ s.outCap ≤ 0x00FFFFFF ∨ v.toNat % 4 = 2 ∧ s.inLen ≤ 0x00FFFFFF) →
      ∃ t, step s = .next t ∧ t.phase = .done ∧ t.refused = false) ∧
    (¬ (v.toNat % 4 = 1 ∧ s.inLen ≤ 0xFFFF ∧ s.outCap ≤ 0x00FFFFFF ∨ v.toNat % 4 = 2 ∧ s.inLen ≤ 0x00FFFFFF) →
      step s = .next { u with refused := true })

/-- A running DECODE whose loop is over, by the Terminator or by exhaustion at a token boundary, is accounted for and
DONE in one step (44_decoder_copy_engine.md R141, 45_buffer_accounting.md R161, R162, R164, 46_commands.md R172). The
grain of the exhaustion test is decision D8 (log 10). -/
def Obligations.DecodeLoopEndsAtTerminatorOrExhaustion : Prop :=
  ∀ s : State, s.host = [] → s.phase = .busy .decode → (s.terminated = true ∨ s.inLen ≤ s.ic) →
    step s = .next { s with
      phase := .done
      resultLen := min s.oc s.outCap
      err := { s.err with
        inputOverflow := s.err.inputOverflow || decide (s.inLen < s.ic)
        inputUnderflow := s.err.inputUnderflow || decide (s.ic < s.inLen)
        outputOverflow := s.err.outputOverflow || decide (s.outCap < s.oc)
        outputUnderflow := s.err.outputUnderflow || decide (s.oc < s.outCap) } }

/-- One step of a running ENCODE that has input left passes over at least one input byte and never beyond the end,
touches no flag, and changes only the encoder's registers and OUT (46_commands.md R175, derived there from
41_match_finder.md R104). -/
def Obligations.StepOfRunningEncodeAdvances : Prop :=
  ∀ s : State, s.host = [] → s.phase = .busy .encode → s.ic < s.inLen → ∃ t, step s = .next t ∧
    s.ic < t.ic ∧ t.ic ≤ s.inLen ∧
    t = { s with ic := t.ic, oc := t.oc, dfAcc := t.dfAcc, dfCnt := t.dfCnt, dfPos := t.dfPos, pend := t.pend,
                 mDisp := t.mDisp, mLen := t.mLen, outMem := t.outMem }

/-- A literal decision emits nothing: where the selector finds no usable match, the step passes one byte over as a
pending literal (42_mode_selector.md R113). `M_DISP` and `M_LEN` hold the finder's pair (41_match_finder.md R101,
10_state.md R18); that they still do after the step is the model's reading (log 14, DEDUCED). -/
def Obligations.LiteralDecisionEmitsNothing : Prop :=
  ∀ s : State, s.host = [] → s.phase = .busy .encode → s.ic < s.inLen →
    select (bestMatch s).1 (bestMatch s).2 = .lit →
    step s = .next { s with ic := s.ic + 1, pend := s.pend + 1, mDisp := (bestMatch s).1, mLen := (bestMatch s).2 }

/-- An emission: where the selector chooses a match, the step emits the pending literals, oldest first, then the match's
control bit and its bytes, the flag byte before the low displacement byte, and passes the length over
(42_mode_selector.md R114, R115). `M_DISP` and `M_LEN` hold the finder's pair (41_match_finder.md R101, 10_state.md R18);
that they still do after the step is the model's reading (log 14, DEDUCED). -/
def Obligations.MatchStepEmitsPendingLiteralsThenTheMatch : Prop :=
  ∀ (s : State) (d len : Nat) (payload : List Byte), s.host = [] → s.phase = .busy .encode → s.ic < s.inLen →
    (select (bestMatch s).1 (bestMatch s).2 = .near d len ∧
        payload = [BitVec.ofNat 8 (0x80 + 16 * (len - 2) + d)] ∨
      select (bestMatch s).1 (bestMatch s).2 = .far d len ∧
        payload = [BitVec.ofNat 8 (32 * (d / 256) + (len - 3)), BitVec.ofNat 8 (d % 256)]) →
    step s = .next { emitAll
        (((List.range s.pend).map fun k => (false, [s.readIn (s.ic - s.pend + k)])) ++ [(true, payload)]) s with
      ic := s.ic + len, pend := 0, mDisp := (bestMatch s).1, mLen := (bestMatch s).2 }

/-- The end of the input: a running ENCODE with nothing left emits the pending literals, then the Terminator, and is
accounted for and DONE by the same step (42_mode_selector.md R117, 46_commands.md R174). -/
def Obligations.EndOfInputEmitsPendingLiteralsThenTheTerminator : Prop :=
  ∀ s : State, s.host = [] → s.phase = .busy .encode → s.inLen ≤ s.ic →
    step s = .next { account { emitAll
        (((List.range s.pend).map fun k => (false, [s.readIn (s.ic - s.pend + k)])) ++ [(true, [0x1F#8])]) s with
      pend := 0 } with phase := .done }

/-- An engine that is not BUSY waits for a host access and keeps all its state: what the host can see by 60_exceptions.md
R203, what it cannot see by the model's reading of the same sentence (log 25, DEDUCED). -/
def Obligations.IdleOrDoneEngineWaits : Prop :=
  ∀ s : State, s.host = [] → s.phase = .idle ∨ s.phase = .done → step s = .next s

/-- A step stops in exactly one case, the host's: an access other than a read of `STATUS` or a write of `CMD` while BUSY,
which the spec gives no meaning (U9, log 4). In every other state the machine goes on: no condition of the data stops the
engine (60_exceptions.md R197), a host write of a read-only register does not either (log 5), nor does a read of a cursor or
of OUT before the first command, or of IN (logs 27, 28 and 29). -/
def Obligations.StepStopsOnlyOnAHostBreach : Prop :=
  ∀ s : State,
    ((∃ t, step s = .next t) ↔
      ∀ a rest, s.host = a :: rest → s.isBusy = true → a = .readReg .status ∨ ∃ v, a = .writeReg .cmd v)

/-- IN changes by the host's writes alone, and such a write lands: a step that changes IN made a host write of IN while not
BUSY, and a host write of a byte made while not BUSY answers a state whose IN reads that byte at its address and as before
everywhere else, nothing else changing but the model's list `host` (20_memory.md R40, R54; log 3). -/
def Obligations.OnlyTheHostWritesIN : Prop :=
  (∀ s t : State, step s = .next t → t.inMem ≠ s.inMem →
    ∃ a v rest, s.host = .writeIn a v :: rest ∧ s.isBusy = false) ∧
  ∀ (s : State) (a : BitVec 24) (v : Byte) (rest : List HostAccess), s.host = .writeIn a v :: rest →
    s.isBusy = false → ∃ t, step s = .next t ∧ t = { s with inMem := t.inMem, host := rest } ∧
      ∀ b, t.readIn b = if b = a.toNat then v else s.readIn b

/-- No step stores at an OUT address at or above the capacity in force when it ends, the granted size for DECODE
(10_state.md R12; the suppression is decision D7). That what was there before is still read there also after a granted
DECODE is the model's one OUT (10_state.md R26; log 13, DEDUCED), and that no host access stores there is its
choice (log 30). -/
def Obligations.NoStoreAtOrAboveCapacity : Prop :=
  ∀ (s t : State) (a : Nat), step s = .next t → t.outCap ≤ a → t.readOut a = s.readOut a

/-- The cursors never move back while a command runs (10_state.md R14, R15). -/
def Obligations.CursorsNeverMoveBack : Prop :=
  ∀ s t : State, s.isBusy = true → step s = .next t → s.ic ≤ t.ic ∧ s.oc ≤ t.oc

/-- Nothing clears a flag inside a command: whatever is raised while BUSY is still raised after the step
(60_exceptions.md R201). -/
def Obligations.NothingClearsAFlagWhileBusy : Prop :=
  ∀ (s t : State) (c : Condition), s.isBusy = true → step s = .next t → s.raised c = true → t.raised c = true

/-- From DONE to the next `CMD` write the results are stable: whatever else the host does, or while it does nothing, the
step goes on, and OUT, `ERR`, `STATUS`, `RESULT_LEN` and both cursors stay (46_commands.md R172, 60_exceptions.md R201).
`IN_LEN` and `OUT_CAP` take the value of a host write of theirs (10_state.md R20) and stay on every other access and on a
wait; IN stays but for a host write of IN. That a read, a write of a read-only register and a wait leave also the state
the host cannot see is the model's reading (logs 22, 5 and 25, DEDUCED); that a cursor or OUT
can be read before the first command, and IN at all, is its choice (logs 27, 28 and 29), and so is that OUT has no host
write (log 30); the list `host` is the model's (log 3). -/
def Obligations.ResultsStableUntilNextCommandWrite : Prop :=
  ∀ s : State, s.isBusy = false → (∀ v rest, s.host ≠ .writeReg .cmd v :: rest) → ∃ t, step s = .next t ∧
    t = { s with inMem := t.inMem, inLen := t.inLen, outCap := t.outCap, host := s.host.tail } ∧
    (∀ v rest, s.host = .writeReg .inLen v :: rest → t.inLen = v.toNat) ∧
    ((∀ v rest, s.host ≠ .writeReg .inLen v :: rest) → t.inLen = s.inLen) ∧
    (∀ v rest, s.host = .writeReg .outCap v :: rest → t.outCap = v.toNat) ∧
    ((∀ v rest, s.host ≠ .writeReg .outCap v :: rest) → t.outCap = s.outCap) ∧
    ((∀ a v rest, s.host ≠ .writeIn a v :: rest) → t.inMem = s.inMem)

/-- PHASE is IDLE only as long as no command has been accepted: no step returns to IDLE (10_state.md R21). -/
def Obligations.NoStepReturnsToIdle : Prop :=
  ∀ s t : State, step s = .next t → t.phase = .idle → s.phase = .idle

/-! ## The codec -/

/-- Control bits come out least significant bit first, eight to a fetched byte (20_memory.md R42, 43_bitstream_codec.md
R132). That the byte is fetched by the first call that finds the group exhausted, not by the call that takes the eighth
bit, is decision D16 (log 11). -/
def Obligations.ControlBitsComeOutLowToHigh : Prop :=
  ∀ (s : State) (n : Nat), s.dfCnt = 0 → 1 ≤ n → n ≤ 8 → ∃ t,
    nextBits n s = ((List.range n).map fun k => (s.inByte s.ic).getLsbD k, t) ∧
    t = { s with ic := s.ic + 1, dfCnt := 8 - n, dfAcc := t.dfAcc } ∧
    ∀ k, t.dfAcc.getLsbD k = (s.inByte s.ic).getLsbD (k + n)

/-- Control bits go in least significant bit first: up to eight pushes into a fresh group allocate one byte at `OC`, hold
bit `j` at position `j` with zeros above (decision D15), and keep the stored byte current (decision D17)
(43_bitstream_codec.md R131). That the first push of the group places the byte is decision D16 (log 11). -/
def Obligations.PushedBitsPackLowToHigh : Prop :=
  ∀ (s : State) (bs : List Bool), s.dfCnt = 8 → bs ≠ [] → bs.length ≤ 8 → ∃ t, pushBits bs s = t ∧
    t = { s with oc := s.oc + 1, dfPos := s.oc, dfCnt := bs.length, dfAcc := t.dfAcc, outMem := t.outMem } ∧
    (∀ j, t.dfAcc.getLsbD j = bs.getD j false) ∧
    (s.oc < s.outCap → t.readOut s.oc = t.dfAcc) ∧
    (∀ a, ¬ (a = s.oc ∧ s.oc < s.outCap) → t.readOut a = s.readOut a)

/-- The mirror property: what `pushBit` and stores put into OUT for a sequence of tokens, `nextBit` and fetches take out
of IN again, bit for bit and payload for payload, wherever the bytes stand there (43_bitstream_codec.md R134, a derived
rule; it rests on decision D16, log 11). -/
def Obligations.CodecMirrorsItself : Prop :=
  ∀ (ts : List (Bool × List Byte)) (s t u : State),
    s.dfCnt = 8 → t = emitAll ts s → t.oc ≤ s.outCap →
    u.dfCnt = 0 → u.ic + (t.oc - s.oc) ≤ u.inLen →
    (∀ a, a < t.oc - s.oc → u.readIn (u.ic + a) = t.readOut (s.oc + a)) →
    (readAll (ts.map fun p => p.2.length) u).1 = ts ∧
    (readAll (ts.map fun p => p.2.length) u).2.ic = u.ic + (t.oc - s.oc)

/-! ## The finder and the selector -/

/-- The finder reports the longest common prefix in the window, capped, and among equally long ones the nearest
(41_match_finder.md R102, with the search of R101). The window of 1023 and the cap of 34 are decision D11 (log 18). -/
def Obligations.FinderReportsNearestLongestMatch : Prop :=
  ∀ s : State, s.ic < s.inLen → ∃ d len, find s = { s with mDisp := d, mLen := len } ∧
    (∀ e k, 1 ≤ e → e ≤ s.ic → e ≤ 1023 →
      IsCommonPrefix s.readIn (s.ic - e) s.ic (min 34 (s.inLen - s.ic)) k → k ≤ len ∧ (k = len → 0 < len → d ≤ e)) ∧
    (0 < len → 1 ≤ d ∧ d ≤ s.ic ∧ d ≤ 1023 ∧
      IsCommonPrefix s.readIn (s.ic - d) s.ic (min 34 (s.inLen - s.ic)) len)

/-- "No match": where no candidate of the window starts with the byte at the position, the finder answers `(0, 0)`
(41_match_finder.md R101; decision D20; the window of 1023 is decision D11, log 18). -/
def Obligations.FinderWithNoCandidateAnswersZero : Prop :=
  ∀ s : State, s.ic < s.inLen →
    (∀ e, 1 ≤ e → e ≤ s.ic → e ≤ 1023 → s.readIn (s.ic - e) ≠ s.readIn s.ic) →
    find s = { s with mDisp := 0, mLen := 0 }

/-- The selector's choice, test by test (42_mode_selector.md R111, R112; the thresholds are decisions D12, D13, log 18, and
conflicts C4, C6, C10). -/
def Obligations.SelectorChoosesByTheOrderedTests : Prop :=
  ∀ d len : Nat, len ≤ 34 →
    (2 ≤ len ∧ len ≤ 5 ∧ 1 ≤ d ∧ d ≤ 15 → select d len = .near d len) ∧
    (6 ≤ len ∧ 1 ≤ d ∧ d ≤ 15 → select d len = .far d (min len 33)) ∧
    (3 ≤ len ∧ (d = 0 ∨ 16 ≤ d) ∧ d < 256 → select d len = .far d (min len 33)) ∧
    (3 ≤ len ∧ 256 ≤ d → select d len = .far d len) ∧
    (len < 2 ∨ (len = 2 ∧ (d = 0 ∨ 16 ≤ d)) → select d len = .lit)

/-- Every match the selector asks for on a finder result has an encoding and reaches no byte before the start of the
input (42_mode_selector.md R118 (a), 30_encoding.md R92, 41_match_finder.md R104: derived rules). -/
def Obligations.SelectedMatchesAreSpellable : Prop :=
  ∀ s : State, s.ic < s.inLen →
    match select (bestMatch s).1 (bestMatch s).2 with
    | .lit => True
    | .near d len => (Instr.nearMatch d len).wellFormed = true ∧ 1 ≤ d ∧ d ≤ s.ic ∧ s.ic + len ≤ s.inLen
    | .far d len => (Instr.farMatch d len).wellFormed = true ∧ 1 ≤ d ∧ d ≤ s.ic ∧ s.ic + len ≤ s.inLen

/-! ## Accounting and conditions -/

/-- The accounting step: each flag is its comparison of final cursors, all tests are made, nothing is cleared,
`RESULT_LEN` is `min(OC, OUT_CAP)`, nothing else changes (45_buffer_accounting.md R161, R162, R164). -/
def Obligations.AccountingComparesFinalCursors : Prop :=
  ∀ s : State, account s = { s with
    resultLen := min s.oc s.outCap
    err := { s.err with
      inputOverflow := s.err.inputOverflow || decide (s.inLen < s.ic)
      inputUnderflow := s.err.inputUnderflow || decide (s.ic < s.inLen)
      outputOverflow := s.err.outputOverflow || decide (s.outCap < s.oc)
      outputUnderflow := s.err.outputUnderflow ||
        (decide (s.phase = .busy .decode) && decide (s.oc < s.outCap)) } }

/-- Raising a condition sets its bit and does nothing else: every other bit and every other field stays
(60_exceptions.md R197). -/
def Obligations.RaiseSetsOneBitOnly : Prop :=
  ∀ (c : Condition) (s : State),
    (raise c s).raised c = true ∧ (∀ c', c' ≠ c → (raise c s).raised c' = s.raised c') ∧
    raise c s = { s with err := (raise c s).err, refFault := (raise c s).refFault, refused := (raise c s).refused }

/-- What the host reads in `STATUS` and `ERR`, bit by bit, in the cursors, and in the write-only `CMD`
(10_state.md R20, R21; that the cursors can be read before the first command too is the model's choice, log 27). -/
def Obligations.HostReadsStatusErrAndCursors : Prop :=
  ∀ s : State, s.Fits →
    (hostRead .status s).toNat =
      (if s.phase = .idle then 0 else if s.phase = .done then 2 else 1) +
        (if s.refused then 4 else 0) + (if s.refFault then 8 else 0) ∧
    (hostRead .err s).toNat =
      (if s.err.inputOverflow then 1 else 0) + (if s.err.inputUnderflow then 2 else 0) +
        (if s.err.outputOverflow then 4 else 0) + (if s.err.outputUnderflow then 8 else 0) +
        (if s.err.allocationFailed then 16 else 0) ∧
    (hostRead .inCursor s).toNat = s.ic ∧ (hostRead .outCursor s).toNat = s.oc ∧
    (hostRead .inLen s).toNat = s.inLen ∧ (hostRead .outCap s).toNat = s.outCap ∧
    (hostRead .resultLen s).toNat = s.resultLen ∧ hostRead .cmd s = 0

/-! ## ENCODE -/

/-- ENCODE completes: not BUSY and accepted, it answers DONE with the whole input consumed, no flag but `OUTPUT_OVERFLOW`
and that one exactly when the encoding is longer than the capacity, `RESULT_LEN = min(OC, OUT_CAP)`, the header
big-endian where nothing overflowed, OUT from `RESULT_LEN` up untouched (10_state.md R26; log 13, DEDUCED), IN, `IN_LEN`
and `OUT_CAP` as they were, and every register not named at its start value (46_commands.md R174, R172,
45_buffer_accounting.md R162, R164, 20_memory.md R41, 10_state.md R25). DONE in one step is the model's choice (log 2). -/
def Obligations.AcceptedEncodeCompletes : Prop :=
  ∀ s : State, s.isBusy = false → s.inLen ≤ 0xFFFF → s.outCap ≤ 0x00FFFFFF → ∃ t, exec .encode s = .next t ∧
    t = { State.reset with
      inMem := s.inMem, outMem := t.outMem, ic := s.inLen, oc := t.oc
      dfAcc := t.dfAcc, dfCnt := t.dfCnt, dfPos := t.dfPos, mDisp := t.mDisp, mLen := t.mLen
      inLen := s.inLen, outCap := s.outCap, resultLen := min t.oc s.outCap, phase := .done
      err := { ErrFlags.none with outputOverflow := decide (s.outCap < t.oc) }
      allocDenied := s.allocDenied, host := s.host } ∧
    (t.oc ≤ s.outCap → (t.readOut 0).toNat = s.inLen / 256 ∧ (t.readOut 1).toNat = s.inLen % 256) ∧
    (∀ a, min t.oc s.outCap ≤ a → t.readOut a = s.readOut a)

/-- ENCODE is refused, `REFUSED` alone changing, when `IN_LEN` or `OUT_CAP` is beyond its limit, and ignored while BUSY
(46_commands.md R170, R171). -/
def Obligations.EncodeRefusedOrIgnored : Prop :=
  ∀ s : State,
    (s.isBusy = true → exec .encode s = .next s) ∧
    (s.isBusy = false → (0xFFFF < s.inLen ∨ 0x00FFFFFF < s.outCap) →
      exec .encode s = .next { s with refused := true })

/-- The size of an encoding: at least 4 bytes, at most `2 + (n + 1) + ceil((n + 1) / 8)`, never more than 73730
(46_commands.md R176, 10_state.md R22: derived rules). -/
def Obligations.EncodingSizeBounds : Prop :=
  ∀ s t : State, s.isBusy = false → s.inLen ≤ 0xFFFF → s.outCap ≤ 0x00FFFFFF → exec .encode s = .next t →
    4 ≤ t.oc ∧ t.oc ≤ 2 + (s.inLen + 1) + (s.inLen + 1 + 7) / 8 ∧ t.oc ≤ 73730

/-- ENCODE's output is a function of its input alone: two runs on the same `IN[0 .. IN_LEN-1]` produce the same size
whatever the capacities and whatever every other register held, and the same bytes where neither overflows
(46_commands.md R176, a derived rule). -/
def Obligations.EncodingDependsOnInputOnly : Prop :=
  ∀ s s' t t' : State, s.isBusy = false → s'.isBusy = false → s.sameInput s' → s.inLen ≤ 0xFFFF →
    s.outCap ≤ 0x00FFFFFF → s'.outCap ≤ 0x00FFFFFF →
    exec .encode s = .next t → exec .encode s' = .next t' →
    t.oc = t'.oc ∧ (t.oc ≤ s.outCap → t.oc ≤ s'.outCap → ∀ a, a < t.oc → t.readOut a = t'.readOut a)

/-- Data with no repeated run of two bytes or more: the encoding has exactly the size that the rule derives for one
literal a byte and a Terminator (42_mode_selector.md R119, a derived rule). -/
def Obligations.IncompressibleInputHasTheLiteralSize : Prop :=
  ∀ s t : State, s.isBusy = false → s.inLen ≤ 0xFFFF → s.outCap ≤ 0x00FFFFFF →
    (∀ i j, i < j → j + 1 < s.inLen → ¬ (s.readIn i = s.readIn j ∧ s.readIn (i + 1) = s.readIn (j + 1))) →
    exec .encode s = .next t → t.oc = 2 + (s.inLen + 1 + 7) / 8 + s.inLen + 1

/-! ## DECODE -/

/-- DECODE completes whatever IN holds: not BUSY, accepted and granted, it answers DONE with `OUT_CAP` the declared size
read big-endian, every flag of `ERR` exactly its comparison of the final cursors (`REF_FAULT` is left open),
`RESULT_LEN = min(OC, N)`, the loop over by the Terminator or by exhaustion, OUT from `RESULT_LEN` up untouched, IN and
`IN_LEN` as they were, and every register not named at its start value (46_commands.md R177, R178, R172,
44_decoder_copy_engine.md R141, 45_buffer_accounting.md R161, R162, R164, 20_memory.md R41, 10_state.md R25). It rests on
decisions D6 and D27 (a missing header byte reads 0x00, log 8) and D8 (exhaustion between tokens only, log 10); the
untouched bytes of OUT are log 13 (DEDUCED; 10_state.md R26), DONE in one step is log 2. -/
def Obligations.GrantedDecodeCompletes : Prop :=
  ∀ (s : State) (n : Nat), s.isBusy = false → s.inLen ≤ 0x00FFFFFF → s.allocGrant s.declaredSize = true →
    n = 256 * (s.inByte 0).toNat + (s.inByte 1).toNat →
    ∃ t, exec .decode s = .next t ∧
      t = { State.reset with
        inMem := s.inMem, outMem := t.outMem, ic := t.ic, oc := t.oc, dfAcc := t.dfAcc, dfCnt := t.dfCnt
        flag := t.flag, tDisp := t.tDisp, tCnt := t.tCnt, terminated := t.terminated
        inLen := s.inLen, outCap := n, resultLen := min t.oc n, phase := .done, refFault := t.refFault
        err := { inputOverflow := decide (s.inLen < t.ic), inputUnderflow := decide (t.ic < s.inLen),
                 outputOverflow := decide (n < t.oc), outputUnderflow := decide (t.oc < n),
                 allocationFailed := false }
        allocDenied := s.allocDenied, host := s.host } ∧
      (t.terminated = true ∨ s.inLen ≤ t.ic) ∧
      (∀ a, min t.oc n ≤ a → t.readOut a = s.readOut a)

/-- DECODE completes when the allocation is denied: `ALLOCATION_FAILED` and no other flag, no loop, no accounting, OUT not
written, every register as the rule and the start values give it (46_commands.md R178; the zero lengths are decision
D10). The size that is denied reads a missing header byte as 0x00 (decisions D6 and D27, log 8); DONE in one step is the
model's choice (log 2). -/
def Obligations.DeniedDecodeCompletes : Prop :=
  ∀ s : State, s.isBusy = false → s.inLen ≤ 0x00FFFFFF → s.allocGrant s.declaredSize = false →
    exec .decode s = .next { State.reset with
      inMem := s.inMem, outMem := s.outMem, inLen := s.inLen, allocDenied := s.allocDenied, host := s.host, ic := 2, phase := .done
      err := { ErrFlags.none with allocationFailed := true } }

/-- A DECODE of fewer than the two header bytes completes: the missing bytes are suppressed fetches, no token runs,
nothing is stored, `INPUT_OVERFLOW` is set (46_commands.md R177, R172; decisions D6, D27, log 8). DONE in one step is the
model's choice (log 2). -/
def Obligations.DecodeOfLessThanAHeaderCompletes : Prop :=
  ∀ s : State, s.isBusy = false → s.inLen < 2 → s.allocGrant s.declaredSize = true →
    ∃ t, exec .decode s = .next t ∧ t.phase = .done ∧ t.ic = 2 ∧ t.oc = 0 ∧ t.outMem = s.outMem ∧
      t.err.inputOverflow = true ∧ (t.err.outputUnderflow = true ↔ 0 < s.declaredSize.toNat)

/-- DECODE is refused, `REFUSED` alone changing, when `IN_LEN` is beyond its limit, and ignored while BUSY
(46_commands.md R170, R171). -/
def Obligations.DecodeRefusedOrIgnored : Prop :=
  ∀ s : State,
    (s.isBusy = true → exec .decode s = .next s) ∧
    (s.isBusy = false → 0x00FFFFFF < s.inLen → exec .decode s = .next { s with refused := true })

/-- The cursors' bounds after any DECODE, so that 32-bit registers never wrap (10_state.md R22, a derived rule). Where the
command ends with `INPUT_OVERFLOW` they rest on decision D8: a token that has started always completes (log 10). -/
def Obligations.DecodeCursorBounds : Prop :=
  ∀ s t : State, s.isBusy = false → s.inLen ≤ 0x00FFFFFF → exec .decode s = .next t →
    t.ic ≤ s.inLen + 72 ∧ t.oc ≤ 71 * s.inLen ∧ t.oc < 2 ^ 31

/-- DECODE is a function of `IN[0 .. IN_LEN-1]`, `IN_LEN` and the grant: what OUT, `OUT_CAP` and every other register
held before changes no result (93_implementation_defined.md section 3; 10_state.md R24). For the data of a DECODE that
ends with `INPUT_OVERFLOW` this rests on decision D6 (log 8), and for that of one that sets `REF_FAULT` on decision D9
(log 9). -/
def Obligations.DecodingDependsOnInputOnly : Prop :=
  ∀ s s' t t' : State, s.isBusy = false → s'.isBusy = false → s.sameInput s' → s.inLen ≤ 0x00FFFFFF →
    s.allocGrant s.declaredSize = s'.allocGrant s'.declaredSize →
    exec .decode s = .next t → exec .decode s' = .next t' →
    t.ic = t'.ic ∧ t.oc = t'.oc ∧ t.outCap = t'.outCap ∧ t.resultLen = t'.resultLen ∧ t.err = t'.err ∧
    t.refFault = t'.refFault ∧ ∀ a, a < t.resultLen → t.readOut a = t'.readOut a

/-- An empty `ERR` after a granted DECODE means that both cursors ended exactly where they should
(60_exceptions.md R193). -/
def Obligations.EmptyErrMeansExactCursors : Prop :=
  ∀ s t : State, s.isBusy = false → s.inLen ≤ 0x00FFFFFF → exec .decode s = .next t → t.err = ErrFlags.none →
    t.ic = s.inLen ∧ t.oc = s.declaredSize.toNat ∧ t.outCap = t.oc ∧ t.resultLen = t.oc

/-! ## Headlines -/

/-- The round trip: for every byte sequence of at most 65535 bytes, DECODE of what ENCODE wrote gives it back, with no
flag set by either command, given the capacity that always suffices and a granted buffer (46_commands.md R180, a derived
rule). That each command is DONE in one step is the model's choice (log 2). -/
def Obligations.DecodeOfEncodingGivesTheInputBack : Prop :=
  ∀ s t s' : State, s.isBusy = false → s.inLen ≤ 0xFFFF → s.inLen + (s.inLen + 1 + 7) / 8 + 3 ≤ s.outCap →
    s.outCap ≤ 0x00FFFFFF → exec .encode s = .next t →
    s'.isBusy = false → s'.inLen = t.resultLen → (∀ a, a < t.resultLen → s'.readIn a = t.readOut a) →
    s'.allocGrant (BitVec.ofNat 16 s.inLen) = true →
    ∃ u, exec .decode s' = .next u ∧ t.Clean ∧ u.Clean ∧ u.resultLen = s.inLen ∧ u.ic = s'.inLen ∧
      ∀ a, a < s.inLen → u.readOut a = s.readIn a

/-- The atomic DECODE is its token steps: from the state in which an accepted command's loop begins, some number of
single steps reaches exactly the state that the command answers (46_commands.md R173; log 2). -/
def Obligations.DecodeIsItsTokenSteps : Prop :=
  ∀ s : State, s.host = [] → s.isBusy = false → s.inLen ≤ 0x00FFFFFF → ∃ t n,
    exec .decode s = .next t ∧ core.run n (beginDecode s) = .next t

/-- The atomic ENCODE is its selector steps, as for DECODE (46_commands.md R173; log 2). -/
def Obligations.EncodeIsItsSelectorSteps : Prop :=
  ∀ s : State, s.host = [] → s.isBusy = false → s.inLen ≤ 0xFFFF → s.outCap ≤ 0x00FFFFFF → ∃ t n,
    exec .encode s = .next t ∧ core.run n (beginEncode s) = .next t

/-- The invariant is inductive: from every state that meets it, reachable or not, each step keeps it. Registers fit their
widths, memories stay canonical, the running command's cursors keep their bounds (10_state.md R13, R16, R17, R22,
20_memory.md R48, R49, 42_mode_selector.md R118). -/
def Obligations.EveryStepKeepsTheInvariant : Prop :=
  ∀ s t : State, s.Inv → step s = .next t → t.Inv

/-- The invariant holds after power-on reset. -/
def Obligations.ResetMeetsTheInvariant : Prop := State.reset.Inv

/-- Power-on reset leaves `STATUS`, `ERR`, `RESULT_LEN`, `IN_LEN` and `OUT_CAP`, the registers the host can read before
the first command, at 0 (10_state.md R25; 70_reset_and_hazards.md R210; decision D21). That the two cursors, which R25 also
loads with 0, can be read before the first command as well follows 10_state.md R20 against R210: the model's choice
(log 27). `CMD` reads as 0 always (R20). -/
def Obligations.ResetReadsZero : Prop :=
  ∀ r : HostReg, hostRead r State.reset = 0
end

