-- ==== Sys2Proof/Laws/Encoding.lean ====
section
/-! SUPPORT. The field formulas of 30_encoding.md: what each packed flag byte reads as. Finite facts about one byte are
decided; the ten displacement bits are put together by arithmetic. -/

namespace Sys2Proof

/-! ## The operand ranges as inequalities -/

theorem nearSpellable_iff (d l : Nat) : nearSpellable d l = true ↔ d ≤ 15 ∧ 2 ≤ l ∧ l ≤ 5 := decide_eq_true_iff

theorem farSpellable_iff (d l : Nat) :
    farSpellable d l = true ↔ d ≤ 1023 ∧ 3 ≤ l ∧ l ≤ 34 ∧ ¬ (d < 256 ∧ l = 34) := decide_eq_true_iff

theorem rawSpellable_iff (raw : List Byte) : rawSpellable raw = true ↔ 8 ≤ raw.length ∧ raw.length ≤ 71 :=
  decide_eq_true_iff

/-! ## Packing and unpacking -/

/-- R76 undoes R79's near packing. -/
theorem near_unpack : ∀ d < 16, ∀ l < 6, 2 ≤ l →
    classify (nearFlag d l) = .nearMatch ∧ nearDisp (nearFlag d l) = d ∧ nearLen (nearFlag d l) = l := by
  decide +kernel

/-- The far flag byte of R79, by its two fields: displacement bits 9:8 and length minus 3. -/
theorem far_unpack_fields : ∀ h < 4, ∀ l < 32, ¬ (h = 0 ∧ l = 31) →
    classify ((BitVec.ofNat 8 h <<< 5) ||| BitVec.ofNat 8 l) = .farMatch ∧
    (((BitVec.ofNat 8 h <<< 5) ||| BitVec.ofNat 8 l).toNat <<< 3) &&& 0x300 = h <<< 8 ∧
    farLen ((BitVec.ofNat 8 h <<< 5) ||| BitVec.ofNat 8 l) = l + 3 := by
  decide +kernel

theorem farLow_toNat (d : Nat) : (farLow d).toNat = d % 256 := by
  have : d &&& 0xFF = d % 2 ^ 8 := Nat.and_two_pow_sub_one_eq_mod d 8
  rw [farLow, this, BitVec.toNat_ofNat]; omega

/-- R77 undoes R79's far packing, for every displacement and length the far form carries. -/
theorem far_unpack (d l : Nat) (h : farSpellable d l = true) :
    classify (farFlag d l) = .farMatch ∧ farDisp (farFlag d l) (farLow d) = d ∧ farLen (farFlag d l) = l := by
  rw [farSpellable_iff] at h
  have hs : d >>> 8 = d / 256 := Nat.shiftRight_eq_div_pow d 8
  obtain ⟨h1, h2, h3⟩ := far_unpack_fields (d >>> 8) (by omega) (l - 3) (by omega) (by omega)
  refine ⟨h1, ?_, by rw [farFlag, h3]; omega⟩
  rw [farDisp, farFlag, h2, farLow_toNat, Nat.lor_comm, ← Nat.shiftLeft_add_eq_or_of_lt (by omega),
    Nat.shiftLeft_eq, hs]
  omega

/-- R78 undoes the raw-run packing. -/
theorem raw_unpack : ∀ l < 72, 8 ≤ l → classify (rawFlag l) = .rawRun ∧ rawLen (rawFlag l) = l := by
  decide +kernel

theorem takeBytes_length (bytes : List Byte) (n : Nat) : (takeBytes bytes n).length = n := by
  simp [takeBytes]

/-- Where enough bytes are there, taking them is taking a prefix. -/
theorem takeBytes_eq_take (bytes : List Byte) (n : Nat) (h : n ≤ bytes.length) :
    takeBytes bytes n = bytes.take n := by
  apply List.ext_getElem?
  intro k
  simp only [takeBytes, List.getElem?_map, List.getElem?_take]
  by_cases hk : k < n
  · rw [List.getElem?_range hk, if_pos hk]
    have : k < bytes.length := by omega
    simp [byteAt, this]
  · rw [if_neg hk, List.getElem?_eq_none (by simp; omega)]; rfl

/-- The operand ranges of a flag byte of each class (30_encoding.md R81, R89). -/
theorem classify_ranges : ∀ f : Byte,
    (classify f = .rawRun → 8 ≤ rawLen f ∧ rawLen f ≤ 71 ∧ rawFlag (rawLen f) = f) ∧
    (classify f = .nearMatch → nearDisp f ≤ 15 ∧ 2 ≤ nearLen f ∧ nearLen f ≤ 5 ∧
      nearFlag (nearDisp f) (nearLen f) = f) ∧
    (classify f = .farMatch → 3 ≤ farLen f ∧ farLen f ≤ 34 ∧ ((f.toNat <<< 3) &&& 0x300) / 256 ≤ 3 ∧
      ((f.toNat <<< 3) &&& 0x300) % 256 = 0 ∧
      ¬ ((f.toNat <<< 3) &&& 0x300 = 0 ∧ farLen f = 34) ∧
      (BitVec.ofNat 8 (((f.toNat <<< 3) &&& 0x300) / 256) <<< 5) ||| BitVec.ofNat 8 (farLen f - 3) = f) := by
  decide +kernel

/-- The ten displacement bits of a far token are the two of its flag byte over the eight of `b`. -/
theorem farDisp_eq (f b : Byte) : farDisp f b = ((f.toNat <<< 3) &&& 0x300) + b.toNat := by
  have h : ∀ f : Byte, (f.toNat <<< 3) &&& 0x300 = (((f.toNat <<< 3) &&& 0x300) / 256) <<< 8 := by decide +kernel
  rw [farDisp, h f, Nat.lor_comm, ← Nat.shiftLeft_add_eq_or_of_lt b.isLt]

/-- Every token the decoder gives is well formed and is a token. -/
theorem decodeToken_wellFormed (ctl : Bool) (bytes : List Byte) :
    (decodeToken ctl bytes).1.wellFormed = true ∧ (decodeToken ctl bytes).1.isToken = true := by
  cases ctl
  · simp [decodeToken, Instr.wellFormed, Instr.isToken]
  · simp only [decodeToken, if_true, decodeFlag]
    obtain ⟨hr, hn, hf⟩ := classify_ranges (byteAt bytes 0)
    cases hc : classify (byteAt bytes 0) with
    | terminator => simp [Instr.wellFormed, Instr.isToken]
    | rawRun =>
      have := hr hc
      exact ⟨(rawSpellable_iff _).2 (by rw [takeBytes_length]; omega), rfl⟩
    | nearMatch =>
      have := hn hc
      exact ⟨(nearSpellable_iff _ _).2 (by omega), rfl⟩
    | farMatch =>
      have := hf hc
      have hb := (byteAt bytes.tail 0).isLt
      exact ⟨(farSpellable_iff _ _).2 (by rw [farDisp_eq]; omega), rfl⟩

end Sys2Proof
end

