-- ==== Sys2Proof/Laws/State.lean ====
section
/-! SUPPORT. One lemma per field per update: what each small operation leaves in each field of State, so that no proof
unfolds an update. -/

namespace Sys2Proof.Machine

/-! ## outStore -/

@[simp] theorem outStore_inMem (v : Byte) (s : State) : (outStore v s).inMem = s.inMem := rfl
@[simp] theorem outStore_outMem (v : Byte) (s : State) : (outStore v s).outMem = if s.oc < s.outCap then Memory.write s.outMem s.oc v else s.outMem := rfl
@[simp] theorem outStore_ic (v : Byte) (s : State) : (outStore v s).ic = s.ic := rfl
@[simp] theorem outStore_oc (v : Byte) (s : State) : (outStore v s).oc = s.oc + 1 := rfl
@[simp] theorem outStore_dfAcc (v : Byte) (s : State) : (outStore v s).dfAcc = s.dfAcc := rfl
@[simp] theorem outStore_dfCnt (v : Byte) (s : State) : (outStore v s).dfCnt = s.dfCnt := rfl
@[simp] theorem outStore_dfPos (v : Byte) (s : State) : (outStore v s).dfPos = s.dfPos := rfl
@[simp] theorem outStore_pend (v : Byte) (s : State) : (outStore v s).pend = s.pend := rfl
@[simp] theorem outStore_mDisp (v : Byte) (s : State) : (outStore v s).mDisp = s.mDisp := rfl
@[simp] theorem outStore_mLen (v : Byte) (s : State) : (outStore v s).mLen = s.mLen := rfl
@[simp] theorem outStore_flag (v : Byte) (s : State) : (outStore v s).flag = s.flag := rfl
@[simp] theorem outStore_tDisp (v : Byte) (s : State) : (outStore v s).tDisp = s.tDisp := rfl
@[simp] theorem outStore_tCnt (v : Byte) (s : State) : (outStore v s).tCnt = s.tCnt := rfl
@[simp] theorem outStore_terminated (v : Byte) (s : State) : (outStore v s).terminated = s.terminated := rfl
@[simp] theorem outStore_inLen (v : Byte) (s : State) : (outStore v s).inLen = s.inLen := rfl
@[simp] theorem outStore_outCap (v : Byte) (s : State) : (outStore v s).outCap = s.outCap := rfl
@[simp] theorem outStore_resultLen (v : Byte) (s : State) : (outStore v s).resultLen = s.resultLen := rfl
@[simp] theorem outStore_phase (v : Byte) (s : State) : (outStore v s).phase = s.phase := rfl
@[simp] theorem outStore_refused (v : Byte) (s : State) : (outStore v s).refused = s.refused := rfl
@[simp] theorem outStore_refFault (v : Byte) (s : State) : (outStore v s).refFault = s.refFault := rfl
@[simp] theorem outStore_err (v : Byte) (s : State) : (outStore v s).err = s.err := rfl
@[simp] theorem outStore_allocDenied (v : Byte) (s : State) : (outStore v s).allocDenied = s.allocDenied := rfl
@[simp] theorem outStore_host (v : Byte) (s : State) : (outStore v s).host = s.host := rfl

/-! ## writeOut -/

@[simp] theorem writeOut_inMem (a : Nat) (v : Byte) (s : State) : (writeOut a v s).inMem = s.inMem := rfl
@[simp] theorem writeOut_outMem (a : Nat) (v : Byte) (s : State) : (writeOut a v s).outMem = Memory.write s.outMem a v := rfl
@[simp] theorem writeOut_ic (a : Nat) (v : Byte) (s : State) : (writeOut a v s).ic = s.ic := rfl
@[simp] theorem writeOut_oc (a : Nat) (v : Byte) (s : State) : (writeOut a v s).oc = s.oc := rfl
@[simp] theorem writeOut_dfAcc (a : Nat) (v : Byte) (s : State) : (writeOut a v s).dfAcc = s.dfAcc := rfl
@[simp] theorem writeOut_dfCnt (a : Nat) (v : Byte) (s : State) : (writeOut a v s).dfCnt = s.dfCnt := rfl
@[simp] theorem writeOut_dfPos (a : Nat) (v : Byte) (s : State) : (writeOut a v s).dfPos = s.dfPos := rfl
@[simp] theorem writeOut_pend (a : Nat) (v : Byte) (s : State) : (writeOut a v s).pend = s.pend := rfl
@[simp] theorem writeOut_mDisp (a : Nat) (v : Byte) (s : State) : (writeOut a v s).mDisp = s.mDisp := rfl
@[simp] theorem writeOut_mLen (a : Nat) (v : Byte) (s : State) : (writeOut a v s).mLen = s.mLen := rfl
@[simp] theorem writeOut_flag (a : Nat) (v : Byte) (s : State) : (writeOut a v s).flag = s.flag := rfl
@[simp] theorem writeOut_tDisp (a : Nat) (v : Byte) (s : State) : (writeOut a v s).tDisp = s.tDisp := rfl
@[simp] theorem writeOut_tCnt (a : Nat) (v : Byte) (s : State) : (writeOut a v s).tCnt = s.tCnt := rfl
@[simp] theorem writeOut_terminated (a : Nat) (v : Byte) (s : State) : (writeOut a v s).terminated = s.terminated := rfl
@[simp] theorem writeOut_inLen (a : Nat) (v : Byte) (s : State) : (writeOut a v s).inLen = s.inLen := rfl
@[simp] theorem writeOut_outCap (a : Nat) (v : Byte) (s : State) : (writeOut a v s).outCap = s.outCap := rfl
@[simp] theorem writeOut_resultLen (a : Nat) (v : Byte) (s : State) : (writeOut a v s).resultLen = s.resultLen := rfl
@[simp] theorem writeOut_phase (a : Nat) (v : Byte) (s : State) : (writeOut a v s).phase = s.phase := rfl
@[simp] theorem writeOut_refused (a : Nat) (v : Byte) (s : State) : (writeOut a v s).refused = s.refused := rfl
@[simp] theorem writeOut_refFault (a : Nat) (v : Byte) (s : State) : (writeOut a v s).refFault = s.refFault := rfl
@[simp] theorem writeOut_err (a : Nat) (v : Byte) (s : State) : (writeOut a v s).err = s.err := rfl
@[simp] theorem writeOut_allocDenied (a : Nat) (v : Byte) (s : State) : (writeOut a v s).allocDenied = s.allocDenied := rfl
@[simp] theorem writeOut_host (a : Nat) (v : Byte) (s : State) : (writeOut a v s).host = s.host := rfl

/-! ## outPatch -/

@[simp] theorem outPatch_inMem (a : Nat) (v : Byte) (s : State) : (outPatch a v s).inMem = s.inMem := by unfold outPatch; split <;> rfl
@[simp] theorem outPatch_ic (a : Nat) (v : Byte) (s : State) : (outPatch a v s).ic = s.ic := by unfold outPatch; split <;> rfl
@[simp] theorem outPatch_oc (a : Nat) (v : Byte) (s : State) : (outPatch a v s).oc = s.oc := by unfold outPatch; split <;> rfl
@[simp] theorem outPatch_dfAcc (a : Nat) (v : Byte) (s : State) : (outPatch a v s).dfAcc = s.dfAcc := by unfold outPatch; split <;> rfl
@[simp] theorem outPatch_dfCnt (a : Nat) (v : Byte) (s : State) : (outPatch a v s).dfCnt = s.dfCnt := by unfold outPatch; split <;> rfl
@[simp] theorem outPatch_dfPos (a : Nat) (v : Byte) (s : State) : (outPatch a v s).dfPos = s.dfPos := by unfold outPatch; split <;> rfl
@[simp] theorem outPatch_pend (a : Nat) (v : Byte) (s : State) : (outPatch a v s).pend = s.pend := by unfold outPatch; split <;> rfl
@[simp] theorem outPatch_mDisp (a : Nat) (v : Byte) (s : State) : (outPatch a v s).mDisp = s.mDisp := by unfold outPatch; split <;> rfl
@[simp] theorem outPatch_mLen (a : Nat) (v : Byte) (s : State) : (outPatch a v s).mLen = s.mLen := by unfold outPatch; split <;> rfl
@[simp] theorem outPatch_flag (a : Nat) (v : Byte) (s : State) : (outPatch a v s).flag = s.flag := by unfold outPatch; split <;> rfl
@[simp] theorem outPatch_tDisp (a : Nat) (v : Byte) (s : State) : (outPatch a v s).tDisp = s.tDisp := by unfold outPatch; split <;> rfl
@[simp] theorem outPatch_tCnt (a : Nat) (v : Byte) (s : State) : (outPatch a v s).tCnt = s.tCnt := by unfold outPatch; split <;> rfl
@[simp] theorem outPatch_terminated (a : Nat) (v : Byte) (s : State) : (outPatch a v s).terminated = s.terminated := by unfold outPatch; split <;> rfl
@[simp] theorem outPatch_inLen (a : Nat) (v : Byte) (s : State) : (outPatch a v s).inLen = s.inLen := by unfold outPatch; split <;> rfl
@[simp] theorem outPatch_outCap (a : Nat) (v : Byte) (s : State) : (outPatch a v s).outCap = s.outCap := by unfold outPatch; split <;> rfl
@[simp] theorem outPatch_resultLen (a : Nat) (v : Byte) (s : State) : (outPatch a v s).resultLen = s.resultLen := by unfold outPatch; split <;> rfl
@[simp] theorem outPatch_phase (a : Nat) (v : Byte) (s : State) : (outPatch a v s).phase = s.phase := by unfold outPatch; split <;> rfl
@[simp] theorem outPatch_refused (a : Nat) (v : Byte) (s : State) : (outPatch a v s).refused = s.refused := by unfold outPatch; split <;> rfl
@[simp] theorem outPatch_refFault (a : Nat) (v : Byte) (s : State) : (outPatch a v s).refFault = s.refFault := by unfold outPatch; split <;> rfl
@[simp] theorem outPatch_err (a : Nat) (v : Byte) (s : State) : (outPatch a v s).err = s.err := by unfold outPatch; split <;> rfl
@[simp] theorem outPatch_allocDenied (a : Nat) (v : Byte) (s : State) : (outPatch a v s).allocDenied = s.allocDenied := by unfold outPatch; split <;> rfl
@[simp] theorem outPatch_host (a : Nat) (v : Byte) (s : State) : (outPatch a v s).host = s.host := by unfold outPatch; split <;> rfl

/-! ## inFetch -/

@[simp] theorem inFetch_inMem (s : State) : (inFetch s).2.inMem = s.inMem := rfl
@[simp] theorem inFetch_outMem (s : State) : (inFetch s).2.outMem = s.outMem := rfl
@[simp] theorem inFetch_ic (s : State) : (inFetch s).2.ic = s.ic + 1 := rfl
@[simp] theorem inFetch_oc (s : State) : (inFetch s).2.oc = s.oc := rfl
@[simp] theorem inFetch_dfAcc (s : State) : (inFetch s).2.dfAcc = s.dfAcc := rfl
@[simp] theorem inFetch_dfCnt (s : State) : (inFetch s).2.dfCnt = s.dfCnt := rfl
@[simp] theorem inFetch_dfPos (s : State) : (inFetch s).2.dfPos = s.dfPos := rfl
@[simp] theorem inFetch_pend (s : State) : (inFetch s).2.pend = s.pend := rfl
@[simp] theorem inFetch_mDisp (s : State) : (inFetch s).2.mDisp = s.mDisp := rfl
@[simp] theorem inFetch_mLen (s : State) : (inFetch s).2.mLen = s.mLen := rfl
@[simp] theorem inFetch_flag (s : State) : (inFetch s).2.flag = s.flag := rfl
@[simp] theorem inFetch_tDisp (s : State) : (inFetch s).2.tDisp = s.tDisp := rfl
@[simp] theorem inFetch_tCnt (s : State) : (inFetch s).2.tCnt = s.tCnt := rfl
@[simp] theorem inFetch_terminated (s : State) : (inFetch s).2.terminated = s.terminated := rfl
@[simp] theorem inFetch_inLen (s : State) : (inFetch s).2.inLen = s.inLen := rfl
@[simp] theorem inFetch_outCap (s : State) : (inFetch s).2.outCap = s.outCap := rfl
@[simp] theorem inFetch_resultLen (s : State) : (inFetch s).2.resultLen = s.resultLen := rfl
@[simp] theorem inFetch_phase (s : State) : (inFetch s).2.phase = s.phase := rfl
@[simp] theorem inFetch_refused (s : State) : (inFetch s).2.refused = s.refused := rfl
@[simp] theorem inFetch_refFault (s : State) : (inFetch s).2.refFault = s.refFault := rfl
@[simp] theorem inFetch_err (s : State) : (inFetch s).2.err = s.err := rfl
@[simp] theorem inFetch_allocDenied (s : State) : (inFetch s).2.allocDenied = s.allocDenied := rfl
@[simp] theorem inFetch_host (s : State) : (inFetch s).2.host = s.host := rfl

/-! ## fetchFlag -/

@[simp] theorem fetchFlag_inMem (s : State) : (fetchFlag s).inMem = s.inMem := rfl
@[simp] theorem fetchFlag_outMem (s : State) : (fetchFlag s).outMem = s.outMem := rfl
@[simp] theorem fetchFlag_ic (s : State) : (fetchFlag s).ic = s.ic + 1 := rfl
@[simp] theorem fetchFlag_oc (s : State) : (fetchFlag s).oc = s.oc := rfl
@[simp] theorem fetchFlag_dfAcc (s : State) : (fetchFlag s).dfAcc = s.dfAcc := rfl
@[simp] theorem fetchFlag_dfCnt (s : State) : (fetchFlag s).dfCnt = s.dfCnt := rfl
@[simp] theorem fetchFlag_dfPos (s : State) : (fetchFlag s).dfPos = s.dfPos := rfl
@[simp] theorem fetchFlag_pend (s : State) : (fetchFlag s).pend = s.pend := rfl
@[simp] theorem fetchFlag_mDisp (s : State) : (fetchFlag s).mDisp = s.mDisp := rfl
@[simp] theorem fetchFlag_mLen (s : State) : (fetchFlag s).mLen = s.mLen := rfl
@[simp] theorem fetchFlag_flag (s : State) : (fetchFlag s).flag = s.inByte s.ic := rfl
@[simp] theorem fetchFlag_tDisp (s : State) : (fetchFlag s).tDisp = s.tDisp := rfl
@[simp] theorem fetchFlag_tCnt (s : State) : (fetchFlag s).tCnt = s.tCnt := rfl
@[simp] theorem fetchFlag_terminated (s : State) : (fetchFlag s).terminated = s.terminated := rfl
@[simp] theorem fetchFlag_inLen (s : State) : (fetchFlag s).inLen = s.inLen := rfl
@[simp] theorem fetchFlag_outCap (s : State) : (fetchFlag s).outCap = s.outCap := rfl
@[simp] theorem fetchFlag_resultLen (s : State) : (fetchFlag s).resultLen = s.resultLen := rfl
@[simp] theorem fetchFlag_phase (s : State) : (fetchFlag s).phase = s.phase := rfl
@[simp] theorem fetchFlag_refused (s : State) : (fetchFlag s).refused = s.refused := rfl
@[simp] theorem fetchFlag_refFault (s : State) : (fetchFlag s).refFault = s.refFault := rfl
@[simp] theorem fetchFlag_err (s : State) : (fetchFlag s).err = s.err := rfl
@[simp] theorem fetchFlag_allocDenied (s : State) : (fetchFlag s).allocDenied = s.allocDenied := rfl
@[simp] theorem fetchFlag_host (s : State) : (fetchFlag s).host = s.host := rfl

/-! ## raise -/

@[simp] theorem raise_inMem (c : Condition) (s : State) : (raise c s).inMem = s.inMem := by cases c <;> rfl
@[simp] theorem raise_outMem (c : Condition) (s : State) : (raise c s).outMem = s.outMem := by cases c <;> rfl
@[simp] theorem raise_ic (c : Condition) (s : State) : (raise c s).ic = s.ic := by cases c <;> rfl
@[simp] theorem raise_oc (c : Condition) (s : State) : (raise c s).oc = s.oc := by cases c <;> rfl
@[simp] theorem raise_dfAcc (c : Condition) (s : State) : (raise c s).dfAcc = s.dfAcc := by cases c <;> rfl
@[simp] theorem raise_dfCnt (c : Condition) (s : State) : (raise c s).dfCnt = s.dfCnt := by cases c <;> rfl
@[simp] theorem raise_dfPos (c : Condition) (s : State) : (raise c s).dfPos = s.dfPos := by cases c <;> rfl
@[simp] theorem raise_pend (c : Condition) (s : State) : (raise c s).pend = s.pend := by cases c <;> rfl
@[simp] theorem raise_mDisp (c : Condition) (s : State) : (raise c s).mDisp = s.mDisp := by cases c <;> rfl
@[simp] theorem raise_mLen (c : Condition) (s : State) : (raise c s).mLen = s.mLen := by cases c <;> rfl
@[simp] theorem raise_flag (c : Condition) (s : State) : (raise c s).flag = s.flag := by cases c <;> rfl
@[simp] theorem raise_tDisp (c : Condition) (s : State) : (raise c s).tDisp = s.tDisp := by cases c <;> rfl
@[simp] theorem raise_tCnt (c : Condition) (s : State) : (raise c s).tCnt = s.tCnt := by cases c <;> rfl
@[simp] theorem raise_terminated (c : Condition) (s : State) : (raise c s).terminated = s.terminated := by cases c <;> rfl
@[simp] theorem raise_inLen (c : Condition) (s : State) : (raise c s).inLen = s.inLen := by cases c <;> rfl
@[simp] theorem raise_outCap (c : Condition) (s : State) : (raise c s).outCap = s.outCap := by cases c <;> rfl
@[simp] theorem raise_resultLen (c : Condition) (s : State) : (raise c s).resultLen = s.resultLen := by cases c <;> rfl
@[simp] theorem raise_phase (c : Condition) (s : State) : (raise c s).phase = s.phase := by cases c <;> rfl
@[simp] theorem raise_allocDenied (c : Condition) (s : State) : (raise c s).allocDenied = s.allocDenied := by cases c <;> rfl
@[simp] theorem raise_host (c : Condition) (s : State) : (raise c s).host = s.host := by cases c <;> rfl

/-! ## startCommand -/

@[simp] theorem startCommand_inMem (c : Command) (s : State) : (startCommand c s).inMem = s.inMem := rfl
@[simp] theorem startCommand_outMem (c : Command) (s : State) : (startCommand c s).outMem = s.outMem := rfl
@[simp] theorem startCommand_ic (c : Command) (s : State) : (startCommand c s).ic = 0 := rfl
@[simp] theorem startCommand_oc (c : Command) (s : State) : (startCommand c s).oc = 0 := rfl
@[simp] theorem startCommand_dfAcc (c : Command) (s : State) : (startCommand c s).dfAcc = 0 := rfl
@[simp] theorem startCommand_dfCnt (c : Command) (s : State) : (startCommand c s).dfCnt = startCount c := rfl
@[simp] theorem startCommand_dfPos (c : Command) (s : State) : (startCommand c s).dfPos = 0 := rfl
@[simp] theorem startCommand_pend (c : Command) (s : State) : (startCommand c s).pend = 0 := rfl
@[simp] theorem startCommand_mDisp (c : Command) (s : State) : (startCommand c s).mDisp = 0 := rfl
@[simp] theorem startCommand_mLen (c : Command) (s : State) : (startCommand c s).mLen = 0 := rfl
@[simp] theorem startCommand_flag (c : Command) (s : State) : (startCommand c s).flag = 0 := rfl
@[simp] theorem startCommand_tDisp (c : Command) (s : State) : (startCommand c s).tDisp = 0 := rfl
@[simp] theorem startCommand_tCnt (c : Command) (s : State) : (startCommand c s).tCnt = 0 := rfl
@[simp] theorem startCommand_terminated (c : Command) (s : State) : (startCommand c s).terminated = false := rfl
@[simp] theorem startCommand_inLen (c : Command) (s : State) : (startCommand c s).inLen = s.inLen := rfl
@[simp] theorem startCommand_outCap (c : Command) (s : State) : (startCommand c s).outCap = s.outCap := rfl
@[simp] theorem startCommand_resultLen (c : Command) (s : State) : (startCommand c s).resultLen = 0 := rfl
@[simp] theorem startCommand_phase (c : Command) (s : State) : (startCommand c s).phase = .busy c := rfl
@[simp] theorem startCommand_refused (c : Command) (s : State) : (startCommand c s).refused = false := rfl
@[simp] theorem startCommand_refFault (c : Command) (s : State) : (startCommand c s).refFault = false := rfl
@[simp] theorem startCommand_err (c : Command) (s : State) : (startCommand c s).err = ErrFlags.none := rfl
@[simp] theorem startCommand_allocDenied (c : Command) (s : State) : (startCommand c s).allocDenied = s.allocDenied := rfl
@[simp] theorem startCommand_host (c : Command) (s : State) : (startCommand c s).host = s.host := rfl

/-! ## complete -/

@[simp] theorem complete_inMem (s : State) : (complete s).inMem = s.inMem := rfl
@[simp] theorem complete_outMem (s : State) : (complete s).outMem = s.outMem := rfl
@[simp] theorem complete_ic (s : State) : (complete s).ic = s.ic := rfl
@[simp] theorem complete_oc (s : State) : (complete s).oc = s.oc := rfl
@[simp] theorem complete_dfAcc (s : State) : (complete s).dfAcc = s.dfAcc := rfl
@[simp] theorem complete_dfCnt (s : State) : (complete s).dfCnt = s.dfCnt := rfl
@[simp] theorem complete_dfPos (s : State) : (complete s).dfPos = s.dfPos := rfl
@[simp] theorem complete_pend (s : State) : (complete s).pend = s.pend := rfl
@[simp] theorem complete_mDisp (s : State) : (complete s).mDisp = s.mDisp := rfl
@[simp] theorem complete_mLen (s : State) : (complete s).mLen = s.mLen := rfl
@[simp] theorem complete_flag (s : State) : (complete s).flag = s.flag := rfl
@[simp] theorem complete_tDisp (s : State) : (complete s).tDisp = s.tDisp := rfl
@[simp] theorem complete_tCnt (s : State) : (complete s).tCnt = s.tCnt := rfl
@[simp] theorem complete_terminated (s : State) : (complete s).terminated = s.terminated := rfl
@[simp] theorem complete_inLen (s : State) : (complete s).inLen = s.inLen := rfl
@[simp] theorem complete_outCap (s : State) : (complete s).outCap = s.outCap := rfl
@[simp] theorem complete_resultLen (s : State) : (complete s).resultLen = s.resultLen := rfl
@[simp] theorem complete_phase (s : State) : (complete s).phase = .done := rfl
@[simp] theorem complete_refused (s : State) : (complete s).refused = s.refused := rfl
@[simp] theorem complete_refFault (s : State) : (complete s).refFault = s.refFault := rfl
@[simp] theorem complete_err (s : State) : (complete s).err = s.err := rfl
@[simp] theorem complete_allocDenied (s : State) : (complete s).allocDenied = s.allocDenied := rfl
@[simp] theorem complete_host (s : State) : (complete s).host = s.host := rfl

/-! ## accountResult -/

@[simp] theorem accountResult_inMem (s : State) : (accountResult s).inMem = s.inMem := rfl
@[simp] theorem accountResult_outMem (s : State) : (accountResult s).outMem = s.outMem := rfl
@[simp] theorem accountResult_ic (s : State) : (accountResult s).ic = s.ic := rfl
@[simp] theorem accountResult_oc (s : State) : (accountResult s).oc = s.oc := rfl
@[simp] theorem accountResult_dfAcc (s : State) : (accountResult s).dfAcc = s.dfAcc := rfl
@[simp] theorem accountResult_dfCnt (s : State) : (accountResult s).dfCnt = s.dfCnt := rfl
@[simp] theorem accountResult_dfPos (s : State) : (accountResult s).dfPos = s.dfPos := rfl
@[simp] theorem accountResult_pend (s : State) : (accountResult s).pend = s.pend := rfl
@[simp] theorem accountResult_mDisp (s : State) : (accountResult s).mDisp = s.mDisp := rfl
@[simp] theorem accountResult_mLen (s : State) : (accountResult s).mLen = s.mLen := rfl
@[simp] theorem accountResult_flag (s : State) : (accountResult s).flag = s.flag := rfl
@[simp] theorem accountResult_tDisp (s : State) : (accountResult s).tDisp = s.tDisp := rfl
@[simp] theorem accountResult_tCnt (s : State) : (accountResult s).tCnt = s.tCnt := rfl
@[simp] theorem accountResult_terminated (s : State) : (accountResult s).terminated = s.terminated := rfl
@[simp] theorem accountResult_inLen (s : State) : (accountResult s).inLen = s.inLen := rfl
@[simp] theorem accountResult_outCap (s : State) : (accountResult s).outCap = s.outCap := rfl
@[simp] theorem accountResult_resultLen (s : State) : (accountResult s).resultLen = min s.oc s.outCap := rfl
@[simp] theorem accountResult_phase (s : State) : (accountResult s).phase = s.phase := rfl
@[simp] theorem accountResult_refused (s : State) : (accountResult s).refused = s.refused := rfl
@[simp] theorem accountResult_refFault (s : State) : (accountResult s).refFault = s.refFault := rfl
@[simp] theorem accountResult_err (s : State) : (accountResult s).err = s.err := rfl
@[simp] theorem accountResult_allocDenied (s : State) : (accountResult s).allocDenied = s.allocDenied := rfl
@[simp] theorem accountResult_host (s : State) : (accountResult s).host = s.host := rfl

/-! ## find -/

@[simp] theorem find_inMem (s : State) : (find s).inMem = s.inMem := rfl
@[simp] theorem find_outMem (s : State) : (find s).outMem = s.outMem := rfl
@[simp] theorem find_ic (s : State) : (find s).ic = s.ic := rfl
@[simp] theorem find_oc (s : State) : (find s).oc = s.oc := rfl
@[simp] theorem find_dfAcc (s : State) : (find s).dfAcc = s.dfAcc := rfl
@[simp] theorem find_dfCnt (s : State) : (find s).dfCnt = s.dfCnt := rfl
@[simp] theorem find_dfPos (s : State) : (find s).dfPos = s.dfPos := rfl
@[simp] theorem find_pend (s : State) : (find s).pend = s.pend := rfl
@[simp] theorem find_mDisp (s : State) : (find s).mDisp = (bestMatch s).1 := rfl
@[simp] theorem find_mLen (s : State) : (find s).mLen = (bestMatch s).2 := rfl
@[simp] theorem find_flag (s : State) : (find s).flag = s.flag := rfl
@[simp] theorem find_tDisp (s : State) : (find s).tDisp = s.tDisp := rfl
@[simp] theorem find_tCnt (s : State) : (find s).tCnt = s.tCnt := rfl
@[simp] theorem find_terminated (s : State) : (find s).terminated = s.terminated := rfl
@[simp] theorem find_inLen (s : State) : (find s).inLen = s.inLen := rfl
@[simp] theorem find_outCap (s : State) : (find s).outCap = s.outCap := rfl
@[simp] theorem find_resultLen (s : State) : (find s).resultLen = s.resultLen := rfl
@[simp] theorem find_phase (s : State) : (find s).phase = s.phase := rfl
@[simp] theorem find_refused (s : State) : (find s).refused = s.refused := rfl
@[simp] theorem find_refFault (s : State) : (find s).refFault = s.refFault := rfl
@[simp] theorem find_err (s : State) : (find s).err = s.err := rfl
@[simp] theorem find_allocDenied (s : State) : (find s).allocDenied = s.allocDenied := rfl
@[simp] theorem find_host (s : State) : (find s).host = s.host := rfl

/-! ## literalDecision -/

@[simp] theorem literalDecision_inMem (s : State) : (literalDecision s).inMem = s.inMem := rfl
@[simp] theorem literalDecision_outMem (s : State) : (literalDecision s).outMem = s.outMem := rfl
@[simp] theorem literalDecision_ic (s : State) : (literalDecision s).ic = s.ic + 1 := rfl
@[simp] theorem literalDecision_oc (s : State) : (literalDecision s).oc = s.oc := rfl
@[simp] theorem literalDecision_dfAcc (s : State) : (literalDecision s).dfAcc = s.dfAcc := rfl
@[simp] theorem literalDecision_dfCnt (s : State) : (literalDecision s).dfCnt = s.dfCnt := rfl
@[simp] theorem literalDecision_dfPos (s : State) : (literalDecision s).dfPos = s.dfPos := rfl
@[simp] theorem literalDecision_pend (s : State) : (literalDecision s).pend = s.pend + 1 := rfl
@[simp] theorem literalDecision_mDisp (s : State) : (literalDecision s).mDisp = s.mDisp := rfl
@[simp] theorem literalDecision_mLen (s : State) : (literalDecision s).mLen = s.mLen := rfl
@[simp] theorem literalDecision_flag (s : State) : (literalDecision s).flag = s.flag := rfl
@[simp] theorem literalDecision_tDisp (s : State) : (literalDecision s).tDisp = s.tDisp := rfl
@[simp] theorem literalDecision_tCnt (s : State) : (literalDecision s).tCnt = s.tCnt := rfl
@[simp] theorem literalDecision_terminated (s : State) : (literalDecision s).terminated = s.terminated := rfl
@[simp] theorem literalDecision_inLen (s : State) : (literalDecision s).inLen = s.inLen := rfl
@[simp] theorem literalDecision_outCap (s : State) : (literalDecision s).outCap = s.outCap := rfl
@[simp] theorem literalDecision_resultLen (s : State) : (literalDecision s).resultLen = s.resultLen := rfl
@[simp] theorem literalDecision_phase (s : State) : (literalDecision s).phase = s.phase := rfl
@[simp] theorem literalDecision_refused (s : State) : (literalDecision s).refused = s.refused := rfl
@[simp] theorem literalDecision_refFault (s : State) : (literalDecision s).refFault = s.refFault := rfl
@[simp] theorem literalDecision_err (s : State) : (literalDecision s).err = s.err := rfl
@[simp] theorem literalDecision_allocDenied (s : State) : (literalDecision s).allocDenied = s.allocDenied := rfl
@[simp] theorem literalDecision_host (s : State) : (literalDecision s).host = s.host := rfl

/-! ## advanceInput -/

@[simp] theorem advanceInput_inMem (n : Nat) (s : State) : (advanceInput n s).inMem = s.inMem := rfl
@[simp] theorem advanceInput_outMem (n : Nat) (s : State) : (advanceInput n s).outMem = s.outMem := rfl
@[simp] theorem advanceInput_ic (n : Nat) (s : State) : (advanceInput n s).ic = s.ic + n := rfl
@[simp] theorem advanceInput_oc (n : Nat) (s : State) : (advanceInput n s).oc = s.oc := rfl
@[simp] theorem advanceInput_dfAcc (n : Nat) (s : State) : (advanceInput n s).dfAcc = s.dfAcc := rfl
@[simp] theorem advanceInput_dfCnt (n : Nat) (s : State) : (advanceInput n s).dfCnt = s.dfCnt := rfl
@[simp] theorem advanceInput_dfPos (n : Nat) (s : State) : (advanceInput n s).dfPos = s.dfPos := rfl
@[simp] theorem advanceInput_pend (n : Nat) (s : State) : (advanceInput n s).pend = s.pend := rfl
@[simp] theorem advanceInput_mDisp (n : Nat) (s : State) : (advanceInput n s).mDisp = s.mDisp := rfl
@[simp] theorem advanceInput_mLen (n : Nat) (s : State) : (advanceInput n s).mLen = s.mLen := rfl
@[simp] theorem advanceInput_flag (n : Nat) (s : State) : (advanceInput n s).flag = s.flag := rfl
@[simp] theorem advanceInput_tDisp (n : Nat) (s : State) : (advanceInput n s).tDisp = s.tDisp := rfl
@[simp] theorem advanceInput_tCnt (n : Nat) (s : State) : (advanceInput n s).tCnt = s.tCnt := rfl
@[simp] theorem advanceInput_terminated (n : Nat) (s : State) : (advanceInput n s).terminated = s.terminated := rfl
@[simp] theorem advanceInput_inLen (n : Nat) (s : State) : (advanceInput n s).inLen = s.inLen := rfl
@[simp] theorem advanceInput_outCap (n : Nat) (s : State) : (advanceInput n s).outCap = s.outCap := rfl
@[simp] theorem advanceInput_resultLen (n : Nat) (s : State) : (advanceInput n s).resultLen = s.resultLen := rfl
@[simp] theorem advanceInput_phase (n : Nat) (s : State) : (advanceInput n s).phase = s.phase := rfl
@[simp] theorem advanceInput_refused (n : Nat) (s : State) : (advanceInput n s).refused = s.refused := rfl
@[simp] theorem advanceInput_refFault (n : Nat) (s : State) : (advanceInput n s).refFault = s.refFault := rfl
@[simp] theorem advanceInput_err (n : Nat) (s : State) : (advanceInput n s).err = s.err := rfl
@[simp] theorem advanceInput_allocDenied (n : Nat) (s : State) : (advanceInput n s).allocDenied = s.allocDenied := rfl
@[simp] theorem advanceInput_host (n : Nat) (s : State) : (advanceInput n s).host = s.host := rfl

/-! ## grantBuffer -/

@[simp] theorem grantBuffer_inMem (n : BitVec 16) (s : State) : (grantBuffer n s).inMem = s.inMem := rfl
@[simp] theorem grantBuffer_outMem (n : BitVec 16) (s : State) : (grantBuffer n s).outMem = s.outMem := rfl
@[simp] theorem grantBuffer_ic (n : BitVec 16) (s : State) : (grantBuffer n s).ic = s.ic := rfl
@[simp] theorem grantBuffer_oc (n : BitVec 16) (s : State) : (grantBuffer n s).oc = s.oc := rfl
@[simp] theorem grantBuffer_dfAcc (n : BitVec 16) (s : State) : (grantBuffer n s).dfAcc = s.dfAcc := rfl
@[simp] theorem grantBuffer_dfCnt (n : BitVec 16) (s : State) : (grantBuffer n s).dfCnt = s.dfCnt := rfl
@[simp] theorem grantBuffer_dfPos (n : BitVec 16) (s : State) : (grantBuffer n s).dfPos = s.dfPos := rfl
@[simp] theorem grantBuffer_pend (n : BitVec 16) (s : State) : (grantBuffer n s).pend = s.pend := rfl
@[simp] theorem grantBuffer_mDisp (n : BitVec 16) (s : State) : (grantBuffer n s).mDisp = s.mDisp := rfl
@[simp] theorem grantBuffer_mLen (n : BitVec 16) (s : State) : (grantBuffer n s).mLen = s.mLen := rfl
@[simp] theorem grantBuffer_flag (n : BitVec 16) (s : State) : (grantBuffer n s).flag = s.flag := rfl
@[simp] theorem grantBuffer_tDisp (n : BitVec 16) (s : State) : (grantBuffer n s).tDisp = s.tDisp := rfl
@[simp] theorem grantBuffer_tCnt (n : BitVec 16) (s : State) : (grantBuffer n s).tCnt = s.tCnt := rfl
@[simp] theorem grantBuffer_terminated (n : BitVec 16) (s : State) : (grantBuffer n s).terminated = false := rfl
@[simp] theorem grantBuffer_inLen (n : BitVec 16) (s : State) : (grantBuffer n s).inLen = s.inLen := rfl
@[simp] theorem grantBuffer_outCap (n : BitVec 16) (s : State) : (grantBuffer n s).outCap = n.toNat := rfl
@[simp] theorem grantBuffer_resultLen (n : BitVec 16) (s : State) : (grantBuffer n s).resultLen = s.resultLen := rfl
@[simp] theorem grantBuffer_phase (n : BitVec 16) (s : State) : (grantBuffer n s).phase = s.phase := rfl
@[simp] theorem grantBuffer_refused (n : BitVec 16) (s : State) : (grantBuffer n s).refused = s.refused := rfl
@[simp] theorem grantBuffer_refFault (n : BitVec 16) (s : State) : (grantBuffer n s).refFault = s.refFault := rfl
@[simp] theorem grantBuffer_err (n : BitVec 16) (s : State) : (grantBuffer n s).err = s.err := rfl
@[simp] theorem grantBuffer_allocDenied (n : BitVec 16) (s : State) : (grantBuffer n s).allocDenied = s.allocDenied := rfl
@[simp] theorem grantBuffer_host (n : BitVec 16) (s : State) : (grantBuffer n s).host = s.host := rfl

end Sys2Proof.Machine
end

