-- ==== Sys2Proof/Laws/Finder.lean ====
section
/-! SUPPORT. What the match finder answers (41_match_finder.md R101 to R106) and what the selector makes of it. -/

namespace Sys2Proof.Machine

/-- The inner loop computes the longest common prefix (R101). -/
theorem commonPrefix_spec (rd : Nat → Byte) (m p cap : Nat) :
    IsCommonPrefix rd m p cap (commonPrefix rd m p cap) := by
  induction cap generalizing m p with
  | zero => exact ⟨Nat.le_refl 0, fun j h => absurd h (Nat.not_lt_zero j), fun h => absurd h (Nat.not_lt_zero 0)⟩
  | succ cap ih =>
    rw [commonPrefix]
    split
    · next heq =>
      obtain ⟨h1, h2, h3⟩ := ih (m + 1) (p + 1)
      refine ⟨by omega, ?_, ?_⟩
      · intro j hj
        cases j with
        | zero => exact heq
        | succ j =>
          have := h2 j (by omega)
          rwa [show m + 1 + j = m + (j + 1) by omega, show p + 1 + j = p + (j + 1) by omega] at this
      · intro h
        have := h3 (by omega)
        rwa [show m + 1 + commonPrefix rd (m + 1) (p + 1) cap = m + (commonPrefix rd (m + 1) (p + 1) cap + 1) by omega,
          show p + 1 + commonPrefix rd (m + 1) (p + 1) cap = p + (commonPrefix rd (m + 1) (p + 1) cap + 1) by omega] at this
    · next hne => exact ⟨by omega, fun j hj => by omega, fun _ => hne⟩

/-- There is one longest common prefix. -/
theorem IsCommonPrefix.unique {rd : Nat → Byte} {m p cap k l : Nat}
    (hk : IsCommonPrefix rd m p cap k) (hl : IsCommonPrefix rd m p cap l) : k = l := by
  obtain ⟨hk1, hk2, hk3⟩ := hk
  obtain ⟨hl1, hl2, hl3⟩ := hl
  rcases Nat.lt_trichotomy k l with h | h | h
  · exact absurd (hl2 k h) (hk3 (by omega))
  · exact h
  · exact absurd (hk2 l h) (hl3 (by omega))

/-- The outer loop keeps the best pair unless a candidate is strictly longer, and then answers the first of the longest
(R101, R102). -/
theorem scanWindow_spec (rd : Nat → Byte) (p cap n d : Nat) (best : Nat × Nat) :
    (scanWindow rd p cap n d best = best ∧
      ∀ e, d ≤ e → e < d + n → commonPrefix rd (p - e) p cap ≤ best.2) ∨
    (∃ e, d ≤ e ∧ e < d + n ∧ scanWindow rd p cap n d best = (e, commonPrefix rd (p - e) p cap) ∧
      best.2 < commonPrefix rd (p - e) p cap ∧
      ∀ f, d ≤ f → f < d + n → commonPrefix rd (p - f) p cap ≤ commonPrefix rd (p - e) p cap ∧
        (f < e → commonPrefix rd (p - f) p cap < commonPrefix rd (p - e) p cap)) := by
  induction n generalizing d best with
  | zero => exact Or.inl ⟨rfl, fun e h1 h2 => by omega⟩
  | succ n ih =>
    simp only [scanWindow]
    by_cases hb : best.2 < commonPrefix rd (p - d) p cap
    · rw [if_pos hb]
      rcases ih (d + 1) (d, commonPrefix rd (p - d) p cap) with ⟨h1, h2⟩ | ⟨e, h1, h2, h3, h4, h5⟩
      · refine Or.inr ⟨d, by omega, by omega, h1, hb, ?_⟩
        intro f hf1 hf2
        rcases Nat.eq_or_lt_of_le hf1 with rfl | hlt
        · exact ⟨Nat.le_refl _, fun h => absurd h (Nat.lt_irrefl _)⟩
        · exact ⟨h2 f (by omega) (by omega), fun h => by omega⟩
      · refine Or.inr ⟨e, by omega, by omega, h3, Nat.lt_trans hb h4, ?_⟩
        intro f hf1 hf2
        rcases Nat.eq_or_lt_of_le hf1 with rfl | hlt
        · exact ⟨Nat.le_of_lt h4, fun _ => h4⟩
        · exact h5 f (by omega) (by omega)
    · rw [if_neg hb]
      rcases ih (d + 1) best with ⟨h1, h2⟩ | ⟨e, h1, h2, h3, h4, h5⟩
      · refine Or.inl ⟨h1, ?_⟩
        intro e he1 he2
        rcases Nat.eq_or_lt_of_le he1 with rfl | hlt
        · omega
        · exact h2 e (by omega) (by omega)
      · refine Or.inr ⟨e, by omega, by omega, h3, h4, ?_⟩
        intro f hf1 hf2
        rcases Nat.eq_or_lt_of_le hf1 with rfl | hlt
        · exact ⟨by omega, fun _ => by omega⟩
        · exact h5 f (by omega) (by omega)

/-- What `find` answers: nothing, and then no candidate shares a byte, or the nearest longest match. -/
theorem bestMatch_spec (s : State) :
    (bestMatch s = (0, 0) ∧
      ∀ e, 1 ≤ e → e ≤ windowSize s.ic → commonPrefix s.readIn (s.ic - e) s.ic (matchLimit s) = 0) ∨
    (∃ d, 1 ≤ d ∧ d ≤ windowSize s.ic ∧
      bestMatch s = (d, commonPrefix s.readIn (s.ic - d) s.ic (matchLimit s)) ∧
      0 < commonPrefix s.readIn (s.ic - d) s.ic (matchLimit s) ∧
      ∀ f, 1 ≤ f → f ≤ windowSize s.ic →
        commonPrefix s.readIn (s.ic - f) s.ic (matchLimit s) ≤ commonPrefix s.readIn (s.ic - d) s.ic (matchLimit s) ∧
        (f < d → commonPrefix s.readIn (s.ic - f) s.ic (matchLimit s) <
          commonPrefix s.readIn (s.ic - d) s.ic (matchLimit s))) := by
  rcases scanWindow_spec s.readIn s.ic (matchLimit s) (windowSize s.ic) 1 (0, 0) with
    ⟨h1, h2⟩ | ⟨d, h1, h2, h3, h4, h5⟩
  · exact Or.inl ⟨h1, fun e he1 he2 => Nat.le_zero.1 (h2 e he1 (by omega))⟩
  · exact Or.inr ⟨d, h1, by omega, h3, h4, fun f hf1 hf2 => h5 f hf1 (by omega)⟩

theorem matchLimit_eq (s : State) : matchLimit s = min 34 (s.inLen - s.ic) := rfl
theorem windowSize_eq (p : Nat) : windowSize p = min p 1023 := rfl

/-- The range of the finder's result (R104), and that the two runs agree over the reported length. -/
theorem bestMatch_range (s : State) :
    (bestMatch s).1 ≤ 1023 ∧ (bestMatch s).1 ≤ s.ic ∧ (bestMatch s).2 ≤ 34 ∧ (bestMatch s).2 ≤ s.inLen - s.ic ∧
    (0 < (bestMatch s).2 → 1 ≤ (bestMatch s).1) ∧
    ∀ j, j < (bestMatch s).2 → s.readIn (s.ic - (bestMatch s).1 + j) = s.readIn (s.ic + j) := by
  rcases bestMatch_spec s with ⟨h, _⟩ | ⟨d, h1, h2, h3, _, _⟩
  · rw [h]; exact ⟨by omega, by omega, by omega, by omega, by omega, fun j hj => by omega⟩
  · obtain ⟨hc1, hc2, _⟩ := commonPrefix_spec s.readIn (s.ic - d) s.ic (matchLimit s)
    rw [matchLimit_eq] at hc1
    rw [windowSize_eq] at h2
    rw [h3]
    rw [matchLimit_eq] at hc2 ⊢
    exact ⟨by omega, by omega, by omega, by omega, fun _ => h1, hc2⟩

/-! ## The selector -/

theorem clamp_eq (d len : Nat) : clamp d len = if d < 256 ∧ len = 34 then 33 else len := rfl

theorem select_eq (d len : Nat) : select d len =
    if 2 ≤ len ∧ 1 ≤ d ∧ d ≤ 15 then
      (if len ≤ 5 then .near d len else .far d (clamp d len))
    else if 3 ≤ len then .far d (clamp d len) else .lit := rfl

/-- What the selector chooses on a finder result: a literal, or a spellable match that is a prefix of the finder's
(42_mode_selector.md R111, R112, R118 (a)). -/
theorem select_cases (s : State) :
    select (bestMatch s).1 (bestMatch s).2 = .lit ∨
    (∃ d len, select (bestMatch s).1 (bestMatch s).2 = .near d len ∧ nearSpellable d len = true ∧
      1 ≤ d ∧ d ≤ s.ic ∧ s.ic + len ≤ s.inLen ∧ 2 ≤ len ∧ d = (bestMatch s).1 ∧ len ≤ (bestMatch s).2) ∨
    (∃ d len, select (bestMatch s).1 (bestMatch s).2 = .far d len ∧ farSpellable d len = true ∧
      1 ≤ d ∧ d ≤ s.ic ∧ s.ic + len ≤ s.inLen ∧ 3 ≤ len ∧ d = (bestMatch s).1 ∧ len ≤ (bestMatch s).2) := by
  obtain ⟨h1, h2, h3, h4, h5, _⟩ := bestMatch_range s
  generalize (bestMatch s).1 = d at *
  generalize (bestMatch s).2 = len at *
  rw [select_eq]
  split
  · split
    · exact Or.inr (Or.inl ⟨d, len, rfl, (nearSpellable_iff _ _).2 (by omega), by omega, by omega, by omega,
        by omega, rfl, by omega⟩)
    · refine Or.inr (Or.inr ⟨d, clamp d len, rfl, (farSpellable_iff _ _).2 ?_, by omega, by omega, ?_, ?_, rfl, ?_⟩)
      all_goals rw [clamp_eq]; split <;> omega
  · split
    · refine Or.inr (Or.inr ⟨d, clamp d len, rfl, (farSpellable_iff _ _).2 ?_, by omega, by omega, ?_, ?_, rfl, ?_⟩)
      all_goals rw [clamp_eq]; split <;> omega
    · exact Or.inl rfl

end Sys2Proof.Machine
end

