-- ==== Sys2Proof/Laws/Memory.lean ====
section
/-! SUPPORT. The laws of one memory: read after write, the canonical form and its uniqueness. -/

namespace Sys2Proof.Machine

/-- A memory all of whose addresses are at least `lo`. -/
def Memory.from (lo : Nat) (m : Memory) : Prop := ∀ c ∈ m, lo ≤ c.1

theorem Memory.lookup_write_same (m : Memory) (a : Nat) (v : Byte) :
    Memory.lookup (Memory.write m a v) a = some v := by
  induction m with
  | nil => simp [Memory.write, Memory.lookup]
  | cons c m ih =>
    obtain ⟨b, w⟩ := c
    simp only [Memory.write]
    split
    · simp [Memory.lookup]
    · split
      · simp [Memory.lookup]
      · simp [Memory.lookup, *]

theorem Memory.lookup_write_other (m : Memory) {a b : Nat} (v : Byte) (h : b ≠ a) :
    Memory.lookup (Memory.write m a v) b = Memory.lookup m b := by
  induction m with
  | nil => simp [Memory.write, Memory.lookup, h]
  | cons c m ih =>
    obtain ⟨e, w⟩ := c
    simp only [Memory.write]
    split
    · simp [Memory.lookup, h]
    · split
      · next h2 => subst h2; simp [Memory.lookup, h]
      · simp only [Memory.lookup, ih]

/-- Read after write, at any address. -/
theorem Memory.lookup_write (m : Memory) (a b : Nat) (v : Byte) :
    Memory.lookup (Memory.write m a v) b = if b = a then some v else Memory.lookup m b := by
  split
  · next h => subst h; exact Memory.lookup_write_same m b v
  · next h => exact Memory.lookup_write_other m v h

theorem Memory.wf_cons_iff (a : Nat) (v : Byte) (m : Memory) :
    Memory.wf ((a, v) :: m) = true ↔ Memory.from (a + 1) m ∧ Memory.wf m = true := by
  induction m generalizing a v with
  | nil => simp [Memory.wf, Memory.from]
  | cons c m ih =>
    obtain ⟨b, w⟩ := c
    simp only [Memory.wf, Bool.and_eq_true, decide_eq_true_eq, ih, Memory.from, List.mem_cons]
    constructor
    · rintro ⟨hab, hm, hw⟩
      refine ⟨?_, hm, hw⟩
      rintro c (rfl | hc)
      · exact hab
      · have := hm c hc; omega
    · rintro ⟨hm, h2, hw⟩
      exact ⟨hm (b, w) (Or.inl rfl), h2, hw⟩

theorem Memory.from_write {lo a : Nat} {m : Memory} (v : Byte) (hm : Memory.from lo m) (ha : lo ≤ a) :
    Memory.from lo (Memory.write m a v) := by
  induction m with
  | nil => intro c hc; simp [Memory.write] at hc; simp [hc, ha]
  | cons c m ih =>
    obtain ⟨b, w⟩ := c
    have hb : lo ≤ b := hm (b, w) (by simp)
    have ht : Memory.from lo m := fun c hc => hm c (by simp [hc])
    simp only [Memory.write]
    split
    · intro c hc
      simp only [List.mem_cons] at hc
      rcases hc with rfl | rfl | hc
      · exact ha
      · exact hb
      · exact ht c hc
    · split
      · intro c hc
        simp only [List.mem_cons] at hc
        rcases hc with rfl | hc
        · exact ha
        · exact ht c hc
      · intro c hc
        simp only [List.mem_cons] at hc
        rcases hc with rfl | hc
        · exact hb
        · exact ih ht c hc

/-- A write keeps the canonical form. -/
theorem Memory.wf_write {m : Memory} (a : Nat) (v : Byte) (hm : Memory.wf m = true) :
    Memory.wf (Memory.write m a v) = true := by
  induction m with
  | nil => rfl
  | cons c m ih =>
    obtain ⟨b, w⟩ := c
    have h := (Memory.wf_cons_iff b w m).1 hm
    simp only [Memory.write]
    split
    · next hab =>
      refine (Memory.wf_cons_iff a v _).2 ⟨?_, hm⟩
      intro c hc
      simp only [List.mem_cons] at hc
      rcases hc with rfl | hc
      · exact hab
      · have := h.1 c hc; omega
    · split
      · next hab => subst hab; exact (Memory.wf_cons_iff a v m).2 h
      · next h1 h2 =>
        exact (Memory.wf_cons_iff b w _).2 ⟨Memory.from_write v h.1 (by omega), ih h.2⟩

/-- A write inside a bound keeps every address inside it. -/
theorem Memory.below_write {bound a : Nat} {m : Memory} (v : Byte)
    (hm : Memory.below bound m = true) (ha : a < bound) :
    Memory.below bound (Memory.write m a v) = true := by
  simp only [Memory.below, List.all_eq_true, decide_eq_true_eq] at hm ⊢
  induction m with
  | nil => simp [Memory.write, ha]
  | cons c m ih =>
    obtain ⟨b, w⟩ := c
    have ht : ∀ c ∈ m, c.1 < bound := fun c hc => hm c (by simp [hc])
    have hb : b < bound := hm (b, w) (by simp)
    intro c hc
    simp only [Memory.write] at hc
    split at hc
    · simp only [List.mem_cons] at hc
      rcases hc with rfl | rfl | hc
      · exact ha
      · exact hb
      · exact ht c hc
    · split at hc
      · simp only [List.mem_cons] at hc
        rcases hc with rfl | hc
        · exact ha
        · exact ht c hc
      · simp only [List.mem_cons] at hc
        rcases hc with rfl | hc
        · exact hb
        · exact ih ht c hc

theorem Memory.lookup_none_of_from {lo a : Nat} {m : Memory} (hm : Memory.from lo m) (ha : a < lo) :
    Memory.lookup m a = none := by
  induction m with
  | nil => rfl
  | cons c m ih =>
    obtain ⟨b, w⟩ := c
    have hb : lo ≤ b := hm (b, w) (by simp)
    simp only [Memory.lookup, show ¬ a = b by omega, if_false]
    exact ih fun c hc => hm c (by simp [hc])

/-- Equal contents are equal data: a canonical memory is determined by what each address holds. -/
theorem Memory.ext_of_wf {m n : Memory} (hm : Memory.wf m = true) (hn : Memory.wf n = true)
    (h : ∀ a, Memory.lookup m a = Memory.lookup n a) : m = n := by
  induction m generalizing n with
  | nil =>
    cases n with
    | nil => rfl
    | cons c n => obtain ⟨b, w⟩ := c; simpa [Memory.lookup] using h b
  | cons c m ih =>
    obtain ⟨a, v⟩ := c
    have hm' := (Memory.wf_cons_iff a v m).1 hm
    cases n with
    | nil => simpa [Memory.lookup] using h a
    | cons c n =>
      obtain ⟨b, w⟩ := c
      have hn' := (Memory.wf_cons_iff b w n).1 hn
      have hab : a = b := by
        rcases Nat.lt_trichotomy a b with hlt | heq | hgt
        · have h1 := h a
          simp only [Memory.lookup, if_true, show ¬ a = b by omega, if_false,
            Memory.lookup_none_of_from hn'.1 (show a < b + 1 by omega)] at h1
          cases h1
        · exact heq
        · have h1 := h b
          simp only [Memory.lookup, if_true, show ¬ b = a by omega, if_false,
            Memory.lookup_none_of_from hm'.1 (show b < a + 1 by omega)] at h1
          cases h1
      subst hab
      have hv : v = w := by simpa [Memory.lookup] using h a
      subst hv
      rw [ih hm'.2 hn'.2]
      intro c
      have h1 := h c
      simp only [Memory.lookup] at h1
      split at h1
      · next hc =>
        subst hc
        rw [Memory.lookup_none_of_from hm'.1 (Nat.lt_succ_self _),
          Memory.lookup_none_of_from hn'.1 (Nat.lt_succ_self _)]
      · exact h1

end Sys2Proof.Machine
end

