-- ==== Sys2Proof/Laws/Ops.lean ====
section
/-! SUPPORT. What each shared operation can do, said once: reading OUT after a store, the bitstream codec, the guarded
accesses. Callers cite these and do not unfold the operations. -/

namespace Sys2Proof.Machine

/-! ## Reading one byte after an operation -/

/-- A read of OUT depends on OUT alone. -/
theorem readOut_congr {s t : State} (h : t.outMem = s.outMem) (a : Nat) : t.readOut a = s.readOut a := by
  simp [State.readOut, h]

/-- A read of IN depends on IN alone. -/
theorem readIn_congr {s t : State} (h : t.inMem = s.inMem) (a : Nat) : t.readIn a = s.readIn a := by
  simp [State.readIn, h]

/-- A guarded fetch depends on IN and `IN_LEN` alone. -/
theorem inByte_congr {s t : State} (h : t.inMem = s.inMem) (hl : t.inLen = s.inLen) (a : Nat) :
    t.inByte a = s.inByte a := by
  simp [State.inByte, State.readIn, h, hl]

theorem readOut_writeOut (a b : Nat) (v : Byte) (s : State) :
    (writeOut a v s).readOut b = if b = a then v else s.readOut b := by
  simp only [State.readOut, writeOut_outMem, Memory.lookup_write]
  split <;> rfl

/-- OUT after a guarded store. -/
theorem readOut_outStore (v : Byte) (s : State) (b : Nat) :
    (outStore v s).readOut b = if b = s.oc ∧ s.oc < s.outCap then v else s.readOut b := by
  simp only [State.readOut, outStore_outMem]
  by_cases h : s.oc < s.outCap
  · simp only [h, if_true, and_true, Memory.lookup_write]
    split <;> rfl
  · simp [h]

/-- OUT after a guarded patch. -/
theorem readOut_outPatch (a b : Nat) (v : Byte) (s : State) :
    (outPatch a v s).readOut b = if b = a ∧ a < s.outCap then v else s.readOut b := by
  unfold outPatch
  by_cases h : a < s.outCap
  · simp only [h, if_true, and_true, readOut_writeOut]
  · simp [h]

@[simp] theorem inFetch_fst (s : State) : (inFetch s).1 = s.inByte s.ic := rfl

theorem inByte_of_lt {s : State} {a : Nat} (h : a < s.inLen) : s.inByte a = s.readIn a := by
  simp [State.inByte, h]

/-! ## Window reads -/

/-- An invalid window read returns 0x00 and sets `REF_FAULT`; a valid one returns the byte and changes nothing. -/
theorem winRead_eq (i : Int) (s : State) :
    winRead i s = (if s.windowHolds i then s.readOut i.toNat else 0x00#8,
      { s with refFault := s.refFault || !s.windowHolds i }) := by
  unfold winRead
  cases h : s.windowHolds i <;> simp [raise, Config.badRefValue]

/-! ## Sequences of stores and fetches -/

/-- The frame of a sequence of stores: `OC` and OUT change, nothing else. -/
theorem outStores_frame (vs : List Byte) (s : State) :
    outStores vs s = { s with oc := s.oc + vs.length, outMem := (outStores vs s).outMem } := by
  induction vs generalizing s with
  | nil => simp [outStores]
  | cons v vs ih =>
    rw [outStores, ih]
    simp [outStore, Nat.add_assoc, Nat.add_comm 1]

@[simp] theorem outStores_oc (vs : List Byte) (s : State) : (outStores vs s).oc = s.oc + vs.length := by
  rw [outStores_frame]

/-- OUT after a sequence of stores. -/
theorem readOut_outStores (vs : List Byte) (s : State) (a : Nat) :
    (outStores vs s).readOut a =
      if s.oc ≤ a ∧ a < s.oc + vs.length ∧ a < s.outCap then vs.getD (a - s.oc) 0 else s.readOut a := by
  induction vs generalizing s with
  | nil => simp [outStores]; omega
  | cons v vs ih =>
    have hoc : (outStore v s).oc = s.oc + 1 := rfl
    have hcap : (outStore v s).outCap = s.outCap := rfl
    rw [outStores, ih, readOut_outStore, hoc, hcap, List.length_cons]
    split
    · next h1 =>
      rw [if_pos (by omega), show a - s.oc = a - (s.oc + 1) + 1 by omega, List.getD_cons_succ]
    · next h1 =>
      split
      · next h2 => rw [if_pos (by omega), h2.1]; simp
      · next h2 => rw [if_neg (by omega)]

/-- What a sequence of fetches returns and leaves. -/
theorem inFetches_eq (n : Nat) (s : State) :
    inFetches n s = ((List.range n).map fun k => s.inByte (s.ic + k), { s with ic := s.ic + n }) := by
  induction n generalizing s with
  | zero => simp [inFetches]
  | succ n ih =>
    simp only [inFetches, ih, inFetch, List.range_succ_eq_map, List.map_cons, List.map_map]
    simp [State.inByte, State.readIn, Function.comp_def, Nat.add_assoc, Nat.add_comm 1]

/-! ## The bitstream codec -/

@[simp] theorem bitByte_toNat_lt (b : Bool) : (bitByte b).toNat < 2 := by cases b <;> decide

/-- The frame of `pushBit`. -/
theorem pushBit_frame (b : Bool) (s : State) :
    pushBit b s = { s with
      outMem := (pushBit b s).outMem
      oc := if s.dfCnt = 8 then s.oc + 1 else s.oc
      dfPos := if s.dfCnt = 8 then s.oc else s.dfPos
      dfCnt := if s.dfCnt = 8 then 1 else s.dfCnt + 1
      dfAcc := if s.dfCnt = 8 then bitByte b else s.dfAcc ||| (bitByte b <<< s.dfCnt) } := by
  unfold pushBit openGroup outPatch writeOut
  by_cases h : s.dfCnt = 8
  · simp only [h, if_true]
    split <;> simp [outStore]
  · simp only [h, if_false]
    split <;> simp

@[simp] theorem pushBit_oc (b : Bool) (s : State) :
    (pushBit b s).oc = if s.dfCnt = 8 then s.oc + 1 else s.oc := by rw [pushBit_frame]
@[simp] theorem pushBit_dfPos (b : Bool) (s : State) :
    (pushBit b s).dfPos = if s.dfCnt = 8 then s.oc else s.dfPos := by rw [pushBit_frame]
@[simp] theorem pushBit_dfCnt (b : Bool) (s : State) :
    (pushBit b s).dfCnt = if s.dfCnt = 8 then 1 else s.dfCnt + 1 := by rw [pushBit_frame]
@[simp] theorem pushBit_dfAcc (b : Bool) (s : State) :
    (pushBit b s).dfAcc = if s.dfCnt = 8 then bitByte b else s.dfAcc ||| (bitByte b <<< s.dfCnt) := by
  rw [pushBit_frame]
@[simp] theorem pushBit_inMem (b : Bool) (s : State) : (pushBit b s).inMem = s.inMem := by rw [pushBit_frame]
@[simp] theorem pushBit_ic (b : Bool) (s : State) : (pushBit b s).ic = s.ic := by rw [pushBit_frame]
@[simp] theorem pushBit_pend (b : Bool) (s : State) : (pushBit b s).pend = s.pend := by rw [pushBit_frame]
@[simp] theorem pushBit_mDisp (b : Bool) (s : State) : (pushBit b s).mDisp = s.mDisp := by rw [pushBit_frame]
@[simp] theorem pushBit_mLen (b : Bool) (s : State) : (pushBit b s).mLen = s.mLen := by rw [pushBit_frame]
@[simp] theorem pushBit_flag (b : Bool) (s : State) : (pushBit b s).flag = s.flag := by rw [pushBit_frame]
@[simp] theorem pushBit_tDisp (b : Bool) (s : State) : (pushBit b s).tDisp = s.tDisp := by rw [pushBit_frame]
@[simp] theorem pushBit_tCnt (b : Bool) (s : State) : (pushBit b s).tCnt = s.tCnt := by rw [pushBit_frame]
@[simp] theorem pushBit_terminated (b : Bool) (s : State) : (pushBit b s).terminated = s.terminated := by rw [pushBit_frame]
@[simp] theorem pushBit_inLen (b : Bool) (s : State) : (pushBit b s).inLen = s.inLen := by rw [pushBit_frame]
@[simp] theorem pushBit_outCap (b : Bool) (s : State) : (pushBit b s).outCap = s.outCap := by rw [pushBit_frame]
@[simp] theorem pushBit_resultLen (b : Bool) (s : State) : (pushBit b s).resultLen = s.resultLen := by rw [pushBit_frame]
@[simp] theorem pushBit_phase (b : Bool) (s : State) : (pushBit b s).phase = s.phase := by rw [pushBit_frame]
@[simp] theorem pushBit_refused (b : Bool) (s : State) : (pushBit b s).refused = s.refused := by rw [pushBit_frame]
@[simp] theorem pushBit_refFault (b : Bool) (s : State) : (pushBit b s).refFault = s.refFault := by rw [pushBit_frame]
@[simp] theorem pushBit_err (b : Bool) (s : State) : (pushBit b s).err = s.err := by rw [pushBit_frame]
@[simp] theorem pushBit_allocDenied (b : Bool) (s : State) : (pushBit b s).allocDenied = s.allocDenied := by rw [pushBit_frame]
@[simp] theorem pushBit_host (b : Bool) (s : State) : (pushBit b s).host = s.host := by rw [pushBit_frame]

/-- OUT after `pushBit`: the control byte of the open group holds the accumulator, every other byte is as before. -/
theorem readOut_pushBit (b : Bool) (s : State) (a : Nat) :
    (pushBit b s).readOut a =
      if a = (pushBit b s).dfPos ∧ a < s.outCap then (pushBit b s).dfAcc else s.readOut a := by
  rw [pushBit_dfPos, pushBit_dfAcc]
  simp only [pushBit, openGroup]
  rw [readOut_outPatch]
  by_cases h : s.dfCnt = 8
  · simp only [h, if_true, outStore_outCap]
    by_cases h2 : a = s.oc ∧ s.oc < s.outCap
    · rw [if_pos (by simpa using h2), if_pos (by omega)]; simp
    · rw [if_neg (by simpa using h2), if_neg (by omega)]
      show (outStore 0 { s with dfPos := s.oc }).readOut a = _
      rw [readOut_outStore]
      simp only [if_neg h2]
      rfl
  · simp only [h, if_false]
    by_cases h2 : a = s.dfPos ∧ s.dfPos < s.outCap
    · rw [if_pos h2, if_pos (by omega)]
    · rw [if_neg h2, if_neg (by omega)]
      rfl

/-- Every call of `pushBit` adds one to eight times `OC` plus `DF_CNT`: a bit costs an eighth of a byte
(42_mode_selector.md R118 (d)). -/
theorem pushBit_size (b : Bool) (s : State) :
    8 * (pushBit b s).oc + (pushBit b s).dfCnt = 8 * s.oc + s.dfCnt + 1 := by
  simp only [pushBit_oc, pushBit_dfCnt]
  split <;> omega

/-- What `nextBit` returns and leaves. -/
theorem nextBit_eq (s : State) :
    nextBit s = if s.dfCnt = 0 then
        ((s.inByte s.ic).getLsbD 0, { s with ic := s.ic + 1, dfAcc := s.inByte s.ic >>> 1, dfCnt := 7 })
      else (s.dfAcc.getLsbD 0, { s with dfAcc := s.dfAcc >>> 1, dfCnt := s.dfCnt - 1 }) := by
  unfold nextBit refillGroup
  by_cases h : s.dfCnt = 0 <;> simp [h, inFetch]

/-- The frame of `nextBit`. -/
theorem nextBit_frame (s : State) :
    (nextBit s).2 = { s with
      ic := if s.dfCnt = 0 then s.ic + 1 else s.ic
      dfAcc := (nextBit s).2.dfAcc
      dfCnt := if s.dfCnt = 0 then 7 else s.dfCnt - 1 } := by
  rw [nextBit_eq]
  split <;> rfl

end Sys2Proof.Machine
end

