-- ==== Sys2Proof/Laws/Tokens.lean ====
section
/-! SUPPORT. What the token meanings' shared operations do: passing bytes from IN to OUT, the overlapping copy. -/

namespace Sys2Proof.Machine

/-- Passing bytes is moving `IC` past them, counting them off `T_CNT` and storing them. -/
theorem passBytes_eq (raw : List Byte) (s : State) :
    passBytes raw s = outStores raw { s with ic := s.ic + raw.length, tCnt := s.tCnt - raw.length } := by
  induction raw generalizing s with
  | nil => rfl
  | cons v vs ih =>
    have h : countDown (passByte v s) = outStore v { s with ic := s.ic + 1, tCnt := s.tCnt - 1 } := rfl
    rw [passBytes, ih, outStores, h, List.length_cons, show s.ic + (vs.length + 1) = s.ic + 1 + vs.length by omega,
      show s.tCnt - (vs.length + 1) = s.tCnt - 1 - vs.length by omega]
    rfl

/-- Counting changes `T_CNT` alone. -/
@[simp] theorem readOut_countDown (s : State) (a : Nat) : (countDown s).readOut a = s.readOut a := rfl

/-- The frame of one copied byte. -/
theorem copyByte_frame (s : State) :
    copyByte s = { s with
      oc := s.oc + 1
      outMem := (copyByte s).outMem
      tCnt := s.tCnt - 1
      refFault := s.refFault || !s.windowHolds (windowIndex s) } := by
  simp [copyByte, winRead_eq, outStore, countDown]

/-- OUT after one copied byte. -/
theorem readOut_copyByte (s : State) (a : Nat) :
    (copyByte s).readOut a =
      if a = s.oc ∧ s.oc < s.outCap then
        (if s.windowHolds (windowIndex s) then s.readOut (windowIndex s).toNat else 0x00#8)
      else s.readOut a := by
  simp only [copyByte, winRead_eq]
  rw [readOut_countDown, readOut_outStore]
  rfl

@[simp] theorem copyByte_oc (s : State) : (copyByte s).oc = s.oc + 1 := by rw [copyByte_frame]
@[simp] theorem copyByte_outCap (s : State) : (copyByte s).outCap = s.outCap := by rw [copyByte_frame]
@[simp] theorem copyByte_tDisp (s : State) : (copyByte s).tDisp = s.tDisp := by rw [copyByte_frame]

/-- The frame of a copy: `OC`, OUT, `T_CNT` and `REF_FAULT` change, nothing else. -/
theorem copyBytes_frame (n : Nat) (s : State) :
    copyBytes n s = { s with
      oc := s.oc + n
      outMem := (copyBytes n s).outMem
      tCnt := s.tCnt - n
      refFault := (copyBytes n s).refFault } := by
  induction n generalizing s with
  | zero => rfl
  | succ n ih =>
    rw [copyBytes, ih, copyByte_frame]
    simp [Nat.add_assoc, Nat.add_comm 1, Nat.sub_sub]

@[simp] theorem copyBytes_oc (n : Nat) (s : State) : (copyBytes n s).oc = s.oc + n := by rw [copyBytes_frame]
@[simp] theorem copyBytes_outCap (n : Nat) (s : State) : (copyBytes n s).outCap = s.outCap := by rw [copyBytes_frame]

/-- The frame of a whole copy: `T_CNT` is counted off, no byte is left to copy (10_state.md R13). -/
theorem copyMatch_frame (s : State) :
    copyMatch s = { s with
      oc := s.oc + s.tCnt
      outMem := (copyMatch s).outMem
      tCnt := 0
      refFault := (copyMatch s).refFault } := by
  have h := copyBytes_frame s.tCnt s
  rwa [Nat.sub_self] at h

/-- A raw run: its bytes are passed and counted off `T_CNT`. -/
theorem rawRunToken_eq (raw : List Byte) (s : State) :
    rawRunToken raw s = outStores raw { s with ic := s.ic + raw.length, tCnt := 0 } := by
  rw [rawRunToken, passBytes_eq]
  simp only [Nat.sub_self]

/-- A copy stores only below `OUT_CAP`, from `OC` on. -/
theorem readOut_copyBytes_outside (n : Nat) (s : State) (a : Nat)
    (h : a < s.oc ∨ s.oc + n ≤ a ∨ s.outCap ≤ a) : (copyBytes n s).readOut a = s.readOut a := by
  induction n generalizing s with
  | zero => rfl
  | succ n ih =>
    rw [copyBytes, ih _ (by simp only [copyByte_oc, copyByte_outCap]; omega), readOut_copyByte]
    rw [if_neg (by omega)]

/-- A window index is valid, said on naturals: the displacement is not 0, not beyond the start, and the source byte's
store was not suppressed (20_memory.md R47). -/
theorem windowHolds_iff (s : State) :
    s.windowHolds (windowIndex s) = true ↔ 0 < s.tDisp ∧ s.tDisp ≤ s.oc ∧ s.oc - s.tDisp < s.outCap := by
  rw [State.windowHolds, decide_eq_true_iff]
  unfold windowIndex
  omega

/-- Each byte a copy stores is the byte its displacement behind it, which the same copy may have stored, or 0x00 where
there is none (44_decoder_copy_engine.md R147, 20_memory.md R47). -/
theorem readOut_copyBytes (n : Nat) (s : State) (i : Nat) (hi : i < n) (hc : s.oc + i < s.outCap) :
    (copyBytes n s).readOut (s.oc + i) =
      if 0 < s.tDisp ∧ s.tDisp ≤ s.oc + i then (copyBytes n s).readOut (s.oc + i - s.tDisp) else 0x00#8 := by
  induction n generalizing s i with
  | zero => omega
  | succ n ih =>
    rw [copyBytes]
    cases i with
    | zero =>
      rw [readOut_copyBytes_outside n _ _ (by simp), readOut_copyByte, if_pos (by omega)]
      by_cases h : 0 < s.tDisp ∧ s.tDisp ≤ s.oc
      · rw [if_pos ((windowHolds_iff s).2 (by omega)), if_pos (by simpa using h),
          readOut_copyBytes_outside n _ _ (by simp only [copyByte_oc]; omega), readOut_copyByte, if_neg (by omega)]
        congr 1
        simp only [windowIndex]; omega
      · rw [if_neg (by rw [windowHolds_iff]; omega), if_neg (by simpa using h)]
    | succ i =>
      have := ih (copyByte s) i (by omega) (by simp only [copyByte_oc, copyByte_outCap]; omega)
      simp only [copyByte_oc, copyByte_tDisp] at this
      rw [show s.oc + (i + 1) = s.oc + 1 + i by omega]
      exact this

/-- A copy raises `REF_FAULT` exactly when one of its reads is invalid. -/
theorem refFault_copyBytes (n : Nat) (s : State) :
    (copyBytes n s).refFault = true ↔ s.refFault = true ∨
      ∃ i, i < n ∧ ¬ (0 < s.tDisp ∧ s.tDisp ≤ s.oc + i ∧ s.oc + i - s.tDisp < s.outCap) := by
  induction n generalizing s with
  | zero => simp [copyBytes]
  | succ n ih =>
    rw [copyBytes, ih]
    have h0 : (copyByte s).refFault = true ↔
        s.refFault = true ∨ ¬ (0 < s.tDisp ∧ s.tDisp ≤ s.oc ∧ s.oc - s.tDisp < s.outCap) := by
      rw [copyByte_frame, ← windowHolds_iff]
      simp
    rw [h0]
    simp only [copyByte_oc, copyByte_tDisp, copyByte_outCap]
    constructor
    · rintro ((h | h) | ⟨i, hi, h⟩)
      · exact Or.inl h
      · exact Or.inr ⟨0, by omega, by simpa using h⟩
      · exact Or.inr ⟨i + 1, by omega, by rwa [show s.oc + (i + 1) = s.oc + 1 + i by omega]⟩
    · rintro (h | ⟨i, hi, h⟩)
      · exact Or.inl (Or.inl h)
      · cases i with
        | zero => exact Or.inl (Or.inr (by simpa using h))
        | succ i => exact Or.inr ⟨i, by omega, by rwa [show s.oc + 1 + i = s.oc + (i + 1) by omega]⟩

end Sys2Proof.Machine
end

