-- ==== Sys2Proof/Laws/Invariant.lean ====
section
/-! SUPPORT. What the small operations keep of `State.Fits`: widths, canonical memories, no bit above `DF_CNT`. -/

namespace Sys2Proof.Machine

/-- OUT has a place for every address below `OUT_CAP` (10_state.md R11, R12). -/
def State.CapFits (s : State) : Prop := s.outCap ≤ 2 ^ 24

/-- A byte with no bit at or above `n`, and one bit put at `n`, has no bit above. -/
theorem orBit_lt : ∀ n < 8, ∀ (b : Bool) (x : Byte), x.toNat < 2 ^ n →
    (x ||| (bitByte b <<< n)).toNat < 2 ^ (n + 1) := by
  decide +kernel

theorem State.Fits.outStore {s : State} (h : s.Fits) (hc : s.CapFits) (ho : s.oc + 1 < 2 ^ 32) (v : Byte) :
    (outStore v s).Fits := by
  have hm : Memory.wf (Machine.outStore v s).outMem = true ∧
      Memory.below (2 ^ 24) (Machine.outStore v s).outMem = true := by
    rw [outStore_outMem]
    split
    · next hlt =>
      exact ⟨Memory.wf_write _ _ h.outMem_wf, Memory.below_write _ h.outMem_below (Nat.lt_of_lt_of_le hlt hc)⟩
    · exact ⟨h.outMem_wf, h.outMem_below⟩
  exact { h with outMem_wf := hm.1, outMem_below := hm.2, oc_lt := ho }

theorem State.Fits.outPatch {s : State} (h : s.Fits) (hc : s.CapFits) (a : Nat) (v : Byte) :
    (outPatch a v s).Fits := by
  unfold Machine.outPatch
  split
  · next hlt =>
    exact { h with
      outMem_wf := Memory.wf_write _ _ h.outMem_wf
      outMem_below := Memory.below_write _ h.outMem_below (Nat.lt_of_lt_of_le hlt hc) }
  · exact h

theorem State.Fits.pushBit {s : State} (h : s.Fits) (hc : s.CapFits) (ho : s.oc + 1 < 2 ^ 32) (b : Bool) :
    (pushBit b s).Fits := by
  have ho' : s.oc < 2 ^ 32 := by omega
  have hg : (openGroup s).Fits ∧ (openGroup s).dfCnt < 8 := by
    unfold openGroup
    split
    · have h1 : Fits { s with dfPos := s.oc } := { h with dfPos_lt := ho' }
      have h2 := h1.outStore (v := 0) hc ho
      exact ⟨{ h2 with dfCnt_le := by simp, dfAcc_lt := by simp }, by simp⟩
    · next hne => exact ⟨h, by have := h.dfCnt_le; omega⟩
  have hgc : (openGroup s).CapFits := by
    unfold openGroup CapFits
    split <;> exact hc
  unfold Machine.pushBit
  apply State.Fits.outPatch
  · exact { hg.1 with
      dfCnt_le := hg.2
      dfAcc_lt := orBit_lt _ hg.2 b _ hg.1.dfAcc_lt }
  · exact hgc

theorem State.Fits.inFetch {s : State} (h : s.Fits) (hi : s.ic + 1 < 2 ^ 32) : (inFetch s).2.Fits :=
  { h with ic_lt := hi }

theorem State.Fits.fetchFlag {s : State} (h : s.Fits) (hi : s.ic + 1 < 2 ^ 32) : (fetchFlag s).Fits :=
  { h with ic_lt := hi }

theorem shiftRight_lt (x : Byte) (n : Nat) (h : x.toNat < 2 ^ n) : (x >>> 1).toNat < 2 ^ (n - 1) := by
  rw [BitVec.toNat_ushiftRight, Nat.shiftRight_eq_div_pow]
  cases n with
  | zero => have : x.toNat = 0 := by omega
            simp [this]
  | succ n => rw [Nat.pow_succ] at h; simp only [Nat.add_sub_cancel]; omega

theorem State.Fits.nextBit {s : State} (h : s.Fits) (hi : s.ic + 1 < 2 ^ 32) : (nextBit s).2.Fits := by
  rw [nextBit_eq]
  split
  · refine { h with ic_lt := hi, dfCnt_le := by simp, dfAcc_lt := ?_ }
    exact shiftRight_lt _ 8 (s.inByte s.ic).isLt
  · next hne =>
    exact { h with
      dfCnt_le := Nat.le_trans (Nat.sub_le _ _) h.dfCnt_le
      dfAcc_lt := shiftRight_lt _ _ h.dfAcc_lt }

theorem State.Fits.outStores {s : State} (h : s.Fits) (hc : s.CapFits) (vs : List Byte)
    (ho : s.oc + vs.length < 2 ^ 32) : (outStores vs s).Fits := by
  induction vs generalizing s with
  | nil => exact h
  | cons v vs ih =>
    simp only [List.length_cons] at ho
    exact ih (h.outStore hc (by omega) v) hc (by simp only [outStore_oc]; omega)

theorem State.Fits.countDown {s : State} (h : s.Fits) : (countDown s).Fits :=
  { h with tCnt_le := Nat.le_trans (Nat.sub_le _ _) h.tCnt_le }

theorem State.Fits.copyBytes {s : State} (h : s.Fits) (hc : s.CapFits) (n : Nat) (ho : s.oc + n < 2 ^ 32) :
    (copyBytes n s).Fits := by
  induction n generalizing s with
  | zero => exact h
  | succ n ih =>
    have hb : (copyByte s).Fits := by
      simp only [copyByte, winRead_eq]
      have h1 : Fits { s with refFault := s.refFault || !s.windowHolds (windowIndex s) } := { h with }
      exact (h1.outStore hc (by show s.oc + 1 < _; omega) _).countDown
    exact ih hb (by simpa [CapFits] using hc) (by simp only [copyByte_oc]; omega)

theorem State.Fits.find {s : State} (h : s.Fits) : (find s).Fits := by
  obtain ⟨h1, _, h3, _⟩ := bestMatch_range s
  exact { h with mDisp_lt := Nat.lt_succ_of_le h1, mLen_le := h3 }

/-- The start values of a command fit (10_state.md R25). -/
theorem State.Fits.startCommand {s : State} (h : s.Fits) (c : Command) : (startCommand c s).Fits := by
  refine { h with ic_lt := by simp, oc_lt := by simp, dfCnt_le := ?_, dfAcc_lt := ?_, dfPos_lt := by simp,
                  pend_lt := by simp, mDisp_lt := by simp, mLen_le := by simp, tDisp_lt := by simp,
                  tCnt_le := by simp, resultLen_lt := by simp }
  · cases c <;> simp [startCount]
  · cases c <;> simp [startCount]

end Sys2Proof.Machine
end

