-- ==== Sys2Proof/Laws/Encoder.lean ====
section
/-! SUPPORT. The encoder's emissions as sequences of tokens: what `emitAll` leaves, and every emission of the selector
as one `emitAll` (42_mode_selector.md R113 to R117). -/

namespace Sys2Proof.Machine

/-- What emitting one token costs, in eighths of a byte: its control bit and its payload. -/
def tokenCost (t : Bool × List Byte) : Nat := 1 + 8 * t.2.length

/-- What emitting a sequence of tokens costs, in eighths of a byte. -/
def tokensCost : List (Bool × List Byte) → Nat
  | [] => 0
  | t :: ts => tokenCost t + tokensCost ts

theorem tokensCost_append (ts us : List (Bool × List Byte)) :
    tokensCost (ts ++ us) = tokensCost ts + tokensCost us := by
  induction ts with
  | nil => simp [tokensCost]
  | cons t ts ih => simp only [List.cons_append, tokensCost, ih]; omega

theorem emitAll_append (ts us : List (Bool × List Byte)) (s : State) :
    emitAll (ts ++ us) s = emitAll us (emitAll ts s) := by
  induction ts generalizing s with
  | nil => rfl
  | cons t ts ih => exact ih _

/-- The frame of an emission: OUT, `OC` and the description-field registers change, nothing else. -/
theorem emitAll_frame (ts : List (Bool × List Byte)) (s : State) :
    emitAll ts s = { s with
      outMem := (emitAll ts s).outMem, oc := (emitAll ts s).oc, dfAcc := (emitAll ts s).dfAcc
      dfCnt := (emitAll ts s).dfCnt, dfPos := (emitAll ts s).dfPos } := by
  induction ts generalizing s with
  | nil => rfl
  | cons t ts ih =>
    obtain ⟨b, p⟩ := t
    rw [emitAll, ih, outStores_frame, pushBit_frame]

/-- The size of an emission. -/
theorem emitAll_size (ts : List (Bool × List Byte)) (s : State) :
    8 * (emitAll ts s).oc + (emitAll ts s).dfCnt = 8 * s.oc + s.dfCnt + tokensCost ts := by
  induction ts generalizing s with
  | nil => rfl
  | cons t ts ih =>
    obtain ⟨b, p⟩ := t
    have h1 := pushBit_size b s
    have h2 : (outStores p (pushBit b s)).dfCnt = (pushBit b s).dfCnt := by rw [outStores_frame]
    rw [emitAll, ih, h2, outStores_oc, tokensCost]
    simp only [tokenCost]
    omega

/-- `DF_CNT` stays in 0..8, and is at least 1 once a bit has been pushed. -/
theorem emitAll_dfCnt (ts : List (Bool × List Byte)) (s : State) (h : s.dfCnt ≤ 8) :
    (emitAll ts s).dfCnt ≤ 8 ∧ (1 ≤ s.dfCnt ∨ ts ≠ [] → 1 ≤ (emitAll ts s).dfCnt) := by
  induction ts generalizing s with
  | nil => exact ⟨h, fun h => h.resolve_right (fun h => h rfl)⟩
  | cons t ts ih =>
    obtain ⟨b, p⟩ := t
    have h2 : (outStores p (pushBit b s)).dfCnt = if s.dfCnt = 8 then 1 else s.dfCnt + 1 := by
      rw [outStores_frame, pushBit_dfCnt]
    have h3 : (outStores p (pushBit b s)).dfCnt ≤ 8 ∧ 1 ≤ (outStores p (pushBit b s)).dfCnt := by
      rw [h2]; split <;> omega
    rw [emitAll]
    exact ⟨(ih _ h3.1).1, fun _ => (ih _ h3.1).2 (Or.inl h3.2)⟩

theorem emitAll_oc_le (ts : List (Bool × List Byte)) (s : State) : s.oc ≤ (emitAll ts s).oc := by
  induction ts generalizing s with
  | nil => exact Nat.le_refl _
  | cons t ts ih =>
    obtain ⟨b, p⟩ := t
    refine Nat.le_trans ?_ (ih _)
    rw [outStores_oc, pushBit_oc]
    split <;> omega

/-- The open group's control byte lies behind the output cursor (20_memory.md R48). -/
theorem emitAll_dfPos_lt (ts : List (Bool × List Byte)) (s : State) (h : s.dfPos < s.oc) :
    (emitAll ts s).dfPos < (emitAll ts s).oc := by
  induction ts generalizing s with
  | nil => exact h
  | cons t ts ih =>
    obtain ⟨b, p⟩ := t
    apply ih
    rw [outStores_oc, show (outStores p (pushBit b s)).dfPos = (pushBit b s).dfPos by rw [outStores_frame],
      pushBit_oc, pushBit_dfPos]
    split <;> omega

theorem State.Fits.emitAll {s : State} (h : s.Fits) (hc : s.CapFits) (ts : List (Bool × List Byte))
    (ho : (Machine.emitAll ts s).oc < 2 ^ 32) : (Machine.emitAll ts s).Fits := by
  induction ts generalizing s with
  | nil => exact h
  | cons t ts ih =>
    obtain ⟨b, p⟩ := t
    rw [Machine.emitAll] at ho ⊢
    have hle := emitAll_oc_le ts (Machine.outStores p (Machine.pushBit b s))
    rw [outStores_oc] at hle
    have hp := pushBit_oc b s
    have hs : s.oc + 1 < 2 ^ 32 ∨ p = [] ∧ s.dfCnt ≠ 8 := by
      cases p with
      | nil =>
        by_cases hd : s.dfCnt = 8
        · rw [if_pos hd] at hp; left; omega
        · exact Or.inr ⟨rfl, hd⟩
      | cons v vs => left; rw [List.length_cons] at hle; split at hp <;> omega
    have hcap : (Machine.pushBit b s).CapFits := by unfold CapFits; rw [pushBit_outCap]; exact hc
    have hb : (Machine.pushBit b s).Fits := by
      rcases hs with hs | ⟨_, hd⟩
      · exact h.pushBit hc hs b
      · have hle8 := h.dfCnt_le
        unfold Machine.pushBit openGroup
        rw [if_neg hd]
        apply State.Fits.outPatch
        · exact { h with
            dfCnt_le := by show s.dfCnt + 1 ≤ 8; omega
            dfAcc_lt := orBit_lt _ (by omega) b _ h.dfAcc_lt }
        · exact hc
    apply ih
    · exact hb.outStores hcap p (by omega)
    · unfold CapFits; rw [outStores_frame]; exact hcap
    · exact ho

/-- OUT at and above the capacity is never written by an emission. -/
theorem readOut_outStores_above (vs : List Byte) (s : State) (a : Nat) (h : s.outCap ≤ a) :
    (outStores vs s).readOut a = s.readOut a := by
  rw [readOut_outStores, if_neg (by omega)]

theorem readOut_emitAll_above (ts : List (Bool × List Byte)) (s : State) (a : Nat) (h : s.outCap ≤ a) :
    (emitAll ts s).readOut a = s.readOut a := by
  induction ts generalizing s with
  | nil => rfl
  | cons t ts ih =>
    obtain ⟨b, p⟩ := t
    have h1 : (outStores p (pushBit b s)).outCap = s.outCap := by rw [outStores_frame, pushBit_outCap]
    rw [emitAll, ih _ (by omega), readOut_outStores_above _ _ _ (by rw [pushBit_outCap]; exact h),
      readOut_pushBit, if_neg (by omega)]

/-- OUT at and above the final output cursor is never written by an emission. -/
theorem readOut_emitAll_beyond (ts : List (Bool × List Byte)) (s : State) (a : Nat) (hp : s.dfPos < s.oc)
    (h : (emitAll ts s).oc ≤ a) : (emitAll ts s).readOut a = s.readOut a := by
  induction ts generalizing s with
  | nil => rfl
  | cons t ts ih =>
    obtain ⟨b, p⟩ := t
    have hpos : (pushBit b s).dfPos < (pushBit b s).oc := by
      rw [pushBit_dfPos, pushBit_oc]; split <;> omega
    have h1 : (outStores p (pushBit b s)).dfPos = (pushBit b s).dfPos := by rw [outStores_frame]
    rw [emitAll] at h ⊢
    have hle := emitAll_oc_le ts (outStores p (pushBit b s))
    rw [outStores_oc] at hle
    rw [ih _ (by rw [h1, outStores_oc]; omega) h, readOut_outStores, if_neg (by omega), readOut_pushBit,
      if_neg (by omega)]

/-- OUT below the output cursor, but for the open group's control byte, is never written again by an emission. -/
theorem readOut_emitAll_below (ts : List (Bool × List Byte)) (s : State) (a : Nat) (ha : a < s.oc)
    (hp : s.dfCnt = 8 ∨ a ≠ s.dfPos) : (emitAll ts s).readOut a = s.readOut a := by
  induction ts generalizing s with
  | nil => rfl
  | cons t ts ih =>
    obtain ⟨b, p⟩ := t
    have hpos : a < (pushBit b s).oc ∧ a ≠ (pushBit b s).dfPos := by
      rw [pushBit_dfPos, pushBit_oc]; split <;> omega
    have h1 : (outStores p (pushBit b s)).dfPos = (pushBit b s).dfPos := by rw [outStores_frame]
    rw [emitAll, ih _ (by rw [outStores_oc]; omega) (Or.inr (by rw [h1]; exact hpos.2)), readOut_outStores,
      if_neg (by omega), readOut_pushBit, if_neg (by omega)]

/-! ## The open group's control byte -/

/-- A bit put at position `n` of a byte that holds `n` bits is that bit of the new byte, and every other bit stays
(43_bitstream_codec.md R131). -/
theorem orBit_getLsbD (n : Nat) (hn : n < 8) (b : Bool) (x : Byte) (hx : x.toNat < 2 ^ n) (j : Nat) :
    (x ||| (bitByte b <<< n)).getLsbD j = if j = n then b else x.getLsbD j := by
  have hxn : ∀ j, n ≤ j → x.getLsbD j = false := fun j h => by
    simp only [BitVec.getLsbD]
    exact Nat.testBit_lt_two_pow (Nat.lt_of_lt_of_le hx (Nat.pow_le_pow_right (by omega) h))
  have hb : ∀ k, (bitByte b).getLsbD k = (decide (k = 0) && b) := by
    intro k
    cases b
    · simp [bitByte]
    · simp only [bitByte, if_true]
      rcases k with _ | k
      · rfl
      · simp
  simp only [BitVec.getLsbD_or, BitVec.getLsbD_shiftLeft, hb]
  by_cases h1 : j = n
  · subst h1; rw [hxn j (Nat.le_refl _)]; simp [hn]
  · by_cases h2 : j < n
    · simp [h1, h2]
    · have : j - n ≠ 0 := by omega
      simp [h1, this]

/-- The open group's control byte is stored and current: the accumulator, below `OUT_CAP` (43_bitstream_codec.md R131,
D17). -/
structure State.GroupOpen (s : State) : Prop where
  count   : 1 ≤ s.dfCnt ∧ s.dfCnt ≤ 8
  acc     : s.dfAcc.toNat < 2 ^ s.dfCnt
  behind  : s.dfPos < s.oc
  inCap   : s.dfPos < s.outCap
  current : s.readOut s.dfPos = s.dfAcc

/-- Emitting one token leaves an open group whose control byte is stored and current, if it fits. -/
theorem GroupOpen.emitOne {s : State} (b : Bool) (p : List Byte) (h : s.dfCnt = 8 ∨ s.GroupOpen)
    (hc : (outStores p (pushBit b s)).oc ≤ s.outCap) : (outStores p (pushBit b s)).GroupOpen := by
  have hcnt : (outStores p (pushBit b s)).dfCnt = (pushBit b s).dfCnt := by rw [outStores_frame]
  have hacc : (outStores p (pushBit b s)).dfAcc = (pushBit b s).dfAcc := by rw [outStores_frame]
  have hpos : (outStores p (pushBit b s)).dfPos = (pushBit b s).dfPos := by rw [outStores_frame]
  have hcap : (outStores p (pushBit b s)).outCap = s.outCap := by rw [outStores_frame, pushBit_outCap]
  have hlt : (pushBit b s).dfPos < (pushBit b s).oc := by
    rw [pushBit_dfPos, pushBit_oc]
    rcases h with h | h
    · simp [h]
    · have := h.behind; split <;> omega
  rw [outStores_oc] at hc
  refine ⟨?_, ?_, ?_, ?_, ?_⟩
  · rw [hcnt, pushBit_dfCnt]
    rcases h with h | h
    · simp [h]
    · have := h.count; split <;> omega
  · rw [hcnt, hacc, pushBit_dfCnt, pushBit_dfAcc]
    split
    · exact bitByte_toNat_lt b
    · next hne =>
      have hg := h.resolve_left hne
      exact orBit_lt _ (by have := hg.count; omega) b _ hg.acc
  · rw [hpos, outStores_oc]; omega
  · rw [hpos, hcap]; omega
  · rw [hpos, hacc, readOut_outStores, if_neg (by omega), readOut_pushBit, if_pos ⟨rfl, by omega⟩]

/-- The bits already in an open group stay what they are in its control byte, whatever is emitted after them. -/
theorem readOut_emitAll_openGroup (ts : List (Bool × List Byte)) (s : State) (h : s.GroupOpen)
    (hc : (emitAll ts s).oc ≤ s.outCap) (j : Nat) (hj : j < s.dfCnt) :
    ((emitAll ts s).readOut s.dfPos).getLsbD j = s.dfAcc.getLsbD j := by
  induction ts generalizing s with
  | nil => rw [emitAll, h.current]
  | cons t ts ih =>
    obtain ⟨b, p⟩ := t
    by_cases h8 : s.dfCnt = 8
    · rw [readOut_emitAll_below _ _ _ h.behind (Or.inl h8), h.current]
    · rw [emitAll] at hc ⊢
      have hle := emitAll_oc_le ts (outStores p (pushBit b s))
      have hcap : (outStores p (pushBit b s)).outCap = s.outCap := by rw [outStores_frame, pushBit_outCap]
      have hg := GroupOpen.emitOne b p (Or.inr h) (by omega)
      have hpos : (outStores p (pushBit b s)).dfPos = s.dfPos := by
        rw [outStores_frame]; simp only [pushBit_dfPos, if_neg h8]
      have hcnt : (outStores p (pushBit b s)).dfCnt = s.dfCnt + 1 := by
        rw [outStores_frame]; simp only [pushBit_dfCnt, if_neg h8]
      have hacc : (outStores p (pushBit b s)).dfAcc = s.dfAcc ||| (bitByte b <<< s.dfCnt) := by
        rw [outStores_frame]; simp only [pushBit_dfAcc, if_neg h8]
      have := ih _ hg (by omega) (by omega)
      rw [hpos, hacc, orBit_getLsbD _ (by have := h.count; omega) b _ h.acc, if_neg (by omega)] at this
      exact this

/-! ## The selector's emissions -/

/-- The pending literals as tokens, oldest first (42_mode_selector.md R116). -/
def pendingTokens (s : State) : List (Bool × List Byte) :=
  (List.range s.pend).map fun k => (false, [s.readIn (s.ic - s.pend + k)])

theorem flushFrom_eq (n a : Nat) (s : State) :
    flushFrom n a s = emitAll ((List.range n).map fun k => (false, [s.readIn (a + k)])) s := by
  induction n generalizing a s with
  | zero => rfl
  | succ n ih =>
    rw [flushFrom, ih, List.range_succ_eq_map, List.map_cons, List.map_map, emitAll]
    have hr : ∀ k, (outStore (s.readIn a) (pushBit false s)).readIn k = s.readIn k := fun k =>
      readIn_congr (by simp) k
    simp only [hr, Function.comp_def, Nat.add_zero, outStores]
    congr 2
    funext k
    rw [show a + 1 + k = a + k.succ by omega]

/-- A state with another count of pending literals. -/
def withPend (n : Nat) (s : State) : State := { s with pend := n }

/-- A flush emits the pending literals and clears the count. -/
theorem flush_eq (s : State) : flush s = withPend 0 (emitAll (pendingTokens s) s) := by
  rw [flush, flushFrom_eq]; rfl

/-- The tokens that the end of the input emits (42_mode_selector.md R117). -/
def closingTokens (s : State) : List (Bool × List Byte) := pendingTokens s ++ [(true, [Config.termFlag])]

/-- An emission neither reads nor changes the count of pending literals. -/
theorem emitAll_withPend (ts : List (Bool × List Byte)) (s : State) (n : Nat) :
    emitAll ts (withPend n s) = withPend n (emitAll ts s) := by
  induction ts generalizing s with
  | nil => rfl
  | cons t ts ih =>
    obtain ⟨b, p⟩ := t
    have h1 : pushBit b (withPend n s) = withPend n (pushBit b s) := by
      unfold withPend pushBit openGroup outPatch writeOut outStore
      by_cases h : s.dfCnt = 8
      · by_cases h2 : s.oc < s.outCap <;> simp [h, h2]
      · by_cases h2 : s.dfPos < s.outCap <;> simp [h, h2]
    have h2 : ∀ (vs : List Byte) (s : State), outStores vs (withPend n s) = withPend n (outStores vs s) := by
      intro vs
      induction vs with
      | nil => intro s; rfl
      | cons v vs ihv => intro s; exact ihv (outStore v s)
    rw [emitAll, emitAll, h1, h2, ih]

/-- One more token behind a flush. -/
theorem emit_after_flush (s : State) (p : List Byte) :
    outStores p (pushBit true (flush s)) = withPend 0 (emitAll (pendingTokens s ++ [(true, p)]) s) := by
  rw [flush_eq, emitAll_append, ← emitAll_withPend [(true, p)]]
  rfl

theorem endOfInput_eq (s : State) : endOfInput s = withPend 0 (emitAll (closingTokens s) s) :=
  emit_after_flush s [Config.termFlag]

theorem nearEmission_eq (d len : Nat) (s : State) : nearEmission d len s =
    advanceInput len (withPend 0 (emitAll (pendingTokens s ++ [(true, [nearFlag d len])]) s)) :=
  congrArg (advanceInput len) (emit_after_flush s [nearFlag d len])

theorem farEmission_eq (d len : Nat) (s : State) : farEmission d len s =
    advanceInput len (withPend 0 (emitAll (pendingTokens s ++ [(true, [farFlag d len, farLow d])]) s)) :=
  congrArg (advanceInput len) (emit_after_flush s [farFlag d len, farLow d])

theorem pendingTokens_cost (s : State) : tokensCost (pendingTokens s) = 9 * s.pend := by
  have : ∀ (n : Nat) (f : Nat → Byte),
      tokensCost ((List.range n).map fun k => (false, [f k])) = 9 * n := by
    intro n f
    induction n with
    | zero => rfl
    | succ n ih => rw [List.range_succ, List.map_append, tokensCost_append, ih]; simp [tokensCost, tokenCost]; omega
  exact this _ _

end Sys2Proof.Machine
end

