-- ==== Sys2Proof/Laws/Commands.lean ====
section
/-! SUPPORT. What one piece of a running command can do, said once: the selector step and the token step. Everything
about the two loops is an induction over these. -/

namespace Sys2Proof.Machine

/-! ## The selector step -/

/-- The tokens a selector step emits (42_mode_selector.md R113 to R115), and how far it advances. -/
def stepTokens (s : State) : List (Bool × List Byte) :=
  match select (bestMatch s).1 (bestMatch s).2 with
  | .lit => []
  | .near d len => pendingTokens s ++ [(true, [nearFlag d len])]
  | .far d len => pendingTokens s ++ [(true, [farFlag d len, farLow d])]

/-- How many input bytes a selector step passes. -/
def stepAdvance (s : State) : Nat :=
  match select (bestMatch s).1 (bestMatch s).2 with
  | .lit => 1
  | .near _ len => len
  | .far _ len => len

/-- How many literals are pending after a selector step. -/
def stepPend (s : State) : Nat :=
  match select (bestMatch s).1 (bestMatch s).2 with
  | .lit => s.pend + 1
  | .near _ _ => 0
  | .far _ _ => 0

/-- A selector step is an emission of its tokens; besides, it moves `IC`, counts pending literals and records the
finder's pair. -/
theorem encodeIteration_eq (s : State) : encodeIteration s =
    { emitAll (stepTokens s) s with
      ic := s.ic + stepAdvance s, pend := stepPend s, mDisp := (bestMatch s).1, mLen := (bestMatch s).2 } := by
  have hfind : ∀ ts, emitAll ts (find s) =
      { emitAll ts s with mDisp := (bestMatch s).1, mLen := (bestMatch s).2 } := by
    intro ts
    have : ∀ (ts : List (Bool × List Byte)) (s : State) (m n : Nat),
        emitAll ts { s with mDisp := m, mLen := n } = { emitAll ts s with mDisp := m, mLen := n } := by
      intro ts
      induction ts with
      | nil => intros; rfl
      | cons t ts ih =>
        obtain ⟨b, p⟩ := t
        intro s m n
        have h1 : pushBit b { s with mDisp := m, mLen := n } = { pushBit b s with mDisp := m, mLen := n } := by
          unfold pushBit openGroup outPatch writeOut outStore
          by_cases h : s.dfCnt = 8
          · by_cases h2 : s.oc < s.outCap <;> simp [h, h2]
          · by_cases h2 : s.dfPos < s.outCap <;> simp [h, h2]
        have h2 : ∀ (vs : List Byte) (s : State), outStores vs { s with mDisp := m, mLen := n } =
            { outStores vs s with mDisp := m, mLen := n } := by
          intro vs
          induction vs with
          | nil => intro s; rfl
          | cons v vs ihv => intro s; exact ihv (outStore v s)
        rw [emitAll, emitAll, h1, h2, ih]
    exact this ts s _ _
  have hp : pendingTokens (find s) = pendingTokens s := rfl
  unfold encodeIteration stepTokens stepAdvance stepPend
  simp only [find_mDisp, find_mLen]
  cases select (bestMatch s).1 (bestMatch s).2 with
  | lit => rfl
  | near d len =>
    simp only []
    rw [nearEmission_eq, hp, hfind, emitAll_frame]
    rfl
  | far d len =>
    simp only []
    rw [farEmission_eq, hp, hfind, emitAll_frame]
    rfl

/-- A selector step passes at least one byte and never beyond the end of the input (46_commands.md R175). -/
theorem stepAdvance_range (s : State) (h : s.ic < s.inLen) :
    1 ≤ stepAdvance s ∧ s.ic + stepAdvance s ≤ s.inLen := by
  unfold stepAdvance
  rcases select_cases s with h1 | ⟨d, len, h1, _, _, _, h4, h5, _, _⟩ | ⟨d, len, h1, _, _, _, h4, h5, _, _⟩ <;>
    rw [h1] <;> simp only [] <;> omega

/-- A selector step's cost: at most nine eighths of a byte for each byte it no longer holds pending
(42_mode_selector.md R118 (c), (d)). -/
theorem stepTokens_cost (s : State) :
    tokensCost (stepTokens s) + 9 * stepPend s ≤ 9 * s.pend + 9 * stepAdvance s := by
  unfold stepTokens stepPend stepAdvance
  rcases select_cases s with h1 | ⟨d, len, h1, _, _, _, h4, h5, _, _⟩ | ⟨d, len, h1, _, _, _, h4, h5, _, _⟩ <;>
    rw [h1] <;> simp only [tokensCost_append, pendingTokens_cost, tokensCost, tokenCost, List.length_cons,
      List.length_nil] <;> omega

theorem stepPend_le (s : State) (h : s.pend ≤ s.ic) : stepPend s ≤ s.ic + stepAdvance s := by
  unfold stepPend stepAdvance
  cases select (bestMatch s).1 (bestMatch s).2 <;> simp only [] <;> omega

/-! ## The token step -/

/-- The frame of a token's effect, on the registers every token leaves. -/
theorem tokenEffect_frame (i : Instr) (s : State) :
    tokenEffect i s = { s with
      ic := (tokenEffect i s).ic, oc := (tokenEffect i s).oc, outMem := (tokenEffect i s).outMem
      tDisp := (tokenEffect i s).tDisp, tCnt := (tokenEffect i s).tCnt
      terminated := (tokenEffect i s).terminated, refFault := (tokenEffect i s).refFault } := by
  cases i with
  | literal v => rfl
  | terminator => rfl
  | rawRun raw => simp only [tokenEffect]; rw [rawRunToken_eq, outStores_frame]
  | nearMatch d len => simp only [tokenEffect, nearMatchToken, copyMatch]; rw [copyBytes_frame]
  | farMatch d len => simp only [tokenEffect, farMatchToken, copyMatch]; rw [copyBytes_frame]; rfl
  | encode => rfl
  | decode => rfl

/-- How many bytes a token's meaning fetches: its payload behind the flag byte. -/
def operandCount : Instr → Nat
  | .literal _ => 1
  | .terminator => 0
  | .rawRun raw => raw.length
  | .nearMatch _ _ => 0
  | .farMatch _ _ => 1
  | .encode => 0
  | .decode => 0

/-- How many bytes a token stores. -/
def producedCount : Instr → Nat
  | .literal _ => 1
  | .terminator => 0
  | .rawRun raw => raw.length
  | .nearMatch _ len => len
  | .farMatch _ len => len
  | .encode => 0
  | .decode => 0

theorem tokenEffect_ic (i : Instr) (s : State) : (tokenEffect i s).ic = s.ic + operandCount i := by
  cases i with
  | rawRun raw => simp only [tokenEffect]; rw [rawRunToken_eq, outStores_frame]; rfl
  | nearMatch d len => simp only [tokenEffect, nearMatchToken, copyMatch]; rw [copyBytes_frame]; rfl
  | farMatch d len => simp only [tokenEffect, farMatchToken, copyMatch]; rw [copyBytes_frame]; rfl
  | literal v => rfl
  | terminator => rfl
  | encode => rfl
  | decode => rfl

theorem tokenEffect_oc (i : Instr) (s : State) : (tokenEffect i s).oc = s.oc + producedCount i := by
  cases i with
  | rawRun raw => simp only [tokenEffect]; rw [rawRunToken_eq, outStores_oc]; rfl
  | nearMatch d len => simp only [tokenEffect, nearMatchToken, copyMatch]; rw [copyBytes_oc]; rfl
  | farMatch d len => simp only [tokenEffect, farMatchToken, copyMatch]; rw [copyBytes_oc]; rfl
  | literal v => rfl
  | terminator => rfl
  | encode => rfl
  | decode => rfl

/-- A token clears no `REF_FAULT`. -/
theorem tokenEffect_refFault (i : Instr) (s : State) (h : s.refFault = true) : (tokenEffect i s).refFault = true := by
  cases i with
  | rawRun raw => simp only [tokenEffect]; rw [rawRunToken_eq, outStores_frame]; exact h
  | nearMatch d len => exact (refFault_copyBytes _ _).2 (Or.inl h)
  | farMatch d len => exact (refFault_copyBytes _ _).2 (Or.inl h)
  | literal v => exact h
  | terminator => exact h
  | encode => exact h
  | decode => exact h

/-- A token stores only from `OC` up to the cursor it leaves, and below `OUT_CAP`. -/
theorem tokenEffect_readOut (i : Instr) (s : State) (a : Nat)
    (h : a < s.oc ∨ s.oc + producedCount i ≤ a ∨ s.outCap ≤ a) : (tokenEffect i s).readOut a = s.readOut a := by
  cases i with
  | literal v =>
    show (outStore v _).readOut a = _
    rw [readOut_outStore, if_neg (by simp [producedCount] at h; simp only [inFetch_oc, inFetch_outCap]; omega)]
    rfl
  | terminator => rfl
  | rawRun raw =>
    simp only [tokenEffect, rawRunToken]
    rw [passBytes_eq, readOut_outStores, if_neg (by simp [producedCount] at h ⊢; omega)]
    rfl
  | nearMatch d len => exact readOut_copyBytes_outside _ _ _ h
  | farMatch d len => exact readOut_copyBytes_outside _ _ _ h
  | encode => rfl
  | decode => rfl

/-- The frame of a token's fetch. -/
theorem fetchToken_frame (s : State) :
    (fetchToken s).2 = { s with
      ic := (fetchToken s).2.ic, dfAcc := (fetchToken s).2.dfAcc, dfCnt := (fetchToken s).2.dfCnt
      flag := (fetchToken s).2.flag } := by
  unfold fetchToken
  simp only []
  split
  · unfold fetchFlag inFetch; simp only []; rw [nextBit_frame]
  · rw [nextBit_frame]

/-- How many bytes a token's fetch takes: a control byte where the group is exhausted, and a flag byte. -/
theorem fetchToken_ic (s : State) :
    (fetchToken s).2.ic = s.ic + (if s.dfCnt = 0 then 1 else 0) + (if (nextBit s).1 then 1 else 0) := by
  have h : (nextBit s).2.ic = if s.dfCnt = 0 then s.ic + 1 else s.ic := by rw [nextBit_frame]
  unfold fetchToken
  simp only []
  split
  · rw [fetchFlag_ic, h]; split <;> omega
  · rw [h]; split <;> omega

/-- The token a running DECODE meets is a token of the stream; its operand bytes and what it stores are bounded. -/
theorem fetchToken_instr (s : State) :
    (fetchToken s).1.isToken = true ∧ (fetchToken s).1.wellFormed = true ∧
    operandCount (fetchToken s).1 ≤ 71 ∧ producedCount (fetchToken s).1 ≤ 71 ∧
    ((nextBit s).1 = false → operandCount (fetchToken s).1 = 1) := by
  have hi : (fetchToken s).1 = (decodeToken (nextBit s).1 (operandBytes (nextBit s).2)).1 := rfl
  obtain ⟨h1, h2⟩ := decodeToken_wellFormed (nextBit s).1 (operandBytes (nextBit s).2)
  rw [← hi] at h1 h2
  refine ⟨h2, h1, ?_, ?_, ?_⟩
  · cases hc : (fetchToken s).1 with
    | rawRun raw => rw [hc] at h1; exact ((rawSpellable_iff raw).1 h1).2
    | _ => simp [operandCount]
  · cases hc : (fetchToken s).1 with
    | rawRun raw => rw [hc] at h1; exact ((rawSpellable_iff raw).1 h1).2
    | nearMatch d len => rw [hc] at h1; have := (nearSpellable_iff d len).1 h1; simp only [producedCount]; omega
    | farMatch d len => rw [hc] at h1; have := (farSpellable_iff d len).1 h1; simp only [producedCount]; omega
    | _ => simp [producedCount]
  · intro h
    rw [hi, h]; rfl

/-- The meaning that exec gives a token is the token's effect. -/
theorem exec_token (i : Instr) (s : State) (h : i.isToken = true) : exec i s = .next (tokenEffect i s) := by
  cases i <;> first | rfl | cases h

/-- A token step of a running DECODE. -/
theorem decodeStep_token (s : State) (h : s.moreTokens = true) : decodeStep s = .next (runToken s) := by
  rw [decodeStep, if_pos h, exec_token _ _ (fetchToken_instr s).1]
  rfl

theorem moreTokens_iff (s : State) : s.moreTokens = true ↔ s.terminated = false ∧ s.ic < s.inLen :=
  decide_eq_true_iff

/-- The frame of a token step. -/
theorem runToken_frame (s : State) :
    runToken s = { s with
      ic := (runToken s).ic, oc := (runToken s).oc, outMem := (runToken s).outMem
      dfAcc := (runToken s).dfAcc, dfCnt := (runToken s).dfCnt, flag := (runToken s).flag
      tDisp := (runToken s).tDisp, tCnt := (runToken s).tCnt
      terminated := (runToken s).terminated, refFault := (runToken s).refFault } := by
  unfold runToken
  rw [tokenEffect_frame, fetchToken_frame]

/-- A token fetches at least 1 and at most 73 bytes and stores at most 71 (10_state.md R22,
44_decoder_copy_engine.md R141). -/
theorem runToken_cursors (s : State) :
    s.ic + 1 ≤ (runToken s).ic ∧ (runToken s).ic ≤ s.ic + 73 ∧
    s.oc ≤ (runToken s).oc ∧ (runToken s).oc ≤ s.oc + 71 := by
  obtain ⟨_, _, h1, h2, h3⟩ := fetchToken_instr s
  have hic := fetchToken_ic s
  have hoc : (fetchToken s).2.oc = s.oc := by rw [fetchToken_frame]
  unfold runToken
  rw [tokenEffect_ic, tokenEffect_oc, hic, hoc]
  cases hb : (nextBit s).1
  · have := h3 hb
    split <;> simp <;> omega
  · split <;> simp <;> omega

theorem runToken_refFault (s : State) (h : s.refFault = true) : (runToken s).refFault = true := by
  apply tokenEffect_refFault
  rw [fetchToken_frame]; exact h

theorem runToken_readOut (s : State) (a : Nat) (h : a < s.oc ∨ (runToken s).oc ≤ a ∨ s.outCap ≤ a) :
    (runToken s).readOut a = s.readOut a := by
  have hoc : (fetchToken s).2.oc = s.oc := by rw [fetchToken_frame]
  have hcap : (fetchToken s).2.outCap = s.outCap := by rw [fetchToken_frame]
  have hout : (fetchToken s).2.outMem = s.outMem := by rw [fetchToken_frame]
  unfold runToken at h ⊢
  rw [tokenEffect_oc, hoc] at h
  rw [tokenEffect_readOut _ _ _ (by rw [hoc, hcap]; exact h)]
  exact readOut_congr hout a

/-! ## The two loops -/

/-- What every selector step keeps, ENCODE's loop keeps. -/
theorem encodeLoop_keeps {P : State → Prop} (hstep : ∀ s, P s → s.ic < s.inLen → P (encodeIteration s))
    (n : Nat) (s : State) (h : P s) : P (encodeLoop n s) := by
  induction n generalizing s with
  | zero => exact h
  | succ n ih =>
    rw [encodeLoop]
    split
    · next hlt => exact ih _ (hstep s h hlt)
    · exact h

/-- What every token step keeps, DECODE's loop keeps. -/
theorem decodeLoop_keeps {P : State → Prop} (hstep : ∀ s, P s → s.moreTokens = true → P (runToken s))
    (n : Nat) (s : State) (h : P s) : P (decodeLoop n s) := by
  induction n generalizing s with
  | zero => exact h
  | succ n ih =>
    rw [decodeLoop]
    split
    · next hm => exact ih _ (hstep s h hm)
    · exact h

@[simp] theorem encodeIteration_inLen (s : State) : (encodeIteration s).inLen = s.inLen := by
  rw [encodeIteration_eq, emitAll_frame]

@[simp] theorem encodeIteration_ic (s : State) : (encodeIteration s).ic = s.ic + stepAdvance s := by
  rw [encodeIteration_eq]

@[simp] theorem runToken_inLen (s : State) : (runToken s).inLen = s.inLen := by rw [runToken_frame]

/-- ENCODE's loop ends exactly at the end of the input: the bound is enough (46_commands.md R175, 20_memory.md R49). -/
theorem encodeLoop_ends (n : Nat) (s : State) (hi : s.ic ≤ s.inLen) (hn : s.inLen - s.ic ≤ n) :
    (encodeLoop n s).ic = s.inLen := by
  induction n generalizing s with
  | zero => rw [encodeLoop]; omega
  | succ n ih =>
    rw [encodeLoop]
    split
    · next hlt =>
      have hr := stepAdvance_range s hlt
      rw [ih _ (by rw [encodeIteration_ic, encodeIteration_inLen]; omega)
        (by rw [encodeIteration_ic, encodeIteration_inLen]; omega), encodeIteration_inLen]
    · omega

/-- DECODE's loop ends for one of the rule's two reasons: the bound is enough (44_decoder_copy_engine.md R141). -/
theorem decodeLoop_ends (n : Nat) (s : State) (hn : s.inLen - s.ic ≤ n) : (decodeLoop n s).moreTokens = false := by
  induction n generalizing s with
  | zero =>
    rw [decodeLoop, Bool.eq_false_iff, Ne, moreTokens_iff]
    omega
  | succ n ih =>
    rw [decodeLoop]
    split
    · have := runToken_cursors s
      exact ih _ (by rw [runToken_inLen]; omega)
    · next hm => exact Bool.eq_false_iff.2 hm

/-- One turn of each loop. -/
theorem encodeLoop_succ (n : Nat) (s : State) (hlt : s.ic < s.inLen) :
    encodeLoop (n + 1) s = encodeLoop n (encodeIteration s) := by
  rw [encodeLoop, if_pos hlt]

theorem decodeLoop_succ (n : Nat) (s : State) (hm : s.moreTokens = true) :
    decodeLoop (n + 1) s = decodeLoop n (runToken s) := by
  rw [decodeLoop, if_pos hm]

/-- The frame of ENCODE's loop. -/
theorem encodeLoop_frame (n : Nat) (s : State) : encodeLoop n s = { s with
    ic := (encodeLoop n s).ic, oc := (encodeLoop n s).oc, outMem := (encodeLoop n s).outMem
    dfAcc := (encodeLoop n s).dfAcc, dfCnt := (encodeLoop n s).dfCnt, dfPos := (encodeLoop n s).dfPos
    pend := (encodeLoop n s).pend, mDisp := (encodeLoop n s).mDisp, mLen := (encodeLoop n s).mLen } := by
  apply encodeLoop_keeps (P := fun t => t = { s with
    ic := t.ic, oc := t.oc, outMem := t.outMem, dfAcc := t.dfAcc, dfCnt := t.dfCnt, dfPos := t.dfPos
    pend := t.pend, mDisp := t.mDisp, mLen := t.mLen })
  · intro t ht _
    rw [encodeIteration_eq, emitAll_frame]
    simp only []
    rw [ht]
  · rfl

/-- The frame of DECODE's loop. -/
theorem decodeLoop_frame (n : Nat) (s : State) : decodeLoop n s = { s with
    ic := (decodeLoop n s).ic, oc := (decodeLoop n s).oc, outMem := (decodeLoop n s).outMem
    dfAcc := (decodeLoop n s).dfAcc, dfCnt := (decodeLoop n s).dfCnt, flag := (decodeLoop n s).flag
    tDisp := (decodeLoop n s).tDisp, tCnt := (decodeLoop n s).tCnt
    terminated := (decodeLoop n s).terminated, refFault := (decodeLoop n s).refFault } := by
  apply decodeLoop_keeps (P := fun t => t = { s with
    ic := t.ic, oc := t.oc, outMem := t.outMem, dfAcc := t.dfAcc, dfCnt := t.dfCnt, flag := t.flag
    tDisp := t.tDisp, tCnt := t.tCnt, terminated := t.terminated, refFault := t.refFault })
  · intro t ht _
    rw [runToken_frame]
    simp only []
    rw [ht]
  · rfl

end Sys2Proof.Machine
end

