-- ==== Sys2Proof/Laws/Step.lean ====
section
/-! SUPPORT. What a step can do, said once, and the frames of what surrounds the two loops. -/

namespace Sys2Proof.Machine

/-! ## Accounting -/

/-- Accounting changes `RESULT_LEN` and `ERR`, nothing else. -/
theorem account_frame (s : State) :
    account s = { s with resultLen := (account s).resultLen, err := (account s).err } := by
  simp only [account, accountResult, accountOutput, accountInput]
  by_cases h1 : s.inLen < s.ic <;> by_cases h2 : s.ic < s.inLen <;> by_cases h3 : s.outCap < s.oc <;>
    by_cases h4 : s.oc < s.outCap <;> by_cases h5 : s.phase = .busy .decode <;>
    simp [h1, h2, h3, h4, h5, raise, State.runsDecode]

/-- Raising clears no flag. -/
theorem raise_keeps (c d : Condition) (s : State) (h : s.raised c = true) : (raise d s).raised c = true := by
  cases c <;> cases d <;> first | rfl | exact h

/-- Accounting clears no flag. -/
theorem account_keeps (c : Condition) (s : State) (h : s.raised c = true) : (account s).raised c = true := by
  have hif : ∀ (p : Prop) [Decidable p] (d : Condition) (u : State), u.raised c = true →
      (if p then raise d u else u).raised c = true := by
    intro p _ d u hu
    split
    · exact raise_keeps c d u hu
    · exact hu
  have hr : ∀ u : State, (accountResult u).raised c = u.raised c := fun u => by cases c <;> rfl
  rw [account, hr]
  exact hif _ _ _ (hif _ _ _ (hif _ _ _ (hif _ _ _ h)))

/-! ## A step, case by case -/

theorem step_waits (s : State) (h : s.host = []) (hp : s.phase = .idle ∨ s.phase = .done) : step s = .next s := by
  unfold step engineStep
  rw [h]
  rcases hp with hp | hp <;> simp [hp]

theorem step_busyDecode (s : State) (h : s.host = []) (hp : s.phase = .busy .decode) : step s = decodeStep s := by
  unfold step engineStep
  rw [h]
  simp [hp]

theorem step_busyEncode (s : State) (h : s.host = []) (hp : s.phase = .busy .encode) :
    step s = .next (encodeStep s) := by
  unfold step engineStep
  rw [h]
  simp [hp]

theorem step_host (s : State) (a : HostAccess) (rest : List HostAccess) (h : s.host = a :: rest) :
    step s = hostAccess a { s with host := rest } := by
  unfold step
  rw [h]

/-- What an access of the host that is no write of `CMD` does to the state. -/
def hostEffect (a : HostAccess) (s : State) : State :=
  match a with
  | .writeReg r v => hostWriteReg r v s
  | .writeIn a v => hostWriteIn a v s
  | .readReg _ => s
  | .readIn _ => s
  | .readOut _ => s

/-- An access that is no write of `CMD`, made while not BUSY, always answers. -/
theorem step_hostNotBusy (s : State) (a : HostAccess) (rest : List HostAccess) (h : s.host = a :: rest)
    (hb : s.isBusy = false) (hc : ∀ v, a ≠ .writeReg .cmd v) :
    step s = .next (hostEffect a { s with host := rest }) := by
  rw [step_host s a rest h]
  have hb' : State.isBusy { s with host := rest } = false := hb
  cases a with
  | writeReg r v =>
    cases r with
    | cmd => exact absurd rfl (hc v)
    | _ => simp only [hostAccess, registerWrite, whenNotBusy, hb', Bool.false_eq_true, if_false, hostEffect]
  | readReg r =>
    cases r <;> simp [hostAccess, whenNotBusy, hb', readableWhileBusy, hostEffect]
  | _ => simp only [hostAccess, whenNotBusy, hb', Bool.false_eq_true, if_false, hostEffect]

/-- IN after a host write of one byte. -/
theorem readIn_hostWriteIn (a : BitVec 24) (v : Byte) (s : State) (b : Nat) :
    (hostWriteIn a v s).readIn b = if b = a.toNat then v else s.readIn b := by
  simp only [State.readIn, hostWriteIn, Memory.lookup_write]
  split <;> rfl

theorem isBusy_eq_false (s : State) (h : s.isBusy = false) : s.phase = .idle ∨ s.phase = .done := by
  unfold State.isBusy at h
  cases hp : s.phase <;> simp_all

theorem decodeStep_ends (s : State) (h : s.moreTokens = false) : decodeStep s = .next (finishDecode s) := by
  rw [decodeStep, h]
  rfl

/-- Everything a step that answers next can have done: a write of `CMD`, one of the three host writes that change a
register or IN, an access that changes nothing (a read, or a write of a read-only register), waiting, a selector step or
ENCODE's end, a token, DECODE's end. -/
theorem step_cases {s t : State} (h : step s = .next t) :
    (∃ rest v, s.host = .writeReg .cmd v :: rest ∧ commandWrite (commandField v) { s with host := rest } = .next t) ∨
    (∃ rest v, s.host = .writeReg .inLen v :: rest ∧ s.isBusy = false ∧
      t = { s with host := rest, inLen := v.toNat }) ∨
    (∃ rest v, s.host = .writeReg .outCap v :: rest ∧ s.isBusy = false ∧
      t = { s with host := rest, outCap := v.toNat }) ∨
    (∃ rest a v, s.host = .writeIn a v :: rest ∧ s.isBusy = false ∧
      t = { s with host := rest, inMem := Memory.write s.inMem a.toNat v }) ∨
    (∃ rest a, s.host = a :: rest ∧ (∀ v, a ≠ .writeReg .cmd v) ∧ (∀ b v, a ≠ .writeIn b v) ∧
      (∀ v, a ≠ .writeReg .inLen v ∧ a ≠ .writeReg .outCap v) ∧ t = { s with host := rest }) ∨
    (s.host = [] ∧ (s.phase = .idle ∨ s.phase = .done) ∧ t = s) ∨
    (s.host = [] ∧ s.phase = .busy .encode ∧ t = encodeStep s) ∨
    (s.host = [] ∧ s.phase = .busy .decode ∧ s.moreTokens = true ∧ t = runToken s) ∨
    (s.host = [] ∧ s.phase = .busy .decode ∧ s.moreTokens = false ∧ t = finishDecode s) := by
  cases hh : s.host with
  | nil =>
    cases hp : s.phase with
    | idle => rw [step_waits s hh (Or.inl hp)] at h; cases h; simp
    | done => rw [step_waits s hh (Or.inr hp)] at h; cases h; simp
    | busy c =>
      cases c with
      | encode => rw [step_busyEncode s hh hp] at h; cases h; simp
      | decode =>
        rw [step_busyDecode s hh hp] at h
        cases hm : s.moreTokens
        · rw [decodeStep_ends s hm] at h; cases h; simp
        · rw [decodeStep_token s hm] at h; cases h; simp
  | cons a rest =>
    rw [step_host s a rest hh] at h
    have hb : State.isBusy { s with host := rest } = s.isBusy := rfl
    cases a with
    | writeReg r v =>
      cases r with
      | cmd => exact Or.inl ⟨rest, v, rfl, h⟩
      | inLen =>
        cases hbb : s.isBusy <;> simp [hostAccess, registerWrite, whenNotBusy, hostWriteReg, hb, hbb] at h
        subst h; simp
      | outCap =>
        cases hbb : s.isBusy <;> simp [hostAccess, registerWrite, whenNotBusy, hostWriteReg, hb, hbb] at h
        subst h; simp
      | _ =>
        cases hbb : s.isBusy <;> simp [hostAccess, registerWrite, whenNotBusy, hostWriteReg, hb, hbb] at h
        subst h; simp
    | writeIn a v =>
      cases hbb : s.isBusy <;> simp [hostAccess, whenNotBusy, hb, hbb, hostWriteIn] at h
      subst h; simp
    | readReg r =>
      have : t = { s with host := rest } := by
        cases r <;> cases hbb : s.isBusy <;> simp [hostAccess, whenNotBusy, hb, hbb, readableWhileBusy] at h <;>
          exact h.symm
      subst this; simp
    | readIn a =>
      have : t = { s with host := rest } := by
        cases hbb : s.isBusy <;> (simp [hostAccess, whenNotBusy, hb, hbb] at h; try exact h.symm)
      subst this; simp
    | readOut a =>
      have : t = { s with host := rest } := by
        cases hbb : s.isBusy <;> (simp [hostAccess, whenNotBusy, hb, hbb] at h; try exact h.symm)
      subst this; simp

/-- Everything a write of `CMD` can have done: nothing while BUSY, a refusal, or a whole command. -/
theorem commandWrite_cases {op : BitVec 2} {s t : State} (h : commandWrite op s = .next t) :
    t = (if s.isBusy then s else refuseCommand s) ∨
    (s.isBusy = false ∧ acceptsEncode s = true ∧ t = runEncode s) ∨
    (s.isBusy = false ∧ acceptsDecode s = true ∧ t = runDecode s) := by
  unfold commandWrite decodeCommand at h
  split at h
  · next i hi =>
    split at hi
    · cases hi
      simp only [exec, execEncode] at h
      cases hb : s.isBusy <;> cases ha : acceptsEncode s <;> simp [hb, ha] at h ⊢ <;> simp [h]
    · split at hi
      · cases hi
        simp only [exec, execDecode] at h
        cases hb : s.isBusy <;> cases ha : acceptsDecode s <;> simp [hb, ha] at h ⊢ <;> simp [h]
      · cases hi
  · simp only [rejectedWrite] at h
    cases h
    simp

/-! ## The commands, whole -/

theorem acceptsEncode_iff (s : State) : acceptsEncode s = true ↔ s.inLen ≤ 0xFFFF ∧ s.outCap ≤ 0x00FFFFFF :=
  decide_eq_true_iff

theorem acceptsDecode_iff (s : State) : acceptsDecode s = true ↔ s.inLen ≤ 0x00FFFFFF := decide_eq_true_iff

/-- An accepted ENCODE. -/
theorem exec_encode_accepted (s : State) (hb : s.isBusy = false) (hi : s.inLen ≤ 0xFFFF)
    (ho : s.outCap ≤ 0x00FFFFFF) : exec .encode s = .next (runEncode s) := by
  simp only [exec, execEncode]
  rw [hb, (acceptsEncode_iff s).2 ⟨hi, ho⟩]
  rfl

/-- An accepted DECODE. -/
theorem exec_decode_accepted (s : State) (hb : s.isBusy = false) (hi : s.inLen ≤ 0x00FFFFFF) :
    exec .decode s = .next (runDecode s) := by
  simp only [exec, execDecode]
  rw [hb, (acceptsDecode_iff s).2 hi]
  rfl

/-- Where ENCODE's loop begins: the start values and the two header bytes stored. -/
theorem beginEncode_frame (s : State) : beginEncode s =
    { startCommand .encode s with oc := 2, outMem := (beginEncode s).outMem } := rfl

/-- Where a granted DECODE's loop begins: the start values, the header consumed, `OUT_CAP` the declared size. -/
theorem runDecode_granted (s : State) (h : s.allocGrant s.declaredSize = true) : runDecode s =
    decodeBody { startCommand .decode s with ic := 2, outCap := s.declaredSize.toNat } := by
  have h1 : fetchHeader (startCommand .decode s) = (s.declaredSize, { startCommand .decode s with ic := 2 }) := rfl
  have h2 : State.allocGrant { startCommand .decode s with ic := 2 } s.declaredSize = true := h
  simp only [runDecode, h1, h2, if_true]
  rfl

theorem runDecode_denied (s : State) (h : s.allocGrant s.declaredSize = false) : runDecode s =
    denyBuffer { startCommand .decode s with ic := 2 } := by
  have h1 : fetchHeader (startCommand .decode s) = (s.declaredSize, { startCommand .decode s with ic := 2 }) := rfl
  have h2 : State.allocGrant { startCommand .decode s with ic := 2 } s.declaredSize = false := h
  simp only [runDecode, h1, h2, Bool.false_eq_true, if_false]

/-- The frame of ENCODE's end. -/
theorem finishEncode_frame (s : State) : finishEncode s = { s with
    outMem := (finishEncode s).outMem, oc := (finishEncode s).oc, dfAcc := (finishEncode s).dfAcc
    dfCnt := (finishEncode s).dfCnt, dfPos := (finishEncode s).dfPos, pend := 0
    resultLen := (finishEncode s).resultLen, err := (finishEncode s).err, phase := .done } := by
  unfold finishEncode complete
  rw [account_frame, endOfInput_eq, withPend, emitAll_frame]

/-- The frame of DECODE's end. -/
theorem finishDecode_frame (s : State) : finishDecode s = { s with
    resultLen := (finishDecode s).resultLen, err := (finishDecode s).err, phase := .done } := by
  unfold finishDecode complete
  rw [account_frame]

/-- The frame of a whole ENCODE: what is the host's stays, what DECODE alone uses is at its start value. -/
theorem runEncode_frame (s : State) : runEncode s = { startCommand .encode s with
    outMem := (runEncode s).outMem, ic := (runEncode s).ic, oc := (runEncode s).oc, dfAcc := (runEncode s).dfAcc
    dfCnt := (runEncode s).dfCnt, dfPos := (runEncode s).dfPos, mDisp := (runEncode s).mDisp
    mLen := (runEncode s).mLen, resultLen := (runEncode s).resultLen, err := (runEncode s).err, phase := .done } := by
  have h := beginEncode_frame s
  unfold runEncode
  generalize beginEncode s = b at h ⊢
  simp only []
  rw [finishEncode_frame, encodeLoop_frame]
  simp only [State.mk.injEq, true_and]
  rw [h]
  simp

/-- The frame of a granted DECODE from its loop on. -/
theorem decodeBody_frame (s : State) : decodeBody s = { s with
    ic := (decodeBody s).ic, oc := (decodeBody s).oc, outMem := (decodeBody s).outMem
    dfAcc := (decodeBody s).dfAcc, dfCnt := (decodeBody s).dfCnt, flag := (decodeBody s).flag
    tDisp := (decodeBody s).tDisp, tCnt := (decodeBody s).tCnt, terminated := (decodeBody s).terminated
    refFault := (decodeBody s).refFault, resultLen := (decodeBody s).resultLen, err := (decodeBody s).err
    phase := .done } := by
  unfold decodeBody
  rw [finishDecode_frame, decodeLoop_frame]

/-- A selector step stores nothing at or above the capacity. -/
theorem encodeIteration_above (s : State) (a : Nat) (h : s.outCap ≤ a) : (encodeIteration s).readOut a = s.readOut a := by
  rw [encodeIteration_eq]
  exact readOut_emitAll_above _ _ _ h

theorem endOfInput_above (s : State) (a : Nat) (h : s.outCap ≤ a) : (endOfInput s).readOut a = s.readOut a := by
  rw [endOfInput_eq]
  exact readOut_emitAll_above _ _ _ h

theorem finishEncode_above (s : State) (a : Nat) (h : s.outCap ≤ a) : (finishEncode s).readOut a = s.readOut a := by
  rw [← endOfInput_above s a h]
  apply readOut_congr
  unfold finishEncode complete
  rw [account_frame]

theorem finishDecode_readOut (s : State) (a : Nat) : (finishDecode s).readOut a = s.readOut a := by
  apply readOut_congr
  rw [finishDecode_frame]

theorem encodeLoop_above (n : Nat) (s : State) (a : Nat) (h : s.outCap ≤ a) :
    (encodeLoop n s).readOut a = s.readOut a := by
  refine (encodeLoop_keeps (P := fun t => t.outCap = s.outCap ∧ t.readOut a = s.readOut a) ?_ n s ⟨rfl, rfl⟩).2
  intro t ht _
  refine ⟨?_, (encodeIteration_above t a (by rw [ht.1]; exact h)).trans ht.2⟩
  rw [encodeIteration_eq, emitAll_frame]
  exact ht.1

theorem decodeLoop_above (n : Nat) (s : State) (a : Nat) (h : s.outCap ≤ a) :
    (decodeLoop n s).readOut a = s.readOut a := by
  refine (decodeLoop_keeps (P := fun t => t.outCap = s.outCap ∧ t.readOut a = s.readOut a) ?_ n s ⟨rfl, rfl⟩).2
  intro t ht _
  refine ⟨?_, (runToken_readOut t a (by rw [ht.1]; omega)).trans ht.2⟩
  rw [runToken_frame]
  exact ht.1

/-- A whole ENCODE stores nothing at or above the capacity. -/
theorem runEncode_above (s : State) (a : Nat) (h : s.outCap ≤ a) : (runEncode s).readOut a = s.readOut a := by
  have hb : (beginEncode s).readOut a = s.readOut a := by
    have h1 : beginEncode s = outStores [BitVec.ofNat 8 (s.inLen >>> 8), BitVec.ofNat 8 s.inLen]
        (startCommand .encode s) := rfl
    rw [h1, readOut_outStores_above _ (startCommand .encode s) _ h]
    exact readOut_congr rfl a
  have hc : (beginEncode s).outCap = s.outCap := rfl
  unfold runEncode
  rw [finishEncode_above _ _ (by rw [encodeLoop_frame]; exact h), encodeLoop_above _ _ _ (by rw [hc]; exact h), hb]

theorem decodeBody_above (s : State) (a : Nat) (h : s.outCap ≤ a) : (decodeBody s).readOut a = s.readOut a := by
  unfold decodeBody
  rw [finishDecode_readOut, decodeLoop_above _ _ _ h]

end Sys2Proof.Machine
end

