-- ==== Sys2Proof/Laws/Mirror.lean ====
section
/-! SUPPORT. The decoder in step with the encoder: what the token fetch reads where the stream spells a token, and the
relation between the two description-field states that one token keeps (43_bitstream_codec.md R134). -/

namespace Sys2Proof.Machine

/-- Where the next control bit and the guarded bytes behind it spell a well-formed token, the fetch reads that token. -/
theorem fetchToken_spelled {s : State} {i : Instr} {ctl : Bool} {payload : List Byte} (hwf : i.wellFormed = true)
    (henc : encode i = .token ctl payload) (hctl : (nextBit s).1 = ctl)
    (hpay : ∀ k v, payload[k]? = some v → (nextBit s).2.inByte ((nextBit s).2.ic + k) = v) :
    fetchToken s = (i, if ctl then fetchFlag (nextBit s).2 else (nextBit s).2) := by
  have hi : (decodeToken ctl (operandBytes (nextBit s).2)).1 = i := by
    have hob : ∀ k, k < 72 → (operandBytes (nextBit s).2)[k]? = some ((nextBit s).2.inByte ((nextBit s).2.ic + k)) := by
      intro k hk
      simp [operandBytes, Config.maxPayload, hk]
    have hbyte : ∀ k, k < 72 → byteAt (operandBytes (nextBit s).2) k =
        (nextBit s).2.inByte ((nextBit s).2.ic + k) := by
      intro k hk
      simp [byteAt, List.getD, hob k hk]
    cases i with
    | literal v =>
      simp only [encode, Code.token.injEq] at henc
      obtain ⟨rfl, rfl⟩ := henc
      have h0 := hpay 0 v rfl
      simp only [decodeToken, Bool.false_eq_true, if_false, hbyte 0 (by omega), h0]
    | terminator =>
      simp only [encode, Code.token.injEq] at henc
      obtain ⟨rfl, rfl⟩ := henc
      have h0 := hpay 0 _ rfl
      simp only [decodeToken, if_true, hbyte 0 (by omega), h0]
      rfl
    | rawRun raw =>
      have hr := (rawSpellable_iff raw).1 hwf
      simp only [encode, Code.token.injEq] at henc
      obtain ⟨rfl, rfl⟩ := henc
      obtain ⟨h1, h2⟩ := raw_unpack raw.length (by omega) hr.1
      have h0 := hpay 0 _ rfl
      simp only [decodeToken, if_true, hbyte 0 (by omega), h0, decodeFlag, h1, h2]
      congr 1
      apply List.ext_getElem?
      intro k
      by_cases hk : k < raw.length
      · rw [takeBytes, List.getElem?_map, List.getElem?_range hk]
        have hk' := hpay (k + 1) raw[k] (by simp [hk])
        simp only [byteAt, Option.map_some, List.getD]
        rw [List.getElem?_tail, hob _ (by omega), hk']
        simp [hk]
      · rw [List.getElem?_eq_none (by rw [takeBytes_length]; omega), List.getElem?_eq_none (by omega)]
    | nearMatch d l =>
      have hr := (nearSpellable_iff d l).1 hwf
      simp only [encode, Code.token.injEq] at henc
      obtain ⟨rfl, rfl⟩ := henc
      obtain ⟨h1, h2, h3⟩ := near_unpack d (by omega) l (by omega) hr.2.1
      have h0 := hpay 0 _ rfl
      simp only [decodeToken, if_true, hbyte 0 (by omega), h0, decodeFlag, h1, h2, h3]
    | farMatch d l =>
      simp only [encode, Code.token.injEq] at henc
      obtain ⟨rfl, rfl⟩ := henc
      obtain ⟨h1, h2, h3⟩ := far_unpack d l hwf
      have h0 := hpay 0 _ rfl
      have h1' := hpay 1 _ rfl
      have hlow : byteAt (operandBytes (nextBit s).2).tail 0 = farLow d := by
        have := hbyte 1 (by omega)
        rw [h1'] at this
        simpa [byteAt, List.getD, List.getElem?_tail] using this
      simp only [decodeToken, if_true, hbyte 0 (by omega), h0, decodeFlag, h1, h2, h3, hlow]
    | encode => cases henc
    | decode => cases henc
  unfold fetchToken
  simp only [hctl, hi]

/-- A decoder state `u` is in step with an encoder state `e` of an emission that ends in `t`: it has the bits of the
open group still ahead of it, and IN holds from its cursor on what OUT holds from the encoder's cursor on. -/
structure InStep (e t u : State) : Prop where
  group : e.dfCnt = 8 ∨ e.GroupOpen
  fits  : t.oc ≤ e.outCap
  count : u.dfCnt = 8 - e.dfCnt
  bytes : ∀ a, e.oc ≤ a → a < t.oc → u.inByte (u.ic + (a - e.oc)) = t.readOut a
  bits  : ∀ j, j < 8 - e.dfCnt → u.dfAcc.getLsbD j = (t.readOut e.dfPos).getLsbD (e.dfCnt + j)

/-- One token keeps the two in step: the decoder reads the control bit the encoder pushed and finds the payload the
encoder stored, and behind them the two are in step again. -/
theorem InStep.next {e t u : State} {b : Bool} {p : List Byte} {ts : List (Bool × List Byte)} (h : InStep e t u)
    (ht : t = emitAll ((b, p) :: ts) e) :
    (nextBit u).1 = b ∧
    (∀ k v, p[k]? = some v → (nextBit u).2.inByte ((nextBit u).2.ic + k) = v) ∧
    (nextBit u).2.ic + p.length = u.ic + ((outStores p (pushBit b e)).oc - e.oc) ∧
    InStep (outStores p (pushBit b e)) t { (nextBit u).2 with ic := (nextBit u).2.ic + p.length } := by
  obtain ⟨hg, hcap, hcnt, hb, hacc⟩ := h
  have hle : (outStores p (pushBit b e)).oc ≤ t.oc := by rw [ht]; exact emitAll_oc_le ts _
  have hg' := GroupOpen.emitOne b p hg (by omega)
  have hcap' : (outStores p (pushBit b e)).outCap = e.outCap := by rw [outStores_frame, pushBit_outCap]
  have hcnt' : (outStores p (pushBit b e)).dfCnt = if e.dfCnt = 8 then 1 else e.dfCnt + 1 := by
    rw [outStores_frame, pushBit_dfCnt]
  have hpos' : (outStores p (pushBit b e)).dfPos = if e.dfCnt = 8 then e.oc else e.dfPos := by
    rw [outStores_frame, pushBit_dfPos]
  have hacc' : (outStores p (pushBit b e)).dfAcc =
      if e.dfCnt = 8 then bitByte b else e.dfAcc ||| (bitByte b <<< e.dfCnt) := by
    rw [outStores_frame, pushBit_dfAcc]
  have hoc' : (outStores p (pushBit b e)).oc = (if e.dfCnt = 8 then e.oc + 1 else e.oc) + p.length := by
    rw [outStores_oc, pushBit_oc]
  have ht' : t = emitAll ts (outStores p (pushBit b e)) := ht
  have hfin : ∀ j, j < (outStores p (pushBit b e)).dfCnt →
      (t.readOut (outStores p (pushBit b e)).dfPos).getLsbD j = (outStores p (pushBit b e)).dfAcc.getLsbD j := by
    intro j hj
    rw [ht']
    exact readOut_emitAll_openGroup ts _ hg' (by rw [← ht', hcap']; exact hcap) j hj
  have hpay : ∀ k, k < p.length → t.readOut ((if e.dfCnt = 8 then e.oc + 1 else e.oc) + k) = p.getD k 0 := by
    intro k hk
    rw [ht', readOut_emitAll_below _ _ _ (by omega) (Or.inr ?_), readOut_outStores, pushBit_oc, pushBit_outCap,
      if_pos (by omega)]
    · congr 1; omega
    · rw [hpos']
      rcases hg with h | h
      · simp [h]; omega
      · have := h.behind; split <;> omega
  generalize outStores p (pushBit b e) = e' at *
  have hnb : (nextBit u).1 = b ∧ (nextBit u).2.dfCnt = 8 - e'.dfCnt ∧
      (nextBit u).2.ic = u.ic + (if e.dfCnt = 8 then 1 else 0) ∧
      (∀ j, j < 8 - e'.dfCnt → (nextBit u).2.dfAcc.getLsbD j = (t.readOut e'.dfPos).getLsbD (e'.dfCnt + j)) := by
    rw [nextBit_eq]
    by_cases h8 : e.dfCnt = 8
    · simp only [h8, if_true] at hcnt' hpos' hacc' hoc' ⊢
      have hu0 : u.dfCnt = 0 := by omega
      have hbyte : u.inByte u.ic = t.readOut e.oc := by
        have := hb e.oc (Nat.le_refl _) (by omega)
        simpa using this
      rw [if_pos hu0]
      refine ⟨?_, ?_, rfl, ?_⟩
      · have := hfin 0 (by omega)
        rw [hpos', hacc', ← hbyte] at this
        rw [this]; cases b <;> rfl
      · simp only []; omega
      · intro j hj
        simp only [BitVec.getLsbD_ushiftRight, hbyte, hpos', hcnt']
    · simp only [h8, if_false] at hcnt' hpos' hacc' hoc' ⊢
      have hgo := hg.resolve_left h8
      have hc8 := hgo.count
      rw [if_neg (by omega)]
      refine ⟨?_, ?_, rfl, ?_⟩
      · have := hfin e.dfCnt (by omega)
        rw [hpos', hacc', orBit_getLsbD _ (by omega) _ _ hgo.acc, if_pos rfl] at this
        rw [hacc 0 (by omega)]
        exact this
      · simp only []; omega
      · intro j hj
        simp only [BitVec.getLsbD_ushiftRight, hpos', hcnt']
        rw [hacc _ (by omega)]
        congr 1; omega
  obtain ⟨n1, n2, n3, n4⟩ := hnb
  have hin : ∀ a, (nextBit u).2.inByte a = u.inByte a := fun a =>
    inByte_congr (by rw [nextBit_frame]) (by rw [nextBit_frame]) a
  refine ⟨n1, ?_, ?_, ⟨Or.inr hg', by omega, n2, ?_, n4⟩⟩
  · intro k v hk
    obtain ⟨hlt, hv⟩ := List.getElem?_eq_some_iff.1 hk
    rw [hin, n3]
    have := hb ((if e.dfCnt = 8 then e.oc + 1 else e.oc) + k) (by split <;> omega) (by omega)
    rw [hpay k hlt] at this
    rw [show u.ic + (if e.dfCnt = 8 then 1 else 0) + k =
      u.ic + ((if e.dfCnt = 8 then e.oc + 1 else e.oc) + k - e.oc) by split <;> omega, this]
    simp [hk]
  · rw [n3]
    by_cases h8 : e.dfCnt = 8
    · rw [if_pos h8] at hoc' ⊢; omega
    · rw [if_neg h8] at hoc' ⊢; omega
  · intro a ha1 ha2
    have := hb a (by split at hoc' <;> omega) ha2
    rw [← this]
    show (nextBit u).2.inByte _ = _
    rw [hin]
    congr 1
    show (nextBit u).2.ic + p.length + (a - e'.oc) = _
    rw [n3]
    by_cases h8 : e.dfCnt = 8
    · rw [if_pos h8] at hoc' ⊢; omega
    · rw [if_neg h8] at hoc' ⊢; omega

/-! ## Runs -/

/-- One more step in front of a run. -/
theorem run_next (M : Host.Core) (k : Nat) (s t : M.State) (h : M.step s = .next t) : M.run (k + 1) s = M.run k t := by
  simp only [Host.Core.run, h]

/-- One more step behind a run. -/
theorem run_then (M : Host.Core) (k : Nat) (s t u : M.State) (h : M.run k s = .next t) (h2 : M.step t = .next u) :
    M.run (k + 1) s = .next u := by
  induction k generalizing s with
  | zero => cases h; rw [run_next M 0 _ _ h2]; rfl
  | succ k ih =>
    cases hs : M.step s with
    | next x => rw [run_next M _ _ _ hs] at h ⊢; exact ih x h
    | fault x => simp [Host.Core.run, hs] at h
    | refused x => simp [Host.Core.run, hs] at h

end Sys2Proof.Machine
end

