-- ==== Sys2Proof/Laws/PerInstr.lean ====
section
/-! SUPPORT. What holds of every instruction as syntax, one lemma per constructor: the length of its spelling
(30_encoding.md R80). -/

namespace Sys2Proof.Laws.SpellingLength

/-- A well-formed token is spelled by its control bit and 1 to 72 payload bytes, as many as `payloadBytes` says; a
command is spelled by no payload. -/
def Statement (i : Instr) : Prop :=
  i.wellFormed = true →
    match encode i with
    | .token _ payload => i.isToken = true ∧ payload.length = payloadBytes i ∧ 1 ≤ payload.length ∧
        payload.length ≤ Config.maxPayload
    | .command _ => i.isToken = false ∧ payloadBytes i = 0

theorem literal (v : Byte) : Statement (.literal v) := fun _ => ⟨rfl, rfl, by simp, by simp [Config.maxPayload]⟩
theorem terminator : Statement .terminator := fun _ => ⟨rfl, rfl, by decide, by decide⟩
theorem rawRun (raw : List Byte) : Statement (.rawRun raw) := by
  intro h
  have hr := (rawSpellable_iff raw).1 h
  refine ⟨rfl, ?_, ?_, ?_⟩ <;> simp only [payloadBytes, List.length_cons, Config.maxPayload] <;> omega
theorem nearMatch (disp len : Nat) : Statement (.nearMatch disp len) := fun _ => ⟨rfl, rfl, by simp, by simp [Config.maxPayload]⟩
theorem farMatch (disp len : Nat) : Statement (.farMatch disp len) := fun _ => ⟨rfl, rfl, by simp, by simp [Config.maxPayload]⟩
theorem encode : Statement .encode := fun _ => ⟨rfl, rfl⟩
theorem decode : Statement .decode := fun _ => ⟨rfl, rfl⟩

end Sys2Proof.Laws.SpellingLength
end

