-- ==== Sys2Proof/Laws/Runs.lean ====
section
/-! SUPPORT. What ENCODE's loop keeps, and what the pieces of both commands keep of `State.Fits`. -/

namespace Sys2Proof.Machine

/-! ## ENCODE's loop -/

/-- What holds of a state of ENCODE's loop, seen from the state `b` in which the loop began: the bounds of
42_mode_selector.md R118, and which bytes of OUT no turn of the loop has touched. -/
structure EncodeLoopState (b t : State) : Prop where
  count : 1 ≤ t.dfCnt ∧ t.dfCnt ≤ 8
  pend  : t.pend ≤ t.ic
  input : t.ic ≤ t.inLen
  begun : 2 ≤ t.oc
  patch : t.dfPos < t.oc
  above : t.dfCnt = 8 ∨ 2 ≤ t.dfPos
  size  : 8 * t.oc + t.dfCnt ≤ 24 + 9 * (t.ic - t.pend)
  low   : ∀ a, a < 2 → t.readOut a = b.readOut a
  high  : ∀ a, t.oc ≤ a → t.readOut a = b.readOut a

/-- The open group's control byte stays above the header. -/
theorem emitAll_dfPos_above (ts : List (Bool × List Byte)) (s : State) (h : s.dfCnt = 8 ∨ 2 ≤ s.dfPos)
    (ho : 2 ≤ s.oc) : (emitAll ts s).dfCnt = 8 ∨ 2 ≤ (emitAll ts s).dfPos := by
  induction ts generalizing s with
  | nil => exact h
  | cons t ts ih =>
    obtain ⟨b, p⟩ := t
    apply ih
    · right
      rw [outStores_frame]
      show 2 ≤ (pushBit b s).dfPos
      rw [pushBit_dfPos]
      split <;> omega
    · rw [outStores_oc, pushBit_oc]; split <;> omega

theorem EncodeLoopState.next {b t : State} (h : EncodeLoopState b t) (hlt : t.ic < t.inLen) :
    EncodeLoopState b (encodeIteration t) := by
  have hr := stepAdvance_range t hlt
  have hc := stepTokens_cost t
  have hs := emitAll_size (stepTokens t) t
  have hd := emitAll_dfCnt (stepTokens t) t h.count.2
  have hp := stepPend_le t h.pend
  have hle := emitAll_oc_le (stepTokens t) t
  have h1 := h.pend
  have h2 := h.begun
  have h3 := h.size
  have h4 := h.count
  rw [encodeIteration_eq]
  have hro : ∀ a, State.readOut { emitAll (stepTokens t) t with
      ic := t.ic + stepAdvance t, pend := stepPend t, mDisp := (bestMatch t).1, mLen := (bestMatch t).2 } a =
      (emitAll (stepTokens t) t).readOut a := fun _ => rfl
  refine ⟨⟨hd.2 (Or.inl h4.1), hd.1⟩, hp, ?_, ?_, emitAll_dfPos_lt _ _ h.patch,
    emitAll_dfPos_above _ _ h.above h.begun, ?_, ?_, ?_⟩
  · have : (emitAll (stepTokens t) t).inLen = t.inLen := by rw [emitAll_frame]
    show _ ≤ (emitAll (stepTokens t) t).inLen
    rw [this]
    exact hr.2
  · show 2 ≤ (emitAll (stepTokens t) t).oc; omega
  · show 8 * (emitAll (stepTokens t) t).oc + (emitAll (stepTokens t) t).dfCnt ≤ 24 + 9 * (t.ic + stepAdvance t - stepPend t)
    omega
  · intro a ha
    rw [hro, readOut_emitAll_below _ _ _ (by omega) (by rcases h.above with h | h <;> omega)]
    exact h.low a ha
  · intro a ha
    have ha' : (emitAll (stepTokens t) t).oc ≤ a := ha
    rw [hro, readOut_emitAll_beyond _ _ _ h.patch ha']
    exact h.high a (by omega)

@[simp] theorem beginEncode_oc (s : State) : (beginEncode s).oc = 2 := rfl
@[simp] theorem beginEncode_dfCnt (s : State) : (beginEncode s).dfCnt = 8 := rfl
@[simp] theorem beginEncode_dfAcc (s : State) : (beginEncode s).dfAcc = 0 := rfl
@[simp] theorem beginEncode_dfPos (s : State) : (beginEncode s).dfPos = 0 := rfl
@[simp] theorem beginEncode_ic (s : State) : (beginEncode s).ic = 0 := rfl
@[simp] theorem beginEncode_pend (s : State) : (beginEncode s).pend = 0 := rfl
@[simp] theorem beginEncode_inLen (s : State) : (beginEncode s).inLen = s.inLen := rfl
@[simp] theorem beginEncode_outCap (s : State) : (beginEncode s).outCap = s.outCap := rfl

/-- ENCODE begins with the header, big-endian (20_memory.md R41). -/
theorem beginEncode_eq (s : State) : beginEncode s =
    outStores [BitVec.ofNat 8 (s.inLen >>> 8), BitVec.ofNat 8 s.inLen] (startCommand .encode s) := rfl

theorem EncodeLoopState.start (s : State) : EncodeLoopState (beginEncode s) (beginEncode s) := by
  refine ⟨?_, ?_, ?_, ?_, ?_, ?_, ?_, fun _ _ => rfl, fun _ _ => rfl⟩ <;> simp

theorem encodeLoop_state (s : State) (n : Nat) :
    EncodeLoopState (beginEncode s) (encodeLoop n (beginEncode s)) :=
  encodeLoop_keeps (P := EncodeLoopState (beginEncode s)) (fun _ h hlt => h.next hlt) n _ (EncodeLoopState.start s)

theorem closingTokens_cost (s : State) : tokensCost (closingTokens s) = 9 * s.pend + 9 := by
  unfold closingTokens
  rw [tokensCost_append, pendingTokens_cost]
  rfl

theorem finishEncode_oc (s : State) : (finishEncode s).oc = (emitAll (closingTokens s) s).oc := by
  unfold finishEncode complete
  rw [account_frame, endOfInput_eq]
  rfl

theorem finishEncode_readOut (s : State) (a : Nat) :
    (finishEncode s).readOut a = (emitAll (closingTokens s) s).readOut a := by
  apply readOut_congr
  unfold finishEncode complete
  rw [account_frame, endOfInput_eq]
  rfl

/-! ## Widths -/

/-- A token's effect keeps every register inside its width, if the cursors are far enough below theirs. -/
theorem State.Fits.tokenEffect {s : State} (i : Instr) (h : s.Fits) (hw : i.wellFormed = true) (hc : s.CapFits)
    (hi : s.ic + 100 < 2 ^ 32) (ho : s.oc + 100 < 2 ^ 32) : (tokenEffect i s).Fits := by
  cases i with
  | literal v => exact (h.inFetch (by omega)).outStore hc (by simp; omega) v
  | terminator => exact { h with }
  | rawRun raw =>
    have hr := (rawSpellable_iff raw).1 hw
    simp only [Machine.tokenEffect, rawRunToken_eq]
    have h1 : State.Fits { s with ic := s.ic + raw.length, tCnt := 0 } :=
      { h with tCnt_le := Nat.zero_le _, ic_lt := by show s.ic + _ < _; omega }
    exact h1.outStores hc raw (by show s.oc + _ < _; omega)
  | nearMatch d len =>
    have hr := (nearSpellable_iff d len).1 hw
    have h1 : State.Fits { s with tDisp := d, tCnt := len } :=
      { h with tDisp_lt := by show d < _; omega, tCnt_le := by show len ≤ _; omega }
    exact h1.copyBytes hc len (by show s.oc + _ < _; omega)
  | farMatch d len =>
    have hr := (farSpellable_iff d len).1 hw
    have h1 : State.Fits { s with ic := s.ic + 1, tDisp := d, tCnt := len } :=
      { h with tDisp_lt := by show d < _; omega, tCnt_le := by show len ≤ _; omega,
               ic_lt := by show s.ic + 1 < _; omega }
    exact h1.copyBytes hc len (by show s.oc + _ < _; omega)
  | encode => exact h
  | decode => exact h

/-- So does a token with its fetch. -/
theorem State.Fits.runToken {s : State} (h : s.Fits) (hc : s.CapFits) (hi : s.ic + 200 < 2 ^ 32)
    (ho : s.oc + 100 < 2 ^ 32) : (runToken s).Fits := by
  obtain ⟨_, hw, _, _, _⟩ := fetchToken_instr s
  have h1 : (fetchToken s).2.Fits := by
    have hn := h.nextBit (by omega)
    have hic : (Machine.nextBit s).2.ic ≤ s.ic + 1 := by
      rw [nextBit_frame]
      show (if s.dfCnt = 0 then s.ic + 1 else s.ic) ≤ _
      split <;> omega
    unfold fetchToken
    simp only []
    split
    · exact hn.fetchFlag (by omega)
    · exact hn
  have hic := fetchToken_ic s
  have hoc : (fetchToken s).2.oc = s.oc := by rw [fetchToken_frame]
  have hcap : (fetchToken s).2.outCap = s.outCap := by rw [fetchToken_frame]
  exact h1.tokenEffect _ hw (by unfold State.CapFits; rw [hcap]; exact hc) (by rw [hic]; split <;> split <;> omega)
    (by omega)

theorem State.Fits.complete {s : State} (h : s.Fits) : (complete s).Fits := { h with }

theorem State.Fits.account {s : State} (h : s.Fits) : (account s).Fits := by
  have hres : (Machine.account s).resultLen = min s.oc s.outCap := by
    have hi : ∀ (p : Prop) [Decidable p] (d : Condition) (u : State),
        (if p then raise d u else u).oc = u.oc ∧ (if p then raise d u else u).outCap = u.outCap := by
      intro p _ d u
      split <;> simp
    have a1 : (accountOutput (accountInput s)).oc = s.oc := by
      unfold accountOutput accountInput
      simp only [(hi _ _ _).1]
    have a2 : (accountOutput (accountInput s)).outCap = s.outCap := by
      unfold accountOutput accountInput
      simp only [(hi _ _ _).2]
    rw [Machine.account, accountResult_resultLen, a1, a2]
  have h1 := h.oc_lt
  rw [account_frame]
  exact { h with resultLen_lt := by show (Machine.account s).resultLen < _; rw [hres]; omega }

end Sys2Proof.Machine
end

