-- ==== Sys2Proof/Tests/Slice0.lean ====
section
/-! SUPPORT. The model's own tests, their expected results taken from the numbered vectors of 95_test_vectors.md and the
examples of the rules; and, for every statement that has hypotheses, a concrete case that meets them together. -/

namespace Sys2Proof.Tests
-- One theorem after another: the kernel's checks side by side would need a thread's stack each.
set_option Elab.async false
open Sys2Proof.Machine

/-- A state after reset with bytes in IN, their length in `IN_LEN`, and a capacity. -/
def loaded (bytes : List Byte) (cap : Nat) : State :=
  { State.reset with inMem := placeBytes bytes 0 [], inLen := bytes.length, outCap := cap }

/-- A state in which a DECODE is running, `OUT` holding the bytes already produced. -/
def decoding (bytes produced : List Byte) (cap : Nat) : State :=
  { loaded bytes cap with phase := .busy .decode, outMem := placeBytes produced 0 [], oc := produced.length }

/-- The state an outcome answers; the reset state where it answers none. -/
def after : Host.Outcome State Fault Refusal → State
  | .next t => t
  | .fault _ => State.reset
  | .refused _ => State.reset

/-- The first `n` bytes of OUT. -/
def outBytes (n : Nat) (s : State) : List Byte := (List.range n).map s.readOut

/-! ## WellFormed refuses each ill-formed operand (30_encoding.md R76, R77, R78, R88) -/

theorem test_wf_near_disp_16 : (Instr.nearMatch 16 2).wellFormed = false := by decide
theorem test_wf_near_len_1 : (Instr.nearMatch 1 1).wellFormed = false := by decide
theorem test_wf_near_len_6 : (Instr.nearMatch 1 6).wellFormed = false := by decide
theorem test_wf_far_disp_1024 : (Instr.farMatch 1024 3).wellFormed = false := by decide
theorem test_wf_far_len_2 : (Instr.farMatch 16 2).wellFormed = false := by decide
theorem test_wf_far_len_35 : (Instr.farMatch 256 35).wellFormed = false := by decide
theorem test_wf_far_len_34_below_256 : (Instr.farMatch 255 34).wellFormed = false := by decide
theorem test_wf_raw_7 : (Instr.rawRun (List.replicate 7 0#8)).wellFormed = false := by decide
theorem test_wf_raw_72 : (Instr.rawRun (List.replicate 72 0#8)).wellFormed = false := by decide
theorem test_wf_boundaries_accepted : (Instr.nearMatch 0 2).wellFormed = true ∧ (Instr.nearMatch 15 5).wellFormed = true ∧
    (Instr.farMatch 255 33).wellFormed = true ∧ (Instr.farMatch 256 34).wellFormed = true ∧
    (Instr.farMatch 1023 34).wellFormed = true ∧ (Instr.rawRun (List.replicate 8 0#8)).wellFormed = true ∧
    (Instr.rawRun (List.replicate 71 0#8)).wellFormed = true := by decide

/-! ## Decoding words written out from the spec (VD1 to VD19) -/

theorem test_decode_literal : decode (.token false [0b01000001#8]) = .instr (.literal 0x41#8) := by decide
theorem test_decode_literal_1F : decode (.token false [0x1F#8]) = .instr (.literal 0x1F#8) := by decide
theorem test_decode_terminator : decode (.token true [0b00011111#8]) = .instr .terminator := by decide
theorem test_decode_near_VD15 : decode (.token true [0b10010100#8]) = .instr (.nearMatch 4 3) := by decide
theorem test_decode_near_VD17 : decode (.token true [0b10111111#8]) = .instr (.nearMatch 15 5) := by decide
theorem test_decode_near_VD12 : decode (.token true [0b10000000#8]) = .instr (.nearMatch 0 2) := by decide
theorem test_decode_far_VD3 : decode (.token true [0b00000100#8, 0b00000001#8]) = .instr (.farMatch 1 7) := by decide
theorem test_decode_far_VD8 : decode (.token true [0b00111111#8, 0b00101100#8]) = .instr (.farMatch 300 34) := by
  decide
theorem test_decode_far_VD4 : decode (.token true [0x1E#8, 0xFF#8]) = .instr (.farMatch 255 33) := by decide
theorem test_decode_far_VD9 : decode (.token true [0x5F#8, 0xFF#8]) = .instr (.farMatch 767 34) := by decide
theorem test_decode_far_VD11 : decode (.token true [0x7F#8, 0xFF#8]) = .instr (.farMatch 1023 34) := by decide
theorem test_decode_far_VD6 : decode (.token true [0x20#8, 0x00#8]) = .instr (.farMatch 256 3) := by decide
theorem test_decode_raw_VD18 : decode (.token true [0b11000000#8, 1#8, 2#8, 3#8, 4#8, 5#8, 6#8, 7#8, 8#8]) =
    .instr (.rawRun [1#8, 2#8, 3#8, 4#8, 5#8, 6#8, 7#8, 8#8]) := by decide
theorem test_decode_raw_VD19 : decode (.token true (0xFF#8 :: List.replicate 71 0x5A#8)) =
    .instr (.rawRun (List.replicate 71 0x5A#8)) := by decide +kernel
theorem test_decode_commands : decode (.command 0b01#2) = .instr .encode ∧ decode (.command 0b10#2) = .instr .decode ∧
    decode (.command 0b00#2) = .rejected (.noSuchCommand 0#2) ∧
    decode (.command 0b11#2) = .rejected (.noSuchCommand 3#2) := by decide

/-! ## Packing (VP1 to VP13) -/

theorem test_encode_near_VP3_VP4 : encode (.nearMatch 4 3) = .token true [0x94#8] ∧
    encode (.nearMatch 15 5) = .token true [0xBF#8] := by decide
theorem test_encode_far_VP6_VP8_VP10 : encode (.farMatch 1 7) = .token true [0x04#8, 0x01#8] ∧
    encode (.farMatch 255 33) = .token true [0x1E#8, 0xFF#8] ∧
    encode (.farMatch 300 34) = .token true [0x3F#8, 0x2C#8] := by decide
theorem test_encode_terminator_VP13 : encode .terminator = .token true [0x1F#8] := by decide

/-! ## The numbered words of opcode_table.json -/

theorem test_table_rows : decodeTableWord 8 0x1F = some .terminator ∧
    decodeTableWord 8 0x80 = some (.nearMatch 0 2) ∧
    decodeTableWord 8 0xC0 = some (.rawRun (List.replicate 8 0#8)) ∧
    decodeTableWord 8 0x00 = some (.farMatch 0 3) ∧
    decodeTableWord 0 0x00 = some (.literal 0#8) ∧
    decodeTableWord 2 1 = some .encode ∧ decodeTableWord 2 2 = some .decode ∧
    decodeTableWord 8 1 = some .encode ∧ decodeTableWord 8 2 = some .decode := by decide +kernel

/-! ## One step of each instruction -/

/-- R143's example. -/
theorem test_step_literal : (after (step (decoding [0x06#8, 0x41#8] [] 4))).readOut 0 = 0x41#8 ∧
    (after (step (decoding [0x06#8, 0x41#8] [] 4))).ic = 2 ∧ (after (step (decoding [0x06#8, 0x41#8] [] 4))).oc = 1 := by
  decide +kernel
/-- V41: the byte of a Literal is missing. -/
theorem test_step_literal_missing : (after (step (decoding [0x00#8] [] 4))).readOut 0 = 0x00#8 ∧
    (after (step (decoding [0x00#8] [] 4))).ic = 2 := by decide +kernel
/-- R144: nothing is stored, `IC` points just past the flag. -/
theorem test_step_terminator : (after (step (decoding [0x01#8, 0x1F#8, 0xFF#8] [] 4))).terminated = true ∧
    (after (step (decoding [0x01#8, 0x1F#8, 0xFF#8] [] 4))).ic = 2 ∧
    (after (step (decoding [0x01#8, 0x1F#8, 0xFF#8] [] 4))).outMem = [] := by decide +kernel
/-- R145's example: 8 bytes stored, `IC` grows by 9 behind the control byte. -/
theorem test_step_rawRun :
    outBytes 8 (after (step (decoding [0x03#8, 0xC0#8, 1#8, 2#8, 3#8, 4#8, 5#8, 6#8, 7#8, 8#8, 0x1F#8] [] 8))) =
      [1#8, 2#8, 3#8, 4#8, 5#8, 6#8, 7#8, 8#8] ∧
    (after (step (decoding [0x03#8, 0xC0#8, 1#8, 2#8, 3#8, 4#8, 5#8, 6#8, 7#8, 8#8, 0x1F#8] [] 8))).ic = 10 := by
  decide +kernel
/-- R146's example: OUT so far `61 62 63 58`, flag `94`. -/
theorem test_step_nearMatch :
    outBytes 7 (after (step (decoding [0x01#8, 0x94#8] [0x61#8, 0x62#8, 0x63#8, 0x58#8] 8))) =
      [0x61#8, 0x62#8, 0x63#8, 0x58#8, 0x61#8, 0x62#8, 0x63#8] := by decide +kernel
/-- V31's match: displacement 3 with one byte produced, the first two reads invalid. -/
theorem test_step_nearMatch_per_byte :
    outBytes 6 (after (step (decoding [0x01#8, 0xB3#8] [0x41#8] 6))) = [0x41#8, 0#8, 0#8, 0x41#8, 0#8, 0#8] ∧
    (after (step (decoding [0x01#8, 0xB3#8] [0x41#8] 6))).refFault = true := by decide +kernel
/-- R147's example: displacement 1, length 7, over one byte. -/
theorem test_step_farMatch :
    outBytes 8 (after (step (decoding [0x01#8, 0x04#8, 0x01#8] [0x41#8] 8))) = List.replicate 8 0x41#8 ∧
    (after (step (decoding [0x01#8, 0x04#8, 0x01#8] [0x41#8] 8))).refFault = false := by decide +kernel
/-- V27: the flag byte is missing and reads as a FarMatch of displacement 0 and length 3. -/
theorem test_step_farMatch_missing : (after (step (decoding [0x01#8] [] 3))).ic = 3 ∧
    outBytes 3 (after (step (decoding [0x01#8] [] 3))) = [0#8, 0#8, 0#8] ∧
    (after (step (decoding [0x01#8] [] 3))).refFault = true := by decide +kernel
/-- V4. -/
theorem test_encode_V4 :
    outBytes 6 (after (exec .encode (loaded (List.replicate 3 0x41#8) 16))) =
      [0x00#8, 0x03#8, 0x06#8, 0x41#8, 0x81#8, 0x1F#8] ∧
    (after (exec .encode (loaded (List.replicate 3 0x41#8) 16))).resultLen = 6 := by decide +kernel
/-- V17, the clamp. -/
theorem test_encode_V17 :
    outBytes 8 (after (exec .encode (loaded (List.replicate 35 0x41#8) 64))) =
      [0x00#8, 0x23#8, 0x0A#8, 0x41#8, 0x1E#8, 0x01#8, 0x41#8, 0x1F#8] := by decide +kernel
/-- V23: output overflow and a read of a suppressed byte. -/
theorem test_decode_V23 :
    hostRead .err (after (exec .decode (loaded [0x00#8, 0x05#8, 0x06#8, 0x41#8, 0x04#8, 0x01#8, 0x1F#8] 0))) = 0b00100 ∧
    hostRead .status (after (exec .decode (loaded [0x00#8, 0x05#8, 0x06#8, 0x41#8, 0x04#8, 0x01#8, 0x1F#8] 0))) =
      0b1010 := by decide +kernel
/-- V38: the allocator environment denies 8 bytes. -/
theorem test_decode_V38 :
    hostRead .err (after (exec .decode
      { loaded [0x00#8, 0x08#8, 0x06#8, 0x41#8, 0x04#8, 0x01#8, 0x1F#8] 0 with allocDenied := [8] })) = 0b10000 := by
  decide +kernel

/-- Each kind of word runs as the first instruction after reset. -/
theorem test_withFetchWord :
    (after (step (State.reset.withFetchWord 8 0x1F))).terminated = true ∧
    (after (step (State.reset.withFetchWord 8 0x82))).oc = 2 ∧
    (after (step (State.reset.withFetchWord 8 0xC0))).oc = 8 ∧
    (after (step (State.reset.withFetchWord 8 0x00))).oc = 3 ∧
    (after (step (State.reset.withFetchWord 0 0x00))).oc = 1 ∧
    (after (step (State.reset.withFetchWord 2 1))).oc = 4 ∧
    (after (step (State.reset.withFetchWord 2 2))).ic = 2 := by decide +kernel

/-! ## Witnesses: a concrete case that meets all hypotheses of a statement together, each clause at a boundary value -/

/-- The outcome is a next state. -/
def isNext : Host.Outcome State Fault Refusal → Bool
  | .next _ => true
  | .fault _ => false
  | .refused _ => false

theorem eq_next_of_isNext {o : Host.Outcome State Fault Refusal} (h : isNext o = true) : o = .next (after o) := by
  cases o with
  | next t => rfl
  | fault r => simp [isNext] at h
  | refused r => simp [isNext] at h

/-- A state whose host has one access to make. -/
def withAccess (a : HostAccess) (s : State) : State := { s with host := [a] }

/-- A state after reset with IN holding `8 * 0x41` and room for any encoding of it. -/
def eightA : State := loaded (List.replicate 8 0x41#8) 13
/-- V7's container: the encoding of `8 * 0x41`. -/
def eightAContainer : List Byte := [0x00#8, 0x08#8, 0x06#8, 0x41#8, 0x04#8, 0x01#8, 0x1F#8]
/-- An ENCODE that has just begun. -/
def encoding (bytes : List Byte) (cap : Nat) : State := beginEncode (loaded bytes cap)

theorem witness_DecodeOfEncodeIsIdentity : (Instr.nearMatch 15 5).wellFormed = true ∧
    (Instr.farMatch 1023 34).wellFormed = true ∧ (Instr.farMatch 255 33).wellFormed = true ∧
    (Instr.rawRun (List.replicate 71 0xFF#8)).wellFormed = true := by decide
theorem witness_EncodeOfDecodedTokenIsItsPayload :
    payloadBytes (decodeToken true [0x3F#8, 0x2C#8]).1 ≤ [0x3F#8, 0x2C#8].length ∧
    payloadBytes (decodeToken true (0xFF#8 :: List.replicate 71 0#8)).1 ≤ (0xFF#8 :: List.replicate 71 0#8).length ∧
    payloadBytes (decodeToken false [0xC0#8]).1 ≤ [0xC0#8].length := by decide +kernel
/-- The classes meet at `1E | 1F | 20`, `7F | 80`, `BF | C0` and end at `FF`. -/
theorem witness_FlagByteSelectsTokenAndOperands :
    (decodeToken true [0x1F#8, 0x2C#8]).1 = .terminator ∧
    (decodeToken true [0x1E#8, 0x2C#8]).1 = .farMatch 44 33 ∧ (decodeToken true [0x20#8, 0x2C#8]).1 = .farMatch 300 3 ∧
    (decodeToken true [0x00#8, 0x2C#8]).1 = .farMatch 44 3 ∧ (decodeToken true [0x7F#8, 0x2C#8]).1 = .farMatch 812 34 ∧
    (decodeToken true [0x80#8]).1 = .nearMatch 0 2 ∧ (decodeToken true [0xBF#8]).1 = .nearMatch 15 5 ∧
    (decodeToken true (0xC0#8 :: List.replicate 8 7#8)).1 = .rawRun (List.replicate 8 7#8) ∧
    (decodeToken true (0xFF#8 :: List.replicate 71 7#8)).1 = .rawRun (List.replicate 71 7#8) := by decide +kernel
/-- The last address below `OUT_CAP` and the first at it. -/
theorem witness_LiteralPassesOneByte :
    (decoding [] [0x41#8] 2).oc < (decoding [] [0x41#8] 2).outCap ∧
    outBytes 2 (after (exec (.literal 0x42#8) (decoding [] [0x41#8] 2))) = [0x41#8, 0x42#8] ∧
    (after (exec (.literal 0x42#8) (decoding [] [0x41#8] 1))).outMem = (decoding [] [0x41#8] 1).outMem := by
  decide +kernel
/-- With input left behind the Terminator: `INPUT_UNDERFLOW` is what accounting makes of it. -/
theorem witness_TerminatorEndsTheLoop :
    let s := decoding [0x01#8, 0x1F#8, 0xFF#8] [] 0
    s.host = [] ∧ s.phase = .busy .decode ∧ (after (step (after (step s)))).err.inputUnderflow = true := by
  decide +kernel
/-- Byte `k = 0` fits, byte `k = 1` does not, the byte below the run stays. -/
theorem witness_RawRunPassesItsBytes :
    outBytes 2 (after (exec (.rawRun [1#8, 2#8, 3#8, 4#8, 5#8, 6#8, 7#8, 8#8]) (decoding [] [0x41#8] 2))) =
      [0x41#8, 1#8] ∧
    Memory.lookup (after (exec (.rawRun [1#8, 2#8, 3#8, 4#8, 5#8, 6#8, 7#8, 8#8]) (decoding [] [0x41#8] 2))).outMem 2 =
      none := by decide +kernel
/-- Displacement 0, displacement `OC`, displacement `OC + 1`, and a source that was suppressed. -/
theorem witness_NearMatchCopiesFromTheWindow :
    outBytes 3 (after (exec (.nearMatch 0 2) (decoding [] [0x41#8] 3))) = [0x41#8, 0#8, 0#8] ∧
    (after (exec (.nearMatch 1 2) (decoding [] [0x41#8] 3))).refFault = false ∧
    outBytes 3 (after (exec (.nearMatch 2 2) (decoding [] [0x41#8] 3))) = [0x41#8, 0#8, 0x41#8] ∧
    (after (exec (.nearMatch 2 2) (decoding [] [0x41#8] 3))).refFault = true ∧
    (after (exec (.nearMatch 1 2) (decoding [] [0x41#8] 1))).refFault = true ∧
    (after (exec (.nearMatch 1 2) (decoding [] [0x41#8] 2))).oc = 3 := by decide +kernel
/-- R13: `T_CNT` holds the bytes still to copy, so two of three are left after one. -/
theorem test_tCnt_counts_down : (copyByte { decoding [] [0x41#8] 4 with tDisp := 1, tCnt := 3 }).tCnt = 2 ∧
    (after (exec (.farMatch 1 3) (decoding [] [0x41#8] 4))).tCnt = 0 := by decide +kernel
theorem witness_FarMatchCopiesFromTheWindow :
    outBytes 4 (after (exec (.farMatch 0 3) (decoding [] [0x41#8] 4))) = [0x41#8, 0#8, 0#8, 0#8] ∧
    (after (exec (.farMatch 1 3) (decoding [] [0x41#8] 4))).refFault = false ∧
    (after (exec (.farMatch 1 3) (decoding [] [0x41#8] 4))).ic = 1 ∧
    (after (exec (.farMatch 2 3) (decoding [] [0x41#8] 4))).refFault = true ∧
    (after (exec (.farMatch 1 3) (decoding [] [0x41#8] 1))).refFault = true ∧
    (after (exec (.farMatch 1 3) (decoding [] [0x41#8] 2))).oc = 4 := by decide +kernel
/-- `d = OC` and `OC + len = OUT_CAP`, both at their bounds. -/
theorem witness_MatchRepeatsLastBytesCyclically :
    1 ≤ 2 ∧ 2 ≤ (decoding [] [0x41#8, 0x42#8] 7).oc ∧
    (decoding [] [0x41#8, 0x42#8] 7).oc + 5 ≤ (decoding [] [0x41#8, 0x42#8] 7).outCap ∧
    outBytes 7 (after (exec (.nearMatch 2 5) (decoding [] [0x41#8, 0x42#8] 7))) =
      [0x41#8, 0x42#8, 0x41#8, 0x42#8, 0x41#8, 0x42#8, 0x41#8] := by decide +kernel
/-- A DECODE step that raises `REF_FAULT`, one that does not, and an ENCODE step. -/
theorem witness_NoTokenOrEncoderStepReadsAFlag :
    let a := decoding [0x01#8, 0xB3#8] [0x41#8] 6
    let b := decoding [0x00#8, 0x41#8] [] 6
    let c := encoding [0x41#8] 6
    (a.host = [] ∧ a.phase = .busy .decode ∧ a.terminated = false ∧ a.ic < a.inLen ∧
      isNext (step { a with refFault := false }) = true ∧ (after (step { a with refFault := false })).refFault = true) ∧
    (b.host = [] ∧ b.phase = .busy .decode ∧ b.terminated = false ∧ b.ic < b.inLen ∧
      isNext (step { b with refFault := false }) = true ∧ (after (step { b with refFault := false })).refFault = false) ∧
    (c.host = [] ∧ c.phase = .busy .encode ∧ c.ic < c.inLen ∧ isNext (step { c with refFault := false }) = true) := by
  decide +kernel
theorem witness_StepRunsTheDecodedToken :
    let s := decoding [0x01#8, 0x3F#8, 0x2C#8] [0x41#8] 6
    let s1 := (nextBit s).2
    s.host = [] ∧ s.phase = .busy .decode ∧ s.terminated = false ∧ s.ic < s.inLen ∧
    (Instr.farMatch 300 34).wellFormed = true ∧ encode (.farMatch 300 34) = .token true [0x3F#8, 0x2C#8] ∧
    nextBit s = (true, s1) ∧ s1.inByte (s1.ic + 0) = 0x3F#8 ∧ s1.inByte (s1.ic + 1) = 0x2C#8 := by decide +kernel
/-- Every value of the field, and one value with bits above it. -/
theorem witness_StepMakesTheCommandWrite :
    (1#32).toNat % 4 = 1 ∧ (2#32).toNat % 4 = 2 ∧ (0#32).toNat % 4 = 0 ∧ (3#32).toNat % 4 = 3 ∧
    (0xFFFFFFFC#32).toNat % 4 = 0 ∧ (withAccess (.writeReg .cmd 1#32) State.reset).host = [.writeReg .cmd 1#32] ∧
    (after (step (withAccess (.writeReg .cmd 3#32) State.reset))).refused = true ∧
    (after (step (withAccess (.writeReg .cmd 0#32) (decoding [] [] 0)))).refused = false := by decide +kernel
/-- The largest accepted lengths, and for each test the smallest refused one. -/
theorem witness_CommandWritePassesTheAcceptanceTest :
    let enc := withAccess (.writeReg .cmd 1#32) { State.reset with inLen := 0xFFFF, outCap := 0x00FFFFFF }
    let dec := withAccess (.writeReg .cmd 2#32) { State.reset with inLen := 0x00FFFFFF }
    enc.isBusy = false ∧ enc.host = [.writeReg .cmd 1#32] ∧ enc.inLen ≤ 0xFFFF ∧ enc.outCap ≤ 0x00FFFFFF ∧
    dec.isBusy = false ∧ dec.host = [.writeReg .cmd 2#32] ∧ dec.inLen ≤ 0x00FFFFFF ∧
    (after (step (withAccess (.writeReg .cmd 1#32) { State.reset with inLen := 0x10000 }))).refused = true ∧
    (after (step (withAccess (.writeReg .cmd 1#32) { State.reset with outCap := 0x01000000 }))).refused = true ∧
    (after (step (withAccess (.writeReg .cmd 2#32) { State.reset with inLen := 0x01000000 }))).refused = true ∧
    (after (step (withAccess (.writeReg .cmd 0#32) State.reset))).refused = true ∧
    (after (step (withAccess (.writeReg .cmd 3#32) State.reset))).refused = true := by decide +kernel
/-- Over by the Terminator with input left, and by exhaustion with none. -/
theorem witness_DecodeLoopEndsAtTerminatorOrExhaustion :
    let a := { decoding [0x1F#8] [] 0 with terminated := true }
    let b := decoding [] [] 0
    (a.host = [] ∧ a.phase = .busy .decode ∧ a.terminated = true ∧ a.ic < a.inLen) ∧
    (b.host = [] ∧ b.phase = .busy .decode ∧ b.terminated = false ∧ b.inLen ≤ b.ic) := by decide +kernel
theorem witness_StepOfRunningEncodeAdvances :
    let a := encoding [0x41#8] 6
    let b := after (step a)
    (a.host = [] ∧ a.phase = .busy .encode ∧ a.ic < a.inLen ∧ isNext (step a) = true) ∧
    (b.host = [] ∧ b.phase = .busy .encode ∧ ¬ b.ic < b.inLen ∧ isNext (step b) = true) := by decide +kernel
/-- At the first byte of the input there is no candidate. -/
theorem witness_LiteralDecisionEmitsNothing :
    let a := encoding [0x41#8] 6
    a.host = [] ∧ a.phase = .busy .encode ∧ a.ic < a.inLen ∧ select (bestMatch a).1 (bestMatch a).2 = .lit := by
  decide +kernel
/-- A near match behind four pending literals (R101's example), and a far match behind one. -/
theorem witness_MatchStepEmitsPendingLiteralsThenTheMatch :
    let a := { encoding [0x61#8, 0x62#8, 0x63#8, 0x58#8, 0x61#8, 0x62#8, 0x63#8] 16 with ic := 4, pend := 4 }
    let b := { encoding (List.replicate 8 0x41#8) 16 with ic := 1, pend := 1 }
    (a.host = [] ∧ a.phase = .busy .encode ∧ a.ic < a.inLen ∧
      select (bestMatch a).1 (bestMatch a).2 = .near 4 3 ∧
      (List.range 6).map (fun k => (after (step a)).readOut (2 + k)) = [0x10#8, 0x61#8, 0x62#8, 0x63#8, 0x58#8, 0x94#8]) ∧
    (b.host = [] ∧ b.phase = .busy .encode ∧ b.ic < b.inLen ∧
      select (bestMatch b).1 (bestMatch b).2 = .far 1 7 ∧
      (List.range 4).map (fun k => (after (step b)).readOut (2 + k)) = [0x02#8, 0x41#8, 0x04#8, 0x01#8]) := by
  decide +kernel
theorem witness_EndOfInputEmitsPendingLiteralsThenTheTerminator :
    let a := { encoding [0x41#8] 16 with ic := 1, pend := 1 }
    a.host = [] ∧ a.phase = .busy .encode ∧ a.inLen ≤ a.ic ∧
    (List.range 3).map (fun k => (after (step a)).readOut (2 + k)) = [0x02#8, 0x41#8, 0x1F#8] := by decide +kernel
theorem witness_IdleOrDoneEngineWaits : State.reset.host = [] ∧ State.reset.phase = .idle ∧
    (after (exec .encode State.reset)).host = [] ∧ (after (exec .encode State.reset)).phase = .done := by decide +kernel
/-- Both sides of the equivalence, for each kind of access. -/
theorem witness_StepStopsOnlyOnAHostBreach :
    isNext (step (withAccess (.readReg .status) (decoding [] [] 0))) = true ∧
    isNext (step (withAccess (.writeReg .cmd 1#32) (decoding [] [] 0))) = true ∧
    isNext (step (withAccess (.readReg .err) (decoding [] [] 0))) = false ∧
    isNext (step (withAccess (.writeIn 0#24 0#8) (decoding [] [] 0))) = false ∧
    isNext (step (withAccess (.writeReg .inLen 1#32) (decoding [] [] 0))) = false ∧
    isNext (step (withAccess (.writeReg .status 1#32) (decoding [] [] 0))) = false ∧
    isNext (step (withAccess (.writeReg .inLen 1#32) State.reset)) = true ∧
    isNext (step (withAccess (.writeReg .status 1#32) State.reset)) = true ∧
    isNext (step (withAccess (.readOut 0xFFFFFF#24) State.reset)) = true := by decide +kernel
/-- The last address of the space; a byte beside it stays. -/
theorem witness_OnlyTheHostWritesIN :
    let s := withAccess (.writeIn 0xFFFFFF#24 0x41#8) (loaded [0x42#8] 0)
    s.host = [.writeIn 0xFFFFFF#24 0x41#8] ∧ s.isBusy = false ∧ isNext (step s) = true ∧
    (after (step s)).inMem ≠ s.inMem ∧ (after (step s)).readIn 0xFFFFFF = 0x41#8 ∧
    (after (step s)).readIn 0 = 0x42#8 := by decide +kernel
/-- A store at `OUT_CAP` itself, and a DECODE whose buffer is smaller than the old one. -/
theorem witness_NoStoreAtOrAboveCapacity :
    let s := decoding [0x00#8, 0x41#8] [] 0
    let u := withAccess (.writeReg .cmd 2#32) (loaded [0#8, 1#8, 0x00#8, 0x41#8, 0x42#8] 9)
    isNext (step s) = true ∧ (after (step s)).outCap ≤ 0 ∧ (after (step s)).oc = 1 ∧
    isNext (step u) = true ∧ (after (step u)).outCap ≤ 1 ∧ (after (step u)).oc = 2 := by decide +kernel
theorem witness_CursorsNeverMoveBack : (decoding [0x01#8, 0x1F#8] [0x41#8] 6).isBusy = true ∧
    isNext (step (decoding [0x01#8, 0x1F#8] [0x41#8] 6)) = true := by decide +kernel
/-- Each kind of condition, raised before an accounting step. -/
theorem witness_NothingClearsAFlagWhileBusy :
    let s := { decoding [] [] 0 with refFault := true, refused := true, err := ⟨true, true, true, true, true⟩ }
    s.isBusy = true ∧ isNext (step s) = true ∧ s.raised .refFault = true ∧ s.raised .refused = true ∧
    s.raised .inputOverflow = true ∧ s.raised .inputUnderflow = true ∧ s.raised .outputOverflow = true ∧
    s.raised .outputUnderflow = true ∧ s.raised .allocationFailed = true := by decide +kernel
/-- R201: the host writes 0 to `ERR` and to `STATUS` after an ENCODE that overflowed, and clears no flag. -/
theorem test_readOnly_write_clears_no_flag :
    let s := after (exec .encode (loaded (List.replicate 8 0x41#8) 6))
    hostRead .err (after (step (withAccess (.writeReg .err 0#32) s))) = 0b00100 ∧
    hostRead .status (after (step (withAccess (.writeReg .status 0#32) s))) = 2 := by decide +kernel
/-- A write of each register that takes one, with the largest value, and a write of one that takes none. -/
theorem witness_ResultsStableUntilNextCommandWrite :
    let d := after (exec .encode eightA)
    let s := withAccess (.writeReg .inLen 0xFFFFFFFF#32) d
    let u := withAccess (.writeReg .resultLen 0#32) d
    s.isBusy = false ∧ (∀ v rest, s.host ≠ .writeReg .cmd v :: rest) ∧
    (after (step s)).inLen = 0xFFFFFFFF ∧ (after (step s)).outCap = 13 ∧ (after (step s)).resultLen = 7 ∧
    (after (step (withAccess (.writeReg .outCap 0xFFFFFFFF#32) d))).outCap = 0xFFFFFFFF ∧
    u.isBusy = false ∧ (∀ v rest, u.host ≠ .writeReg .cmd v :: rest) ∧
    (∀ v rest, u.host ≠ .writeReg .inLen v :: rest) ∧ (∀ v rest, u.host ≠ .writeReg .outCap v :: rest) ∧
    (∀ a v rest, u.host ≠ .writeIn a v :: rest) ∧ (after (step u)).resultLen = 7 := by
  refine ⟨by decide +kernel, fun v rest h => ?_, by decide +kernel, by decide +kernel, by decide +kernel,
    by decide +kernel, by decide +kernel, fun v rest h => ?_, fun v rest h => ?_, fun v rest h => ?_,
    fun a v rest h => ?_, by decide +kernel⟩ <;> exact absurd (List.cons.inj h).1 (by simp)
theorem witness_NoStepReturnsToIdle :
    isNext (step State.reset) = true ∧ (after (step State.reset)).phase = .idle := by decide +kernel

/-- One call and eight calls. -/
theorem witness_ControlBitsComeOutLowToHigh : (decoding [0x26#8] [] 0).dfCnt = 0 ∧
    (nextBits 1 (decoding [0x26#8] [] 0)).1 = [false] ∧
    (nextBits 8 (decoding [0x26#8] [] 0)).1 = [false, true, true, false, false, true, false, false] := by decide +kernel
/-- One push and eight, the control byte's address inside the capacity and at it. -/
theorem witness_PushedBitsPackLowToHigh :
    (encoding [] 3).dfCnt = 8 ∧ (encoding [] 3).oc < (encoding [] 3).outCap ∧
    ¬ (encoding [] 2).oc < (encoding [] 2).outCap ∧
    (pushBits [true] (encoding [] 3)).readOut 2 = 0x01#8 ∧
    (pushBits [false, true, true, false, false, true, false, false] (encoding [] 3)).readOut 2 = 0x26#8 := by
  decide +kernel
/-- Nine tokens, so that a second control byte is opened. -/
def nineTokens : List (Bool × List Byte) :=
  List.replicate 7 (false, [0x41#8]) ++ [(true, [0x04#8, 0x01#8]), (true, [0x1F#8])]
/-- What they are in the stream. -/
def nineTokenBytes : List Byte :=
  [0x80#8, 0x41#8, 0x41#8, 0x41#8, 0x41#8, 0x41#8, 0x41#8, 0x41#8, 0x04#8, 0x01#8, 0x01#8, 0x1F#8]
theorem witness_CodecMirrorsItself :
    let s := encoding [] 14
    let t := emitAll nineTokens s
    let u := decoding nineTokenBytes [] 0
    s.dfCnt = 8 ∧ t.oc ≤ s.outCap ∧ u.dfCnt = 0 ∧ u.ic + (t.oc - s.oc) ≤ u.inLen ∧
    (∀ a, a < t.oc - s.oc → u.readIn (u.ic + a) = t.readOut (s.oc + a)) := by decide +kernel

/-- The farthest candidate of the window, equal in one byte. -/
theorem witness_FinderReportsNearestLongestMatch :
    let s := { State.reset with inMem := [(0, 0x41#8), (1, 0x42#8), (1023, 0x41#8)], inLen := 1024, ic := 1023 }
    s.ic < s.inLen ∧ IsCommonPrefix s.readIn (s.ic - 1023) s.ic (min 34 (s.inLen - s.ic)) 1 ∧
    1 ≤ 1023 ∧ 1023 ≤ s.ic := by
  refine ⟨by decide, ⟨by decide, fun j hj => ?_, fun h => absurd h (by decide)⟩, by decide, by decide⟩
  have : j = 0 := by omega
  subst this
  decide +kernel
/-- Where the overlapping candidate of displacement 1 agrees up to the cap. -/
theorem witness_FinderReportsNearestLongestMatch_overlap :
    let s := { loaded (List.replicate 40 0x41#8) 0 with ic := 1 }
    s.ic < s.inLen ∧ bestMatch s = (1, 34) := by decide +kernel
/-- At the first byte, where the window is empty, and behind one other byte. -/
theorem witness_FinderWithNoCandidateAnswersZero :
    let s := { loaded [0x41#8, 0x42#8] 0 with ic := 1 }
    s.ic < s.inLen ∧ (∀ e, 1 ≤ e → e ≤ s.ic → e ≤ 1023 → s.readIn (s.ic - e) ≠ s.readIn s.ic) ∧
    (loaded [0x41#8] 0).ic < (loaded [0x41#8] 0).inLen := by
  refine ⟨by decide, fun e h1 h2 _ => ?_, by decide⟩
  have h3 : e ≤ 1 := h2
  have : e = 1 := by omega
  subst this
  decide +kernel
/-- Where the clauses meet: lengths 1, 2, 3, 5, 6, 33, 34 against displacements 0, 1, 15, 16, 255, 256, 1023. -/
theorem witness_SelectorChoosesByTheOrderedTests :
    select 15 2 = .near 15 2 ∧ select 1 5 = .near 1 5 ∧ select 15 6 = .far 15 6 ∧ select 1 34 = .far 1 33 ∧
    select 16 3 = .far 16 3 ∧ select 255 34 = .far 255 33 ∧ select 0 3 = .far 0 3 ∧ select 256 34 = .far 256 34 ∧
    select 1023 3 = .far 1023 3 ∧ select 16 2 = .lit ∧ select 0 2 = .lit ∧ select 5 1 = .lit ∧ select 0 0 = .lit := by
  decide
theorem witness_SelectedMatchesAreSpellable :
    let s := { loaded (List.replicate 40 0x41#8) 0 with ic := 1 }
    s.ic < s.inLen ∧ select (bestMatch s).1 (bestMatch s).2 = .far 1 33 := by decide +kernel

theorem witness_RaiseSetsOneBitOnly : Condition.refused ≠ Condition.refFault := by decide
theorem reset_Fits : State.reset.Fits := by constructor <;> decide
theorem witness_HostReadsStatusErrAndCursors :
    ({ State.reset with ic := 2 ^ 32 - 1, err := ⟨true, true, true, true, true⟩, refFault := true } : State).Fits := by
  constructor <;> decide

theorem witness_AcceptedEncodeCompletes :
    let s := { State.reset with inLen := 0xFFFF, outCap := 0x00FFFFFF }
    s.isBusy = false ∧ s.inLen ≤ 0xFFFF ∧ s.outCap ≤ 0x00FFFFFF ∧
    (after (exec .encode eightA)).oc ≤ eightA.outCap ∧
    outBytes 7 (after (exec .encode eightA)) = eightAContainer ∧
    (after (exec .encode (loaded (List.replicate 8 0x41#8) 6))).err.outputOverflow = true ∧
    (after (exec .encode (loaded (List.replicate 8 0x41#8) 7))).err.outputOverflow = false := by decide +kernel
theorem witness_EncodeRefusedOrIgnored : (encoding [] 3).isBusy = true ∧
    0xFFFF < ({ State.reset with inLen := 0x10000 } : State).inLen ∧
    0x00FFFFFF < ({ State.reset with outCap := 0x01000000 } : State).outCap ∧ State.reset.isBusy = false := by decide
theorem witness_EncodingSizeBounds : eightA.isBusy = false ∧ eightA.inLen ≤ 0xFFFF ∧ eightA.outCap ≤ 0x00FFFFFF ∧
    isNext (exec .encode eightA) = true ∧ (after (exec .encode State.reset)).oc = 4 := by decide +kernel
/-- Another capacity, other registers, and other bytes of IN beyond `IN_LEN`. -/
theorem witness_EncodingDependsOnInputOnly :
    let s' := { loaded (List.replicate 9 0x41#8) 7 with inLen := 8, ic := 5, pend := 3, phase := .done }
    eightA.isBusy = false ∧ s'.isBusy = false ∧
    (eightA.inLen = s'.inLen ∧ ∀ a, a < eightA.inLen → eightA.readIn a = s'.readIn a) ∧
    eightA.inLen ≤ 0xFFFF ∧ eightA.outCap ≤ 0x00FFFFFF ∧ s'.outCap ≤ 0x00FFFFFF ∧
    isNext (exec .encode eightA) = true ∧ isNext (exec .encode s') = true ∧
    (after (exec .encode eightA)).oc ≤ eightA.outCap ∧ (after (exec .encode eightA)).oc ≤ s'.outCap := by decide +kernel
/-- Three bytes, and the repeated single byte that no match can use. -/
theorem witness_IncompressibleInputHasTheLiteralSize :
    let s := loaded [0x41#8, 0x42#8, 0x41#8] 16
    s.isBusy = false ∧ s.inLen ≤ 0xFFFF ∧ s.outCap ≤ 0x00FFFFFF ∧ isNext (exec .encode s) = true ∧
    (after (exec .encode s)).oc = 7 ∧
    (∀ j, j < s.inLen → j + 1 < s.inLen → ∀ i, i < j →
      ¬ (s.readIn i = s.readIn j ∧ s.readIn (i + 1) = s.readIn (j + 1))) := by decide +kernel

theorem witness_GrantedDecodeCompletes :
    let s := { loaded [0x00#8, 0x08#8] 0 with inLen := 0x00FFFFFF }
    s.isBusy = false ∧ s.inLen ≤ 0x00FFFFFF ∧ s.allocGrant s.declaredSize = true ∧
    8 = 256 * (s.inByte 0).toNat + (s.inByte 1).toNat ∧
    outBytes 8 (after (exec .decode (loaded eightAContainer 0))) = List.replicate 8 0x41#8 := by decide +kernel
theorem witness_DeniedDecodeCompletes :
    let s := { loaded [0xFF#8, 0xFF#8] 0 with allocDenied := [0xFFFF] }
    let z := { State.reset with allocDenied := [0] }
    (s.isBusy = false ∧ s.inLen ≤ 0x00FFFFFF ∧ s.allocGrant s.declaredSize = false) ∧
    (z.isBusy = false ∧ z.inLen ≤ 0x00FFFFFF ∧ z.allocGrant z.declaredSize = false) := by decide +kernel
/-- No byte (V33) and one byte (V34). -/
theorem witness_DecodeOfLessThanAHeaderCompletes :
    let s := loaded [0x01#8] 0
    (State.reset.isBusy = false ∧ State.reset.inLen < 2 ∧ State.reset.allocGrant State.reset.declaredSize = true) ∧
    (s.isBusy = false ∧ s.inLen < 2 ∧ s.allocGrant s.declaredSize = true ∧ s.declaredSize = 0x0100#16) := by
  decide +kernel
theorem witness_DecodeRefusedOrIgnored : (decoding [] [] 3).isBusy = true ∧ State.reset.isBusy = false ∧
    0x00FFFFFF < ({ State.reset with inLen := 0x01000000 } : State).inLen := by decide
theorem witness_DecodeCursorBounds : (loaded eightAContainer 0).isBusy = false ∧
    (loaded eightAContainer 0).inLen ≤ 0x00FFFFFF ∧ isNext (exec .decode (loaded eightAContainer 0)) = true := by
  decide +kernel
theorem witness_DecodingDependsOnInputOnly :
    let s := loaded eightAContainer 0
    let s' := { decoding eightAContainer [0x5A#8] 9 with phase := .done, ic := 5, flag := 1#8, allocDenied := [9] }
    s.isBusy = false ∧ s'.isBusy = false ∧ (s.inLen = s'.inLen ∧ ∀ a, a < s.inLen → s.readIn a = s'.readIn a) ∧
    s.inLen ≤ 0x00FFFFFF ∧ s.allocGrant s.declaredSize = s'.allocGrant s'.declaredSize ∧
    isNext (exec .decode s) = true ∧ isNext (exec .decode s') = true := by decide +kernel
theorem witness_EmptyErrMeansExactCursors :
    let s := loaded eightAContainer 0
    s.isBusy = false ∧ s.inLen ≤ 0x00FFFFFF ∧ isNext (exec .decode s) = true ∧
    (after (exec .decode s)).err = ErrFlags.none := by decide +kernel
theorem witness_DecodeOfEncodingGivesTheInputBack :
    let t := after (exec .encode eightA)
    let s' := loaded eightAContainer 0
    eightA.isBusy = false ∧ eightA.inLen ≤ 0xFFFF ∧
    eightA.inLen + (eightA.inLen + 1 + 7) / 8 + 3 ≤ eightA.outCap ∧ eightA.outCap ≤ 0x00FFFFFF ∧
    isNext (exec .encode eightA) = true ∧ s'.isBusy = false ∧ s'.inLen = t.resultLen ∧
    (∀ a, a < t.resultLen → s'.readIn a = t.readOut a) ∧
    s'.allocGrant (BitVec.ofNat 16 eightA.inLen) = true := by decide +kernel
/-- Whose loop ends by the Terminator after three steps. -/
theorem witness_DecodeIsItsTokenSteps :
    let s := loaded eightAContainer 0
    s.host = [] ∧ s.isBusy = false ∧ s.inLen ≤ 0x00FFFFFF := by decide +kernel
theorem witness_EncodeIsItsSelectorSteps : eightA.host = [] ∧ eightA.isBusy = false ∧ eightA.inLen ≤ 0xFFFF ∧
    eightA.outCap ≤ 0x00FFFFFF := by decide +kernel
/-- A step that changes the state, from a state that meets the invariant while a DECODE runs. -/
theorem witness_EveryStepKeepsTheInvariant :
    let s := beginDecode (loaded eightAContainer 0)
    s.Inv ∧ step s = .next (after (step s)) ∧ (after (step s)).oc = 1 := by
  refine ⟨⟨?_, ?_⟩, eq_next_of_isNext (by decide +kernel), by decide +kernel⟩
  · constructor <;> decide +kernel
  · show State.DecodeRunning _
    constructor <;> decide +kernel

end Sys2Proof.Tests
end

section
/-! The invariant of the machine (10_state.md R13, R16, R17, R22): what each piece of a command keeps of `State.Fits`
and of the running command's bounds, and that every step keeps both. -/

namespace Sys2Proof.Machine

/-! ## The running command's bounds, by phase -/

theorem running_of_notBusy {s : State} (h : s.isBusy = false) : s.Running := by
  unfold State.Running
  rcases isBusy_eq_false s h with hp | hp <;> simp only [hp]

theorem isBusy_eq_true {s : State} (h : s.isBusy = true) : s.phase = .busy .encode ∨ s.phase = .busy .decode := by
  unfold State.isBusy at h
  cases hp : s.phase with
  | busy c => cases c <;> simp
  | idle => simp [hp] at h
  | done => simp [hp] at h

theorem running_encode_iff {s : State} (hp : s.phase = .busy .encode) : s.Running ↔ s.EncodeRunning := by
  simp only [State.Running, hp]

theorem running_decode_iff {s : State} (hp : s.phase = .busy .decode) : s.Running ↔ s.DecodeRunning := by
  simp only [State.Running, hp]

/-- Outside a running command the invariant is that the registers fit. -/
theorem State.Fits.inv_of_notBusy {s : State} (h : s.Fits) (hb : s.isBusy = false) : s.Inv :=
  ⟨h, running_of_notBusy hb⟩

theorem State.Fits.inv_of_done {s : State} (h : s.Fits) (hp : s.phase = .done) : s.Inv :=
  h.inv_of_notBusy (by simp only [State.isBusy, hp])

/-- The pending accesses of the host are no part of the invariant. -/
theorem State.Inv.dropAccess {s : State} (h : s.Inv) (rest : List HostAccess) :
    State.Inv { s with host := rest } := by
  obtain ⟨hf, hr⟩ := h
  refine ⟨{ hf with }, ?_⟩
  cases hb : s.isBusy with
  | false => exact running_of_notBusy hb
  | true =>
    rcases isBusy_eq_true hb with hp | hp
    · have he : State.EncodeRunning { s with host := rest } := { (running_encode_iff hp).1 hr with }
      exact (running_encode_iff (s := { s with host := rest }) hp).2 he
    · have hd : State.DecodeRunning { s with host := rest } := { (running_decode_iff hp).1 hr with }
      exact (running_decode_iff (s := { s with host := rest }) hp).2 hd

/-! ## ENCODE -/

theorem State.EncodeRunning.capFits {s : State} (h : s.EncodeRunning) : s.CapFits :=
  Nat.le_trans h.outCap_le (by decide)

/-- The size bound in numbers: the output cursor stays below the bound of 10_state.md R22. -/
theorem State.EncodeRunning.oc_le {s : State} (h : s.EncodeRunning) : s.oc ≤ 73730 := by
  have hi : s.inLen ≤ 0xFFFF := h.inLen_le
  have := h.ic_le
  have := h.size
  omega

/-- A selector step keeps ENCODE's bounds: the tokens it emits cost no more than the input they cover
(42_mode_selector.md R118). -/
theorem State.EncodeRunning.encodeIteration {s : State} (h : s.EncodeRunning) (hlt : s.ic < s.inLen) :
    (encodeIteration s).EncodeRunning := by
  have hr := stepAdvance_range s hlt
  have hcost := stepTokens_cost s
  have hsize := emitAll_size (stepTokens s) s
  have hpend := stepPend_le s h.pend_le
  have hframe := emitAll_frame (stepTokens s) s
  have hin : (emitAll (stepTokens s) s).inLen = s.inLen := by rw [hframe]
  have hcap : (emitAll (stepTokens s) s).outCap = s.outCap := by rw [hframe]
  have hold := h.size
  have hp := h.pend_le
  rw [encodeIteration_eq]
  exact {
    inLen_le := hin.symm ▸ h.inLen_le
    outCap_le := hcap.symm ▸ h.outCap_le
    ic_le := hin.symm ▸ hr.2
    pend_le := hpend
    header := Nat.le_trans h.header (emitAll_oc_le _ s)
    patch := emitAll_dfPos_lt _ s h.patch
    size := by simp only []; omega }

theorem State.Fits.encodeIteration {s : State} (h : s.Fits) (hr : s.EncodeRunning) (hlt : s.ic < s.inLen) :
    (encodeIteration s).Fits := by
  have hnext := hr.encodeIteration hlt
  have hoc := hnext.oc_le
  have hic := hnext.ic_le
  have hpend := hnext.pend_le
  have hlen : (Machine.encodeIteration s).inLen ≤ 0xFFFF := hnext.inLen_le
  obtain ⟨hd, _, hl, _⟩ := bestMatch_range s
  rw [encodeIteration_eq] at hoc hic hpend hlen ⊢
  simp only [] at hoc hic hpend hlen
  exact { h.emitAll hr.capFits (stepTokens s) (by omega) with
    ic_lt := by simp only []; omega
    pend_lt := by simp only []; omega
    mDisp_lt := Nat.lt_succ_of_le hd
    mLen_le := hl }

/-- What the end of the input emits, the pending literals and the Terminator, stays inside the size bound. -/
theorem State.Fits.endOfInput {s : State} (h : s.Fits) (hr : s.EncodeRunning) : (endOfInput s).Fits := by
  have hoc : (Machine.emitAll (closingTokens s) s).oc < 2 ^ 32 := by
    have hsize := emitAll_size (closingTokens s) s
    have hcost := closingTokens_cost s
    have hold := hr.size
    have hlen : s.inLen ≤ 0xFFFF := hr.inLen_le
    have hle := hr.ic_le
    have hpend := hr.pend_le
    omega
  rw [endOfInput_eq]
  exact { h.emitAll hr.capFits (closingTokens s) hoc with pend_lt := Nat.two_pow_pos 32 }

theorem State.Fits.finishEncode {s : State} (h : s.Fits) (hr : s.EncodeRunning) : (finishEncode s).Fits :=
  (h.endOfInput hr).account.complete

/-- The header is stored and nothing else: ENCODE's loop begins inside its bounds. -/
theorem beginEncode_running {s : State} (ha : acceptsEncode s = true) : (beginEncode s).EncodeRunning := by
  obtain ⟨hi, ho⟩ := (acceptsEncode_iff s).1 ha
  exact { inLen_le := hi, outCap_le := ho, ic_le := Nat.zero_le _, pend_le := Nat.le_refl _
          header := Nat.le_refl _, patch := by simp, size := by simp }

theorem State.Fits.beginEncode {s : State} (h : s.Fits) (ha : acceptsEncode s = true) : (beginEncode s).Fits := by
  rw [beginEncode_eq]
  exact (h.startCommand .encode).outStores (beginEncode_running ha).capFits _ (by simp)

theorem State.Fits.runEncode {s : State} (h : s.Fits) (ha : acceptsEncode s = true) : (runEncode s).Fits := by
  obtain ⟨hf, hr⟩ := encodeLoop_keeps (P := fun t => t.Fits ∧ t.EncodeRunning)
    (fun _ ht hlt => ⟨ht.1.encodeIteration ht.2 hlt, ht.2.encodeIteration hlt⟩)
    ((Machine.beginEncode s).inLen - (Machine.beginEncode s).ic) (Machine.beginEncode s)
    ⟨h.beginEncode ha, beginEncode_running ha⟩
  exact hf.finishEncode hr

/-! ## DECODE -/

theorem State.DecodeRunning.capFits {s : State} (h : s.DecodeRunning) : s.CapFits :=
  Nat.le_trans h.outCap_le (by decide)

/-- A token keeps DECODE's bounds: it starts inside the input, fetches at most 73 bytes and stores at most 71
(10_state.md R22). -/
theorem State.DecodeRunning.runToken {s : State} (h : s.DecodeRunning) (hm : s.moreTokens = true) :
    (runToken s).DecodeRunning := by
  obtain ⟨_, hlt⟩ := (moreTokens_iff s).1 hm
  obtain ⟨hi1, hi2, ho1, ho2⟩ := runToken_cursors s
  have hcap : (Machine.runToken s).outCap = s.outCap := by rw [runToken_frame]
  have hoc := h.oc_le
  exact {
    inLen_le := by rw [runToken_inLen]; exact h.inLen_le
    outCap_le := by rw [hcap]; exact h.outCap_le
    ic_le := by rw [runToken_inLen, Config.maxPayload]; omega
    oc_le := by rw [runToken_inLen]; omega }

theorem State.DecodeRunning.runToken_fits {s : State} (hr : s.DecodeRunning) (h : s.Fits) :
    (Machine.runToken s).Fits := by
  have hlen : s.inLen ≤ 0x00FFFFFF := hr.inLen_le
  have hic : s.ic ≤ s.inLen + 72 := hr.ic_le
  have hoc := hr.oc_le
  exact h.runToken hr.capFits (by omega) (by omega)

theorem State.Fits.finishDecode {s : State} (h : s.Fits) : (finishDecode s).Fits := h.account.complete

/-- Where a granted DECODE's loop begins: the start values, the header consumed, `OUT_CAP` the declared size. -/
def decodeStart (s : State) : State :=
  { startCommand .decode s with ic := 2, outCap := s.declaredSize.toNat }

/-- A granted DECODE is its loop and its end, from `decodeStart`. -/
theorem runDecode_eq_body {s : State} (h : s.allocGrant s.declaredSize = true) :
    runDecode s = decodeBody (decodeStart s) := runDecode_granted s h

theorem decodeStart_running {s : State} (hi : s.inLen ≤ 0x00FFFFFF) : (decodeStart s).DecodeRunning :=
  { inLen_le := hi, outCap_le := Nat.le_of_lt_succ s.declaredSize.isLt
    ic_le := Nat.le_trans (by decide : 2 ≤ Config.maxPayload) (Nat.le_add_left _ _), oc_le := Nat.zero_le _ }

theorem State.Fits.decodeStart {s : State} (h : s.Fits) : (decodeStart s).Fits :=
  { h.startCommand .decode with
    ic_lt := (by decide : 2 < 2 ^ 32)
    outCap_lt := Nat.lt_trans s.declaredSize.isLt (by decide) }

/-- Where a denied DECODE ends. -/
theorem State.Fits.denied {s : State} (h : s.Fits) :
    (denyBuffer { Machine.startCommand .decode s with ic := 2 }).Fits :=
  { h.startCommand .decode with
    ic_lt := (by decide : 2 < 2 ^ 32), outCap_lt := Nat.two_pow_pos 32, resultLen_lt := Nat.two_pow_pos 32 }

/-- DECODE's loop keeps its bounds. -/
theorem decodeLoop_running (n : Nat) {s : State} (h : s.DecodeRunning) : (decodeLoop n s).DecodeRunning :=
  decodeLoop_keeps (P := State.DecodeRunning) (fun _ ht hm => ht.runToken hm) n s h

theorem State.Fits.runDecode {s : State} (h : s.Fits) (ha : acceptsDecode s = true) : (runDecode s).Fits := by
  have hi := (acceptsDecode_iff s).1 ha
  cases hg : s.allocGrant s.declaredSize with
  | false => rw [runDecode_denied s hg]; exact h.denied
  | true =>
    rw [runDecode_eq_body hg]
    exact (decodeLoop_keeps (P := fun t => t.Fits ∧ t.DecodeRunning)
      (fun _ ht hm => ⟨ht.2.runToken_fits ht.1, ht.2.runToken hm⟩) _ _
      ⟨h.decodeStart, decodeStart_running hi⟩).1.finishDecode

/-! ## Every step -/

theorem runEncode_phase (s : State) : (runEncode s).phase = .done := rfl

theorem runDecode_phase (s : State) : (runDecode s).phase = .done := by
  cases hg : s.allocGrant s.declaredSize with
  | false => rw [runDecode_denied s hg]; rfl
  | true => rw [runDecode_granted s hg]; rfl

/-- A write of `CMD` keeps the invariant: a command that runs ends not BUSY, and its registers fit. -/
theorem commandWrite_keeps_inv {op : BitVec 2} {s t : State} (hs : s.Inv) (h : commandWrite op s = .next t) :
    t.Inv := by
  rcases commandWrite_cases h with rfl | ⟨_, ha, rfl⟩ | ⟨_, ha, rfl⟩
  · split
    · exact hs
    · next hb => exact State.Fits.inv_of_notBusy { hs.1 with } (Bool.eq_false_iff.2 hb)
  · exact (hs.1.runEncode ha).inv_of_done (runEncode_phase s)
  · exact (hs.1.runDecode ha).inv_of_done (runDecode_phase s)

/-- A piece of a running ENCODE keeps the invariant. -/
theorem encodeStep_keeps_inv {s : State} (hs : s.Inv) (hp : s.phase = .busy .encode) : (encodeStep s).Inv := by
  obtain ⟨hf, hrun⟩ := hs
  have hr := (running_encode_iff hp).1 hrun
  unfold encodeStep
  split
  · next hlt =>
    refine ⟨hf.encodeIteration hr hlt, (running_encode_iff ?_).2 (hr.encodeIteration hlt)⟩
    rw [encodeIteration_eq, emitAll_frame]
    exact hp
  · exact (hf.finishEncode hr).inv_of_done rfl

/-- A token of a running DECODE keeps the invariant. -/
theorem runToken_keeps_inv {s : State} (hs : s.Inv) (hp : s.phase = .busy .decode) (hm : s.moreTokens = true) :
    (runToken s).Inv := by
  obtain ⟨hf, hrun⟩ := hs
  have hr := (running_decode_iff hp).1 hrun
  refine ⟨hr.runToken_fits hf, (running_decode_iff ?_).2 (hr.runToken hm)⟩
  rw [runToken_frame]
  exact hp

/-- Settles O53, by the cases of a step: each piece of a command keeps its bounds and the widths, and a host write is
made while no command runs. -/
theorem everyStepKeepsTheInvariant : Obligations.EveryStepKeepsTheInvariant := by
  intro s t hs h
  rcases step_cases h with ⟨rest, v, _, hc⟩ | ⟨rest, v, _, hb, rfl⟩ | ⟨rest, v, _, hb, rfl⟩ |
    ⟨rest, a, v, _, hb, rfl⟩ | ⟨rest, a, _, _, _, _, rfl⟩ | ⟨_, _, rfl⟩ | ⟨_, hp, rfl⟩ | ⟨_, hp, hm, rfl⟩ |
    ⟨_, _, _, rfl⟩
  · exact commandWrite_keeps_inv (hs.dropAccess rest) hc
  · exact State.Fits.inv_of_notBusy { hs.1 with inLen_lt := v.isLt } hb
  · exact State.Fits.inv_of_notBusy { hs.1 with outCap_lt := v.isLt } hb
  · exact State.Fits.inv_of_notBusy { hs.1 with
      inMem_wf := Memory.wf_write _ _ hs.1.inMem_wf
      inMem_below := Memory.below_write _ hs.1.inMem_below a.isLt } hb
  · exact hs.dropAccess rest
  · exact hs
  · exact encodeStep_keeps_inv hs hp
  · exact runToken_keeps_inv hs hp hm
  · exact hs.1.finishDecode.inv_of_done rfl

end Sys2Proof.Machine
end

section
/-! What a step of a running command does to the phase, the cursors and OUT (10_state.md R12, R14, R15, R21). -/

namespace Sys2Proof.Machine

/-- Everything a step that answers next can have done while a command runs: an access of the host that changes
nothing, a piece of ENCODE, a token, DECODE's end. -/
theorem step_busy_cases {s t : State} (hb : s.isBusy = true) (h : step s = .next t) :
    (∃ rest, t = { s with host := rest }) ∨ t = encodeStep s ∨ t = runToken s ∨ t = finishDecode s := by
  rcases step_cases h with ⟨rest, v, _, hc⟩ | ⟨rest, v, _, hn, _⟩ | ⟨rest, v, _, hn, _⟩ |
    ⟨rest, a, v, _, hn, _⟩ | ⟨rest, a, _, _, _, _, ht⟩ | ⟨_, _, ht⟩ | ⟨_, _, ht⟩ | ⟨_, _, _, ht⟩ | ⟨_, _, _, ht⟩
  · have hb' : State.isBusy { s with host := rest } = true := hb
    rcases commandWrite_cases hc with ht | ⟨hn, _⟩ | ⟨hn, _⟩
    · rw [if_pos hb'] at ht
      exact Or.inl ⟨rest, ht⟩
    · exact absurd hb' (Bool.eq_false_iff.1 hn)
    · exact absurd hb' (Bool.eq_false_iff.1 hn)
  · exact absurd hb (Bool.eq_false_iff.1 hn)
  · exact absurd hb (Bool.eq_false_iff.1 hn)
  · exact absurd hb (Bool.eq_false_iff.1 hn)
  · exact Or.inl ⟨rest, ht⟩
  · exact Or.inl ⟨s.host, ht⟩
  · exact Or.inr (Or.inl ht)
  · exact Or.inr (Or.inr (Or.inl ht))
  · exact Or.inr (Or.inr (Or.inr ht))

/-- The same for every step, with what it can change: a write of `CMD`; an access of the host or a wait, which changes
at most IN, `IN_LEN`, `OUT_CAP` and the pending accesses; a piece of ENCODE; a token; DECODE's end. -/
theorem step_pieces {s t : State} (h : step s = .next t) :
    (∃ rest op, commandWrite op { s with host := rest } = .next t) ∨
    t = { s with inMem := t.inMem, inLen := t.inLen, outCap := t.outCap, host := t.host } ∨
    t = encodeStep s ∨ t = runToken s ∨ t = finishDecode s := by
  rcases step_cases h with ⟨rest, v, _, hc⟩ | ⟨rest, v, _, _, rfl⟩ | ⟨rest, v, _, _, rfl⟩ |
    ⟨rest, a, v, _, _, rfl⟩ | ⟨rest, a, _, _, _, _, rfl⟩ | ⟨_, _, rfl⟩ | ⟨_, _, ht⟩ | ⟨_, _, _, ht⟩ | ⟨_, _, _, ht⟩
  · exact Or.inl ⟨rest, _, hc⟩
  · exact Or.inr (Or.inl rfl)
  · exact Or.inr (Or.inl rfl)
  · exact Or.inr (Or.inl rfl)
  · exact Or.inr (Or.inl rfl)
  · exact Or.inr (Or.inl rfl)
  · exact Or.inr (Or.inr (Or.inl ht))
  · exact Or.inr (Or.inr (Or.inr (Or.inl ht)))
  · exact Or.inr (Or.inr (Or.inr (Or.inr ht)))

/-! ## The cursors -/

theorem encodeIteration_oc_le (s : State) : s.oc ≤ (encodeIteration s).oc := by
  rw [encodeIteration_eq]
  exact emitAll_oc_le _ s

theorem finishEncode_oc_le (s : State) : s.oc ≤ (finishEncode s).oc := by
  rw [finishEncode_oc]
  exact emitAll_oc_le _ s

/-- A piece of a running ENCODE moves no cursor back. -/
theorem encodeStep_cursors (s : State) : s.ic ≤ (encodeStep s).ic ∧ s.oc ≤ (encodeStep s).oc := by
  unfold encodeStep
  split
  · exact ⟨by rw [encodeIteration_ic]; exact Nat.le_add_right _ _, encodeIteration_oc_le s⟩
  · exact ⟨by rw [finishEncode_frame], finishEncode_oc_le s⟩

/-- Settles O24, by the cases of a step while BUSY: an access of the host moves no cursor, a piece of a command only
forward. -/
theorem cursorsNeverMoveBack : Obligations.CursorsNeverMoveBack := by
  intro s t hb h
  rcases step_busy_cases hb h with ⟨rest, rfl⟩ | rfl | rfl | rfl
  · exact ⟨Nat.le_refl _, Nat.le_refl _⟩
  · exact encodeStep_cursors s
  · obtain ⟨hi, _, ho, _⟩ := runToken_cursors s
    exact ⟨by omega, ho⟩
  · rw [finishDecode_frame]
    exact ⟨Nat.le_refl _, Nat.le_refl _⟩

/-- The bounds that DECODE's loop keeps are the bounds of 10_state.md R22, whatever ends the loop. -/
theorem runDecode_cursors {s : State} (hi : s.inLen ≤ 0x00FFFFFF) :
    (runDecode s).ic ≤ s.inLen + 72 ∧ (runDecode s).oc ≤ 71 * s.inLen := by
  cases hg : s.allocGrant s.declaredSize with
  | false =>
    rw [runDecode_denied s hg]
    exact ⟨Nat.le_add_left_of_le (by decide : 2 ≤ 72), Nat.zero_le _⟩
  | true =>
    have hr := decodeLoop_running (s.inLen - 2) (decodeStart_running hi)
    have hlen : (decodeLoop (s.inLen - 2) (decodeStart s)).inLen = s.inLen := by
      rw [decodeLoop_frame]
      rfl
    have hic := hr.ic_le
    have hoc := hr.oc_le
    rw [hlen] at hic hoc
    rw [runDecode_eq_body hg, decodeBody, finishDecode_frame]
    exact ⟨hic, Nat.le_trans hoc (Nat.mul_le_mul_left 71 (Nat.min_le_right _ _))⟩

/-- Settles O47: an accepted DECODE ends inside the bounds its loop keeps, and 71 bytes for each of at most `2^24 - 1`
input bytes stay below `2^31`. -/
theorem decodeCursorBounds : Obligations.DecodeCursorBounds := by
  intro s t hb hi h
  rw [exec_decode_accepted s hb hi] at h
  cases h
  obtain ⟨hic, hoc⟩ := runDecode_cursors hi
  exact ⟨hic, hoc, by omega⟩

/-! ## The phase -/

/-- A write of `CMD` returns to IDLE from IDLE alone: a refusal keeps the phase, a command ends in DONE. -/
theorem commandWrite_idle {op : BitVec 2} {s t : State} (h : commandWrite op s = .next t) (ht : t.phase = .idle) :
    s.phase = .idle := by
  rcases commandWrite_cases h with rfl | ⟨_, _, rfl⟩ | ⟨_, _, rfl⟩
  · split at ht
    · exact ht
    · exact ht
  · rw [runEncode_phase] at ht
    cases ht
  · rw [runDecode_phase] at ht
    cases ht

/-- A piece of a running ENCODE ends BUSY or in DONE. -/
theorem encodeStep_phase (s : State) : (encodeStep s).phase = s.phase ∨ (encodeStep s).phase = .done := by
  unfold encodeStep
  split
  · exact Or.inl (by rw [encodeIteration_eq, emitAll_frame])
  · exact Or.inr rfl

/-- Settles O27, by the cases of a step: no case sets IDLE. -/
theorem noStepReturnsToIdle : Obligations.NoStepReturnsToIdle := by
  intro s t h ht
  rcases step_pieces h with ⟨rest, op, hc⟩ | hframe | rfl | rfl | rfl
  · exact (commandWrite_idle hc ht :)
  · rw [hframe] at ht
    exact ht
  · rcases encodeStep_phase s with hp | hp
    · exact hp ▸ ht
    · rw [hp] at ht
      cases ht
  · rw [runToken_frame] at ht
    exact ht
  · cases ht

/-! ## OUT -/

theorem encodeStep_above (s : State) (a : Nat) (h : s.outCap ≤ a) : (encodeStep s).readOut a = s.readOut a := by
  unfold encodeStep
  split
  · exact encodeIteration_above s a h
  · exact finishEncode_above s a h

theorem encodeStep_outCap (s : State) : (encodeStep s).outCap = s.outCap := by
  unfold encodeStep
  split
  · rw [encodeIteration_eq, emitAll_frame]
  · rw [finishEncode_frame]

/-- A whole DECODE stores nothing at or above the capacity it is granted, and nothing where it is denied one. -/
theorem runDecode_above (s : State) (a : Nat) (h : (runDecode s).outCap ≤ a) :
    (runDecode s).readOut a = s.readOut a := by
  cases hg : s.allocGrant s.declaredSize with
  | false => rw [runDecode_denied s hg]; exact readOut_congr rfl a
  | true =>
    rw [runDecode_eq_body hg] at h ⊢
    have hcap : (decodeStart s).outCap ≤ a := by
      rw [decodeBody_frame] at h
      exact h
    rw [decodeBody_above _ a hcap]
    exact readOut_congr rfl a

theorem commandWrite_above {op : BitVec 2} {s t : State} (h : commandWrite op s = .next t) {a : Nat}
    (ha : t.outCap ≤ a) : t.readOut a = s.readOut a := by
  rcases commandWrite_cases h with rfl | ⟨_, _, rfl⟩ | ⟨_, _, rfl⟩
  · apply readOut_congr
    split <;> rfl
  · rw [runEncode_frame] at ha
    exact runEncode_above s a ha
  · exact runDecode_above s a ha

/-- Settles O23, by the cases of a step: no access of the host stores in OUT, and every piece of a command stores below
the capacity with which it ends. -/
theorem noStoreAtOrAboveCapacity : Obligations.NoStoreAtOrAboveCapacity := by
  intro s t a h ha
  rcases step_pieces h with ⟨rest, op, hc⟩ | hframe | rfl | rfl | rfl
  · exact commandWrite_above hc ha
  · exact readOut_congr (by rw [hframe]) a
  · exact encodeStep_above s a (encodeStep_outCap s ▸ ha)
  · rw [runToken_frame] at ha
    exact runToken_readOut s a (Or.inr (Or.inr ha))
  · exact finishDecode_readOut s a

end Sys2Proof.Machine
end

section
/-! The pieces of a command do not read the flags (10_state.md R23): each goes with any `ERR`, `REFUSED` and
`REF_FAULT` as it goes with another, and adds at most a `REF_FAULT` of its own. -/

namespace Sys2Proof.Machine

/-- A token's fetch, by what the control bit is (44_decoder_copy_engine.md R142). -/
theorem fetchToken_eq (s : State) : fetchToken s =
    ((decodeToken (nextBit s).1 (operandBytes (nextBit s).2)).1,
      if (nextBit s).1 then fetchFlag (nextBit s).2 else (nextBit s).2) := rfl

/-- The state with other flags: `ERR` and `REFUSED` replaced, `REF_FAULT` joined with `f`. -/
def withFlags (e : ErrFlags) (r f : Bool) (s : State) : State :=
  { s with err := e, refused := r, refFault := f || s.refFault }

section
variable (e : ErrFlags) (r f : Bool)

/-! ## The codec and the stores -/

theorem openGroup_withFlags (s : State) : openGroup (withFlags e r f s) = withFlags e r f (openGroup s) := by
  unfold openGroup
  rw [apply_ite (withFlags e r f)]
  rfl

theorem outPatch_withFlags (a : Nat) (v : Byte) (s : State) :
    outPatch a v (withFlags e r f s) = withFlags e r f (outPatch a v s) := by
  unfold outPatch
  rw [apply_ite (withFlags e r f)]
  rfl

theorem pushBit_withFlags (b : Bool) (s : State) :
    pushBit b (withFlags e r f s) = withFlags e r f (pushBit b s) := by
  unfold pushBit
  rw [openGroup_withFlags]
  generalize openGroup s = g
  exact outPatch_withFlags e r f g.dfPos (g.dfAcc ||| (bitByte b <<< g.dfCnt))
    { g with dfAcc := g.dfAcc ||| (bitByte b <<< g.dfCnt), dfCnt := g.dfCnt + 1 }

theorem outStores_withFlags (vs : List Byte) (s : State) :
    outStores vs (withFlags e r f s) = withFlags e r f (outStores vs s) := by
  induction vs generalizing s with
  | nil => rfl
  | cons v vs ih => exact ih (outStore v s)

theorem emitAll_withFlags (ts : List (Bool × List Byte)) (s : State) :
    emitAll ts (withFlags e r f s) = withFlags e r f (emitAll ts s) := by
  induction ts generalizing s with
  | nil => rfl
  | cons t ts ih =>
    obtain ⟨b, p⟩ := t
    rw [emitAll, pushBit_withFlags, outStores_withFlags, ih]
    rfl

theorem nextBit_withFlags (s : State) :
    nextBit (withFlags e r f s) = ((nextBit s).1, withFlags e r f (nextBit s).2) := by
  rw [nextBit_eq, nextBit_eq]
  by_cases h : s.dfCnt = 0
  · rw [if_pos h, if_pos (show (withFlags e r f s).dfCnt = 0 from h)]
    rfl
  · rw [if_neg h, if_neg (show ¬ (withFlags e r f s).dfCnt = 0 from h)]
    rfl

/-! ## The selector step -/

theorem stepTokens_withFlags (s : State) : stepTokens (withFlags e r f s) = stepTokens s := rfl

theorem encodeIteration_withFlags (s : State) :
    encodeIteration (withFlags e r f s) = withFlags e r f (encodeIteration s) := by
  rw [encodeIteration_eq, encodeIteration_eq, stepTokens_withFlags, emitAll_withFlags]
  rfl

/-! ## The token step -/

/-- The one flag a token can raise: an invalid window read adds `REF_FAULT` (20_memory.md R47, D9). -/
theorem copyByte_withFlags (s : State) : copyByte (withFlags e r f s) = withFlags e r f (copyByte s) := by
  simp only [copyByte, winRead_eq, withFlags, Bool.or_assoc]
  rfl

theorem copyBytes_withFlags (n : Nat) (s : State) :
    copyBytes n (withFlags e r f s) = withFlags e r f (copyBytes n s) := by
  induction n generalizing s with
  | zero => rfl
  | succ n ih => rw [copyBytes, copyByte_withFlags, ih, copyBytes]

theorem tokenEffect_withFlags (i : Instr) (s : State) :
    tokenEffect i (withFlags e r f s) = withFlags e r f (tokenEffect i s) := by
  cases i with
  | literal v => rfl
  | terminator => rfl
  | rawRun raw =>
    simp only [tokenEffect, rawRunToken_eq]
    exact outStores_withFlags e r f raw { s with ic := s.ic + raw.length, tCnt := 0 }
  | nearMatch d len => exact copyBytes_withFlags e r f len { s with tDisp := d, tCnt := len }
  | farMatch d len => exact copyBytes_withFlags e r f len { s with ic := s.ic + 1, tDisp := d, tCnt := len }
  | encode => rfl
  | decode => rfl

theorem fetchToken_withFlags (s : State) :
    fetchToken (withFlags e r f s) = ((fetchToken s).1, withFlags e r f (fetchToken s).2) := by
  rw [fetchToken_eq, fetchToken_eq, nextBit_withFlags, apply_ite (withFlags e r f)]
  rfl

theorem runToken_withFlags (s : State) : runToken (withFlags e r f s) = withFlags e r f (runToken s) := by
  unfold runToken
  rw [fetchToken_withFlags, tokenEffect_withFlags]

/-! ## A step -/

/-- A token or selector step goes on in the same way with other flags. -/
theorem step_withFlags {s u : State} (hh : s.host = [])
    (hp : s.phase = .busy .decode ∧ s.terminated = false ∨ s.phase = .busy .encode) (hlt : s.ic < s.inLen)
    (h : step s = .next u) : step (withFlags e r f s) = .next (withFlags e r f u) := by
  rcases hp with ⟨hp, ht⟩ | hp
  · have hm : s.moreTokens = true := (moreTokens_iff s).2 ⟨ht, hlt⟩
    rw [step_busyDecode s hh hp, decodeStep_token s hm] at h
    cases h
    rw [step_busyDecode (withFlags e r f s) hh hp, decodeStep_token (withFlags e r f s) hm, runToken_withFlags]
  · rw [step_busyEncode s hh hp, encodeStep, if_pos hlt] at h
    cases h
    rw [step_busyEncode (withFlags e r f s) hh hp, encodeStep,
      if_pos (show (withFlags e r f s).ic < (withFlags e r f s).inLen from hlt), encodeIteration_withFlags]

end

/-- Settles O11: the state with the given flags is the state with a clear `REF_FAULT`, its flags replaced. -/
theorem noTokenOrEncoderStepReadsAFlag : Obligations.NoTokenOrEncoderStepReadsAFlag := by
  intro s u e r f hh hp hlt h
  have hs : withFlags e r f { s with refFault := false } = { s with err := e, refused := r, refFault := f } := by
    rw [withFlags, Bool.or_false]
  rw [← hs]
  exact step_withFlags e r f hh hp hlt h

end Sys2Proof.Machine
end

section
/-! Two runs of DECODE on the same input (10_state.md R24): the relation between their states that every piece of the
command keeps, whatever the two memories hold where the command does not read them. -/

namespace Sys2Proof.Machine

/-! ## The accounting step as one equation -/

theorem accountInput_eq (s : State) : accountInput s = { s with err := { s.err with
    inputOverflow := s.err.inputOverflow || decide (s.inLen < s.ic)
    inputUnderflow := s.err.inputUnderflow || decide (s.ic < s.inLen) } } := by
  unfold accountInput
  by_cases ho : s.inLen < s.ic
  · have hu : ¬ s.ic < s.inLen := by omega
    simp [ho, hu, raise]
  · by_cases hu : s.ic < s.inLen <;> simp [ho, hu, raise]

theorem accountOutput_eq (s : State) : accountOutput s = { s with err := { s.err with
    outputOverflow := s.err.outputOverflow || decide (s.outCap < s.oc)
    outputUnderflow := s.err.outputUnderflow || (s.runsDecode && decide (s.oc < s.outCap)) } } := by
  unfold accountOutput
  by_cases ho : s.outCap < s.oc
  · have hu : ¬ s.oc < s.outCap := by omega
    simp [ho, hu, raise]
  · by_cases hd : s.runsDecode = true <;> by_cases hu : s.oc < s.outCap <;> simp [ho, hd, hu, raise]

/-- Accounting, every flag by its comparison of the final cursors (45_buffer_accounting.md R161, R162, R164). -/
theorem account_eq (s : State) : account s = { s with
    resultLen := min s.oc s.outCap
    err := { s.err with
      inputOverflow := s.err.inputOverflow || decide (s.inLen < s.ic)
      inputUnderflow := s.err.inputUnderflow || decide (s.ic < s.inLen)
      outputOverflow := s.err.outputOverflow || decide (s.outCap < s.oc)
      outputUnderflow := s.err.outputUnderflow ||
        (decide (s.phase = .busy .decode) && decide (s.oc < s.outCap)) } } := by
  rw [account, accountInput_eq, accountOutput_eq]
  rfl

/-- The end of DECODE, on the registers it reads and writes: the comparisons of the accounting step, and DONE
(45_buffer_accounting.md R161, R162, R164). -/
theorem finishDecode_eq (s : State) : finishDecode s = { s with
    phase := .done
    resultLen := min s.oc s.outCap
    err := { s.err with
      inputOverflow := s.err.inputOverflow || decide (s.inLen < s.ic)
      inputUnderflow := s.err.inputUnderflow || decide (s.ic < s.inLen)
      outputOverflow := s.err.outputOverflow || decide (s.outCap < s.oc)
      outputUnderflow := s.err.outputUnderflow ||
        (decide (s.phase = .busy .decode) && decide (s.oc < s.outCap)) } } := by
  rw [finishDecode, complete, account_eq]

/-- The registers of a state: all of it but the two memories and the model's own fields. -/
def State.registers (s : State) : State :=
  { s with inMem := [], outMem := [], allocDenied := [], host := [] }

/-- Two states inside one DECODE: the same registers, the same input, the same written window. -/
structure SameRun (s t : State) : Prop where
  regs   : s.registers = t.registers
  input  : ∀ a, a < s.inLen → s.readIn a = t.readIn a
  window : ∀ a, a < s.oc → a < s.outCap → s.readOut a = t.readOut a

/-- The same input gives every guarded fetch the same byte: the input's below `IN_LEN`, 0x00 at and beyond it. -/
theorem inByte_of_sameInput {s t : State} (h : s.sameInput t) (a : Nat) : s.inByte a = t.inByte a := by
  obtain ⟨hlen, hin⟩ := h
  unfold State.inByte
  rw [← hlen]
  split
  · next hlt => exact hin a hlt
  · rfl

/-- The same input declares the same size. -/
theorem declaredSize_of_sameInput {s t : State} (h : s.sameInput t) : s.declaredSize = t.declaredSize := by
  rw [State.declaredSize, State.declaredSize, inByte_of_sameInput h, inByte_of_sameInput h]

/-- An update of registers that reads registers alone, and leaves what the relation measures the memories by. -/
def RegisterUpdate (f : State → State) : Prop :=
  ∀ u, (f u).registers = (f u.registers).registers ∧ (f u).inMem = u.inMem ∧ (f u).outMem = u.outMem ∧
    (f u).inLen = u.inLen ∧ (f u).oc = u.oc ∧ (f u).outCap = u.outCap

/-- DECODE's end computes `ERR` and `RESULT_LEN` from registers. -/
theorem finishDecode_registerUpdate : RegisterUpdate finishDecode := by
  intro u
  rw [finishDecode_eq, finishDecode_eq]
  exact ⟨rfl, rfl, rfl, rfl, rfl, rfl⟩

namespace SameRun

/-- What the two states agree on in a register. -/
theorem field {s t : State} (h : SameRun s t) {α : Type} (f : State → α) : f s.registers = f t.registers :=
  congrArg f h.regs

theorem inByte {s t : State} (h : SameRun s t) (a : Nat) : s.inByte a = t.inByte a :=
  have hlen : s.inLen = t.inLen := h.field State.inLen
  inByte_of_sameInput ⟨hlen, h.input⟩ a

/-- An update of registers that reads registers alone keeps the relation. -/
theorem update {s t : State} (h : SameRun s t) (f : State → State)
    (hf : RegisterUpdate f := by exact fun _ => ⟨rfl, rfl, rfl, rfl, rfl, rfl⟩) : SameRun (f s) (f t) := by
  obtain ⟨hregs, hin, hout, hlen, hoc, hcap⟩ := hf s
  obtain ⟨hregs', hin', hout', _⟩ := hf t
  refine ⟨by rw [hregs, hregs', h.regs], fun a ha => ?_, fun a ho hc => ?_⟩
  · rw [readIn_congr hin a, readIn_congr hin' a]
    exact h.input a (hlen ▸ ha)
  · rw [readOut_congr hout a, readOut_congr hout' a]
    exact h.window a (hoc ▸ ho) (hcap ▸ hc)

/-- A store of the same byte extends the written window of both. -/
theorem outStore {s t : State} (h : SameRun s t) (v : Byte) : SameRun (outStore v s) (outStore v t) where
  regs := h.field fun u => { u with oc := u.oc + 1 }
  input := h.input
  window a ho hc := by
    have hoc : s.oc = t.oc := h.field State.oc
    have hcap : s.outCap = t.outCap := h.field State.outCap
    rw [outStore_oc] at ho
    rw [outStore_outCap] at hc
    rw [readOut_outStore, readOut_outStore, ← hoc, ← hcap]
    split
    · rfl
    · exact h.window a (by omega) hc

theorem outStores {s t : State} (h : SameRun s t) (vs : List Byte) : SameRun (outStores vs s) (outStores vs t) := by
  induction vs generalizing s t with
  | nil => exact h
  | cons v vs ih => exact ih (h.outStore v)

/-! ## A token -/

/-- The next control bit is the same, and taking it keeps the relation. -/
theorem nextBit {s t : State} (h : SameRun s t) :
    (nextBit s).1 = (nextBit t).1 ∧ SameRun (nextBit s).2 (nextBit t).2 := by
  have hcnt : s.dfCnt = t.dfCnt := h.field State.dfCnt
  have hacc : s.dfAcc = t.dfAcc := h.field State.dfAcc
  have hic : s.ic = t.ic := h.field State.ic
  have hbyte : s.inByte s.ic = t.inByte t.ic := by rw [← hic]; exact h.inByte s.ic
  rw [nextBit_eq, nextBit_eq, ← hcnt, ← hacc, ← hbyte]
  split
  · exact ⟨rfl, h.update (fun u => { u with ic := u.ic + 1, dfAcc := s.inByte s.ic >>> 1, dfCnt := 7 })⟩
  · exact ⟨rfl, h.update (fun u => { u with dfAcc := s.dfAcc >>> 1, dfCnt := s.dfCnt - 1 })⟩

theorem fetchFlag {s t : State} (h : SameRun s t) : SameRun (fetchFlag s) (fetchFlag t) := by
  have hic : s.ic = t.ic := h.field State.ic
  have hbyte : s.inByte s.ic = t.inByte t.ic := by rw [← hic]; exact h.inByte s.ic
  have hnext := h.update (fun u => { u with ic := u.ic + 1, flag := s.inByte s.ic })
  simp only [Machine.fetchFlag, inFetch, ← hbyte]
  exact hnext

/-- The token at the cursor is the same, and fetching it keeps the relation. -/
theorem fetchToken {s t : State} (h : SameRun s t) :
    (fetchToken s).1 = (fetchToken t).1 ∧ SameRun (fetchToken s).2 (fetchToken t).2 := by
  obtain ⟨hbit, hnext⟩ := h.nextBit
  have hic : (Machine.nextBit s).2.ic = (Machine.nextBit t).2.ic := hnext.field State.ic
  have hops : operandBytes (Machine.nextBit s).2 = operandBytes (Machine.nextBit t).2 := by
    simp only [operandBytes, hic, hnext.inByte]
  rw [fetchToken_eq, fetchToken_eq, ← hbit, ← hops]
  refine ⟨rfl, ?_⟩
  dsimp only
  split
  · exact hnext.fetchFlag
  · exact hnext

/-- A window read that is valid names a written byte of the window, so it reads the same in both. -/
theorem copyByte {s t : State} (h : SameRun s t) : SameRun (copyByte s) (copyByte t) := by
  have hoc : s.oc = t.oc := h.field State.oc
  have hcap : s.outCap = t.outCap := h.field State.outCap
  have hidx : windowIndex s = windowIndex t := h.field windowIndex
  have hholds : s.windowHolds (windowIndex s) = t.windowHolds (windowIndex s) :=
    h.field fun u => u.windowHolds (windowIndex s)
  have hread : (if s.windowHolds (windowIndex s) then s.readOut (windowIndex s).toNat else 0x00#8) =
      if s.windowHolds (windowIndex s) then t.readOut (windowIndex s).toNat else 0x00#8 := by
    split
    · next hw =>
      rw [State.windowHolds, decide_eq_true_iff] at hw
      exact h.window _ (by omega) (by omega)
    · rfl
  have hfault := h.update (fun u => { u with refFault := u.refFault || !s.windowHolds (windowIndex s) })
  simp only [Machine.copyByte, winRead_eq, ← hidx, ← hholds, ← hread]
  exact (hfault.outStore _).update countDown

theorem copyBytes {s t : State} (h : SameRun s t) (n : Nat) : SameRun (copyBytes n s) (copyBytes n t) := by
  induction n generalizing s t with
  | zero => exact h
  | succ n ih => exact ih h.copyByte

theorem tokenEffect {s t : State} (h : SameRun s t) (i : Instr) : SameRun (tokenEffect i s) (tokenEffect i t) := by
  cases i with
  | literal v =>
    exact (h.update (fun u => { u with ic := u.ic + 1 })).outStore v
  | terminator => exact h.update terminatorToken
  | rawRun raw =>
    simp only [Machine.tokenEffect, rawRunToken_eq]
    exact (h.update (fun u => { u with ic := u.ic + raw.length, tCnt := 0 })).outStores raw
  | nearMatch d len =>
    exact (h.update (fun u => { u with tDisp := d, tCnt := len })).copyBytes len
  | farMatch d len =>
    exact (h.update (fun u => { u with ic := u.ic + 1, tDisp := d, tCnt := len })).copyBytes len
  | encode => exact h
  | decode => exact h

theorem runToken {s t : State} (h : SameRun s t) : SameRun (runToken s) (runToken t) := by
  obtain ⟨hi, hf⟩ := h.fetchToken
  unfold Machine.runToken
  rw [← hi]
  exact hf.tokenEffect _

/-! ## The command -/

theorem decodeLoop {s t : State} (h : SameRun s t) (n : Nat) : SameRun (decodeLoop n s) (decodeLoop n t) := by
  induction n generalizing s t with
  | zero => exact h
  | succ n ih =>
    have hm : s.moreTokens = t.moreTokens := h.field State.moreTokens
    rw [Machine.decodeLoop, Machine.decodeLoop, ← hm]
    split
    · exact ih h.runToken
    · exact h

theorem finishDecode {s t : State} (h : SameRun s t) : SameRun (finishDecode s) (finishDecode t) :=
  h.update Machine.finishDecode finishDecode_registerUpdate

/-- Every register is at its start value, and nothing is written yet. -/
theorem decodeStart {s t : State} (h : s.sameInput t) : SameRun (decodeStart s) (decodeStart t) where
  regs := by
    simp only [Machine.decodeStart, State.registers, startCommand, h.1, declaredSize_of_sameInput h]
  input := h.2
  window a ho _ := absurd ho (Nat.not_lt_zero a)

/-- A denied DECODE stores nothing. -/
theorem denied {s t : State} (h : s.sameInput t) : SameRun
    (denyBuffer { startCommand .decode s with ic := 2 }) (denyBuffer { startCommand .decode t with ic := 2 }) where
  regs := by
    simp only [denyBuffer, complete, raise, State.registers, startCommand, h.1]
  input := h.2
  window a ho _ := absurd ho (Nat.not_lt_zero a)

/-- Two accepted DECODEs on the same input and the same grant end in the relation. -/
theorem runDecode {s t : State} (h : s.sameInput t)
    (hg : s.allocGrant s.declaredSize = t.allocGrant t.declaredSize) : SameRun (runDecode s) (runDecode t) := by
  cases hs : s.allocGrant s.declaredSize with
  | false =>
    rw [runDecode_denied s hs, runDecode_denied t (hg ▸ hs)]
    exact denied h
  | true =>
    have hlen : (Machine.decodeStart s).inLen - (Machine.decodeStart s).ic =
        (Machine.decodeStart t).inLen - (Machine.decodeStart t).ic :=
      (decodeStart h).field fun u => u.inLen - u.ic
    rw [runDecode_eq_body hs, runDecode_eq_body (hg ▸ hs), decodeBody, decodeBody, ← hlen]
    exact ((decodeStart h).decodeLoop _).finishDecode

end SameRun

/-- The delivered bytes are bytes of the written window. -/
theorem runDecode_resultLen_le (s : State) :
    (runDecode s).resultLen ≤ (runDecode s).oc ∧ (runDecode s).resultLen ≤ (runDecode s).outCap := by
  cases hg : s.allocGrant s.declaredSize with
  | false =>
    rw [runDecode_denied s hg]
    exact ⟨Nat.le_refl _, Nat.le_refl _⟩
  | true =>
    rw [runDecode_eq_body hg, decodeBody, finishDecode_eq]
    exact ⟨Nat.min_le_left _ _, Nat.min_le_right _ _⟩

/-- Settles O48: two accepted DECODEs on the same input and grant keep the same registers and the same written window
from their start values on, token by token. -/
theorem decodingDependsOnInputOnly : Obligations.DecodingDependsOnInputOnly := by
  intro s s' t t' hb hb' hin hlen hg h h'
  rw [exec_decode_accepted s hb hlen] at h
  rw [exec_decode_accepted s' hb' (hin.1 ▸ hlen)] at h'
  cases h
  cases h'
  have hrun := SameRun.runDecode hin hg
  obtain ⟨hoc, hcap⟩ := runDecode_resultLen_le s
  exact ⟨hrun.field State.ic, hrun.field State.oc, hrun.field State.outCap, hrun.field State.resultLen,
    hrun.field State.err, hrun.field State.refFault, fun a ha => hrun.window a (by omega) (by omega)⟩

end Sys2Proof.Machine
end

section
/-! What the host reads (10_state.md R20, R21, R25). -/

namespace Sys2Proof.Machine

/-- `STATUS`, bit by bit (10_state.md R21). -/
theorem statusBits_toNat (p : Phase) (refused refFault : Bool) :
    ((flagBit refFault ++ flagBit refused ++ phaseCode p).setWidth 32).toNat =
      (if p = .idle then 0 else if p = .done then 2 else 1) +
        (if refused then 4 else 0) + (if refFault then 8 else 0) := by
  revert refused refFault
  cases p with
  | idle => decide
  | busy c => cases c <;> decide
  | done => decide

/-- `ERR`, bit by bit (10_state.md R21, D5). -/
theorem errWord_toNat (e : ErrFlags) : (e.word.setWidth 32).toNat =
    (if e.inputOverflow then 1 else 0) + (if e.inputUnderflow then 2 else 0) +
      (if e.outputOverflow then 4 else 0) + (if e.outputUnderflow then 8 else 0) +
      (if e.allocationFailed then 16 else 0) := by
  obtain ⟨a, b, c, d, f⟩ := e
  revert a b c d f
  decide

/-- A register that fits its 32 bits is read as what it holds. -/
theorem readNat_toNat {n : Nat} (h : n < 2 ^ 32) : (BitVec.ofNat 32 n).toNat = n := by
  rw [BitVec.toNat_ofNat, Nat.mod_eq_of_lt h]

/-- Settles O37, register by register. -/
theorem hostReadsStatusErrAndCursors : Obligations.HostReadsStatusErrAndCursors := by
  intro s h
  exact ⟨statusBits_toNat s.phase s.refused s.refFault, errWord_toNat s.err, readNat_toNat h.ic_lt,
    readNat_toNat h.oc_lt, readNat_toNat h.inLen_lt, readNat_toNat h.outCap_lt, readNat_toNat h.resultLen_lt, rfl⟩

/-- Settles O54: no command runs, both memories are empty and every register is 0. -/
theorem resetMeetsTheInvariant : Obligations.ResetMeetsTheInvariant := by
  have hfits : State.reset.Fits := by constructor <;> decide
  exact hfits.inv_of_notBusy rfl

/-- Settles O55, register by register. -/
theorem resetReadsZero : Obligations.ResetReadsZero := by
  intro r
  cases r <;> rfl

end Sys2Proof.Machine
end

section
/-! Who writes IN (20_memory.md R40, R54): no piece of a command does, so a step that changes it is the host's write. -/

namespace Sys2Proof.Machine

theorem encodeStep_inMem (s : State) : (encodeStep s).inMem = s.inMem := by
  unfold encodeStep
  split
  · rw [encodeIteration_eq, emitAll_frame]
  · rw [finishEncode_frame]

theorem runDecode_inMem (s : State) : (runDecode s).inMem = s.inMem := by
  cases hg : s.allocGrant s.declaredSize with
  | false => rw [runDecode_denied s hg]; rfl
  | true => rw [runDecode_eq_body hg, decodeBody_frame]; rfl

theorem commandWrite_inMem {op : BitVec 2} {s t : State} (h : commandWrite op s = .next t) :
    t.inMem = s.inMem := by
  rcases commandWrite_cases h with rfl | ⟨_, _, rfl⟩ | ⟨_, _, rfl⟩
  · split
    · rfl
    · exact raise_inMem .refused s
  · rw [runEncode_frame]
    exact startCommand_inMem .encode s
  · exact runDecode_inMem s

/-- A step either leaves IN as it is or is a host write of IN, made while not BUSY. -/
theorem step_inMem {s t : State} (h : step s = .next t) :
    t.inMem = s.inMem ∨ ∃ a v rest, s.host = .writeIn a v :: rest ∧ s.isBusy = false := by
  rcases step_cases h with ⟨rest, v, _, hc⟩ | ⟨rest, v, _, _, rfl⟩ | ⟨rest, v, _, _, rfl⟩ |
    ⟨rest, a, v, hh, hb, _⟩ | ⟨rest, a, _, _, _, _, rfl⟩ | ⟨_, _, rfl⟩ | ⟨_, _, rfl⟩ | ⟨_, _, _, rfl⟩ |
    ⟨_, _, _, rfl⟩
  · exact Or.inl (commandWrite_inMem hc :)
  · exact Or.inl rfl
  · exact Or.inl rfl
  · exact Or.inr ⟨a, v, rest, hh, hb⟩
  · exact Or.inl rfl
  · exact Or.inl rfl
  · exact Or.inl (encodeStep_inMem s)
  · exact Or.inl (by rw [runToken_frame])
  · exact Or.inl (by rw [finishDecode_frame])

/-- Settles O22: by the cases of a step only a host write changes IN, and the step that makes one is that write. -/
theorem onlyTheHostWritesIN : Obligations.OnlyTheHostWritesIN := by
  refine ⟨fun s t h hne => (step_inMem h).resolve_left hne, fun s a v rest hh hb => ?_⟩
  exact ⟨hostWriteIn a v { s with host := rest },
    step_hostNotBusy s (.writeIn a v) rest hh hb (by simp), rfl, readIn_hostWriteIn a v { s with host := rest }⟩

end Sys2Proof.Machine
end

section
/-! Reading control bits (20_memory.md R42, 43_bitstream_codec.md R132): what several calls of `nextBit` take from one
group. -/

namespace Sys2Proof.Machine

/-- Calls of `nextBit` that stay inside the open group return its low bits in order and shift them out. -/
theorem nextBits_of_le_dfCnt {s : State} {n : Nat} (h : n ≤ s.dfCnt) :
    nextBits n s = ((List.range n).map s.dfAcc.getLsbD,
      { s with dfAcc := s.dfAcc >>> n, dfCnt := s.dfCnt - n }) := by
  induction n generalizing s with
  | zero => simp [nextBits]
  | succ n ih =>
    have hbit : nextBit s =
        (s.dfAcc.getLsbD 0, { s with dfAcc := s.dfAcc >>> 1, dfCnt := s.dfCnt - 1 }) := by
      rw [nextBit_eq, if_neg (by omega)]
    have hshift : (s.dfAcc >>> 1).getLsbD = fun k => s.dfAcc.getLsbD (k + 1) := by
      funext k
      rw [BitVec.getLsbD_ushiftRight, Nat.add_comm]
    have hrest := ih (s := { s with dfAcc := s.dfAcc >>> 1, dfCnt := s.dfCnt - 1 }) (Nat.le_sub_one_of_lt h)
    simp only [nextBits, hbit, hrest, hshift, ← BitVec.shiftRight_add, Nat.sub_sub, Nat.add_comm 1 n,
      List.range_succ_eq_map, List.map_cons, List.map_map]
    rfl

/-- Refilling the group first changes nothing for the call that would do it. -/
theorem nextBit_refillGroup (s : State) : nextBit (refillGroup s) = nextBit s := by
  have hidem : refillGroup (refillGroup s) = refillGroup s := by
    by_cases h : s.dfCnt = 0 <;> simp [refillGroup, h]
  simp only [nextBit, hidem]

/-- Settles O28: the first call fetches the byte, and all `n` calls then stay inside its group. -/
theorem controlBitsComeOutLowToHigh : Obligations.ControlBitsComeOutLowToHigh := by
  intro s n hcnt hpos hle
  obtain ⟨m, rfl⟩ := Nat.exists_eq_add_of_le' hpos
  have hfill : refillGroup s = { s with ic := s.ic + 1, dfAcc := s.inByte s.ic, dfCnt := 8 } := by
    rw [refillGroup, if_pos hcnt]
    rfl
  have hbits : nextBits (m + 1) s = nextBits (m + 1) (refillGroup s) := by
    simp only [nextBits, nextBit_refillGroup]
  rw [hbits, hfill, nextBits_of_le_dfCnt hle]
  refine ⟨_, rfl, rfl, fun k => ?_⟩
  rw [BitVec.getLsbD_ushiftRight, Nat.add_comm k]

end Sys2Proof.Machine
end

section
/-! The encoding (30_encoding.md R71 to R82): the decoder by the class of the flag byte, the packed flag bytes it
undoes, and the packing of what it reads. -/

namespace Sys2Proof

/-! ## The decoder by the class of the flag byte -/

@[simp] theorem byteAt_cons_zero (b : Byte) (bytes : List Byte) : byteAt (b :: bytes) 0 = b := rfl

@[simp] theorem decodeToken_true_cons (f : Byte) (ops : List Byte) :
    (decodeToken true (f :: ops)).1 = decodeFlag f ops := rfl

theorem decodeFlag_of_terminator {f : Byte} (h : classify f = .terminator) (ops : List Byte) :
    decodeFlag f ops = .terminator := by
  simp only [decodeFlag, h]

theorem decodeFlag_of_rawRun {f : Byte} (h : classify f = .rawRun) (ops : List Byte) :
    decodeFlag f ops = .rawRun (takeBytes ops (rawLen f)) := by
  simp only [decodeFlag, h]

theorem decodeFlag_of_nearMatch {f : Byte} (h : classify f = .nearMatch) (ops : List Byte) :
    decodeFlag f ops = .nearMatch (nearDisp f) (nearLen f) := by
  simp only [decodeFlag, h]

theorem decodeFlag_of_farMatch {f : Byte} (h : classify f = .farMatch) (ops : List Byte) :
    decodeFlag f ops = .farMatch (farDisp f (byteAt ops 0)) (farLen f) := by
  simp only [decodeFlag, h]

/-! ## Decoding what the encoder writes -/

/-- The flag byte carries the length, and the bytes behind it are the run. -/
theorem decodeFlag_rawFlag {raw : List Byte} (h : rawSpellable raw = true) :
    decodeFlag (rawFlag raw.length) raw = .rawRun raw := by
  obtain ⟨hmin, hmax⟩ := (rawSpellable_iff raw).1 h
  obtain ⟨hclass, hlen⟩ := raw_unpack raw.length (by omega) hmin
  rw [decodeFlag_of_rawRun hclass, hlen, takeBytes_eq_take raw _ le_rfl, List.take_length]

theorem decodeFlag_nearFlag {disp len : Nat} (h : nearSpellable disp len = true) (ops : List Byte) :
    decodeFlag (nearFlag disp len) ops = .nearMatch disp len := by
  obtain ⟨hdisp, hmin, hmax⟩ := (nearSpellable_iff disp len).1 h
  obtain ⟨hclass, hd, hl⟩ := near_unpack disp (by omega) len (by omega) hmin
  rw [decodeFlag_of_nearMatch hclass, hd, hl]

theorem decodeFlag_farFlag {disp len : Nat} (h : farSpellable disp len = true) (rest : List Byte) :
    decodeFlag (farFlag disp len) (farLow disp :: rest) = .farMatch disp len := by
  obtain ⟨hclass, hd, hl⟩ := far_unpack disp len h
  rw [decodeFlag_of_farMatch hclass, byteAt_cons_zero, hd, hl]

/-- Settles O1, by the constructor: each packed flag byte reads back as the fields it was packed from. -/
theorem decodeOfEncodeIsIdentity : Obligations.DecodeOfEncodeIsIdentity := by
  intro i hwf
  cases i with
  | literal v => rfl
  | terminator => rfl
  | rawRun raw => exact congrArg Decoded.instr (decodeFlag_rawFlag hwf)
  | nearMatch disp len => exact congrArg Decoded.instr (decodeFlag_nearFlag hwf [])
  | farMatch disp len => exact congrArg Decoded.instr (decodeFlag_farFlag hwf [])
  | encode => rfl
  | decode => rfl

/-! ## Encoding what the decoder reads -/

/-- Only the Terminator's own flag byte is of its class (R75). -/
theorem eq_termFlag_of_classify {f : Byte} (h : classify f = .terminator) : f = Config.termFlag := by
  unfold classify at h
  split_ifs at h with hf
  exact hf

theorem farLow_farDisp (f b : Byte) (h : classify f = .farMatch) : farLow (farDisp f b) = b := by
  obtain ⟨-, -, -, hmod, -⟩ := (classify_ranges f).2.2 h
  apply BitVec.eq_of_toNat_eq
  rw [farLow_toNat, farDisp_eq]
  omega

theorem farFlag_farDisp (f b : Byte) (h : classify f = .farMatch) : farFlag (farDisp f b) (farLen f) = f := by
  obtain ⟨-, -, -, hmod, -, hpack⟩ := (classify_ranges f).2.2 h
  have hhigh : farDisp f b >>> 8 = ((f.toNat <<< 3) &&& 0x300) / 256 := by
    rw [farDisp_eq, Nat.shiftRight_eq_div_pow]
    omega
  rw [farFlag, hhigh, hpack]

/-- Every token has a byte behind its control bit (R80). -/
theorem payloadBytes_pos {i : Instr} (h : i.isToken = true) : 1 ≤ payloadBytes i := by
  cases i <;> simp_all [payloadBytes, Instr.isToken]

/-- Encoding the token of a flag byte gives the flag byte back, and behind it the operand bytes the token takes. -/
theorem encode_decodeFlag (f : Byte) (ops : List Byte) (h : payloadBytes (decodeFlag f ops) ≤ ops.length + 1) :
    encode (decodeFlag f ops) = .token true ((f :: ops).take (payloadBytes (decodeFlag f ops))) := by
  cases hc : classify f with
  | terminator =>
    rw [decodeFlag_of_terminator hc, eq_termFlag_of_classify hc]
    rfl
  | rawRun =>
    obtain ⟨-, -, hpack⟩ := (classify_ranges f).1 hc
    rw [decodeFlag_of_rawRun hc] at h ⊢
    simp only [payloadBytes, takeBytes_length] at h
    have htake : takeBytes ops (rawLen f) = ops.take (rawLen f) := takeBytes_eq_take ops _ (by omega)
    rw [encode, payloadBytes, takeBytes_length, hpack, htake, Nat.add_comm, List.take_succ_cons]
  | nearMatch =>
    obtain ⟨-, -, -, hpack⟩ := (classify_ranges f).2.1 hc
    rw [decodeFlag_of_nearMatch hc, encode, hpack]
    rfl
  | farMatch =>
    rw [decodeFlag_of_farMatch hc] at h ⊢
    obtain ⟨b, rest, rfl⟩ := List.exists_cons_of_length_pos (Nat.le_of_succ_le_succ h)
    rw [byteAt_cons_zero, encode, farFlag_farDisp f b hc, farLow_farDisp f b hc]
    rfl

/-- Settles O2, by the control bit: behind a 1 the flag byte's class says which bytes the token takes. -/
theorem encodeOfDecodedTokenIsItsPayload : Obligations.EncodeOfDecodedTokenIsItsPayload := by
  intro ctl bytes hlen
  obtain ⟨hwf, htok⟩ := decodeToken_wellFormed ctl bytes
  refine ⟨htok, hwf, ?_, rfl⟩
  obtain ⟨f, ops, rfl⟩ := List.exists_cons_of_length_pos ((payloadBytes_pos htok).trans hlen)
  cases ctl with
  | false => rfl
  | true => exact encode_decodeFlag f ops hlen

/-! ## The dispatch of a flag byte, by its value -/

theorem classify_eq_rawRun {f : Byte} (h : 0xC0 ≤ f.toNat) : classify f = .rawRun := by
  have hterm : f ≠ Config.termFlag := by
    rintro rfl
    exact absurd h (by decide)
  rw [classify, if_neg hterm, if_pos h]

theorem classify_eq_nearMatch {f : Byte} (hlow : 0x80 ≤ f.toNat) (hhigh : f.toNat < 0xC0) :
    classify f = .nearMatch := by
  have hterm : f ≠ Config.termFlag := by
    rintro rfl
    exact absurd hlow (by decide)
  rw [classify, if_neg hterm, if_neg (Nat.not_le.2 hhigh), if_pos hlow]

theorem classify_eq_farMatch {f : Byte} (h : f.toNat < 0x80) (hterm : f ≠ Config.termFlag) :
    classify f = .farMatch := by
  rw [classify, if_neg hterm, if_neg (by omega), if_neg (by omega)]

theorem nearDisp_eq_mod (f : Byte) : nearDisp f = f.toNat % 16 := Nat.and_two_pow_sub_one_eq_mod f.toNat 4

theorem nearLen_eq_div (f : Byte) : nearLen f = f.toNat / 16 - 6 := by
  rw [nearLen, Nat.shiftRight_eq_div_pow]

theorem farLen_eq_mod (f : Byte) : farLen f = f.toNat % 32 + 3 :=
  congrArg (· + 3) (Nat.and_two_pow_sub_one_eq_mod f.toNat 5)

/-- Below 0x80 the flag byte holds displacement bits 9:8 in its bits 6:5 and nothing above them. -/
theorem farDisp_eq_add {f : Byte} (h : f.toNat < 0x80) (b : Byte) :
    farDisp f b = b.toNat + 256 * (f.toNat / 32) := by
  have hhigh : ∀ f : Byte, f.toNat < 0x80 → (f.toNat <<< 3) &&& 0x300 = 256 * (f.toNat / 32) := by
    decide +kernel
  rw [farDisp_eq, hhigh f h, Nat.add_comm]

/-- A run longer than the bytes at hand still starts with them. -/
theorem getElem?_takeBytes {bytes : List Byte} {n k : Nat} (hn : k < n) (hk : k < bytes.length) :
    (takeBytes bytes n)[k]? = bytes[k]? := by
  rw [takeBytes, List.getElem?_map, List.getElem?_range hn]
  simp [byteAt, hk]

/-- Settles O3: each range of values is a class of the ordered tests, and each field is its quotient or remainder. -/
theorem flagByteSelectsTokenAndOperands : Obligations.FlagByteSelectsTokenAndOperands := by
  intro flag rest
  simp only [decodeToken_true_cons]
  refine ⟨?_, fun h => ?_, fun hlow hhigh => ?_, ?_⟩
  · rintro rfl
    rfl
  · refine ⟨_, decodeFlag_of_rawRun (classify_eq_rawRun h) rest, takeBytes_length rest _, fun k hk hrest => ?_⟩
    rw [takeBytes_length] at hk
    exact getElem?_takeBytes hk hrest
  · rw [decodeFlag_of_nearMatch (classify_eq_nearMatch hlow hhigh), nearDisp_eq_mod, nearLen_eq_div]
  · rintro h hterm b rest' rfl
    rw [decodeFlag_of_farMatch (classify_eq_farMatch h hterm), byteAt_cons_zero, farDisp_eq_add h, farLen_eq_mod]

/-- Settles O4: each word is evaluated by the decoder. -/
theorem sampleWordsDecode : Obligations.SampleWordsDecode := by
  unfold Obligations.SampleWordsDecode
  decide

end Sys2Proof
end

section
/-! What the finder reports about its window (41_match_finder.md R101, R102): every candidate is measured against the
report, and a report with a length is itself a candidate. -/

namespace Sys2Proof.Machine

/-- A shared run of some length starts with an equal byte (R100). -/
theorem IsCommonPrefix.firstByte_eq {rd : Nat → Byte} {m p cap k : Nat} (h : IsCommonPrefix rd m p cap k)
    (hk : 0 < k) : rd m = rd p := by
  obtain ⟨_, hagree, _⟩ := h
  exact hagree 0 hk

/-- No candidate of the window is longer than the report, and none as long is nearer. -/
theorem bestMatch_longest_nearest (s : State) {e k : Nat} (he : 1 ≤ e) (hic : e ≤ s.ic) (hspan : e ≤ 1023)
    (hk : IsCommonPrefix s.readIn (s.ic - e) s.ic (min 34 (s.inLen - s.ic)) k) :
    k ≤ (bestMatch s).2 ∧ (k = (bestMatch s).2 → 0 < (bestMatch s).2 → (bestMatch s).1 ≤ e) := by
  have hwin : e ≤ windowSize s.ic := Nat.le_min.2 ⟨hic, hspan⟩
  have hcp : commonPrefix s.readIn (s.ic - e) s.ic (matchLimit s) = k := (commonPrefix_spec _ _ _ _).unique hk
  rcases bestMatch_spec s with ⟨hb, hnone⟩ | ⟨d, _, _, hb, _, hbest⟩
  · have hk0 : k = 0 := hcp.symm.trans (hnone e he hwin)
    rw [hb]
    exact ⟨Nat.le_of_eq hk0, fun _ hpos => absurd hpos (Nat.lt_irrefl 0)⟩
  · obtain ⟨hle, hlt⟩ := hbest e he hwin
    rw [hcp] at hle hlt
    rw [hb]
    exact ⟨hle, fun heq _ => Nat.le_of_not_lt fun hnear => Nat.ne_of_lt (hlt hnear) heq⟩

/-- A report with a length is the longest common prefix at a candidate of the window. -/
theorem bestMatch_isCandidate (s : State) (hpos : 0 < (bestMatch s).2) :
    1 ≤ (bestMatch s).1 ∧ (bestMatch s).1 ≤ s.ic ∧ (bestMatch s).1 ≤ 1023 ∧
    IsCommonPrefix s.readIn (s.ic - (bestMatch s).1) s.ic (min 34 (s.inLen - s.ic)) (bestMatch s).2 := by
  rcases bestMatch_spec s with ⟨hb, _⟩ | ⟨d, hd, hwin, hb, _, _⟩
  · rw [hb] at hpos
    exact absurd hpos (Nat.lt_irrefl 0)
  · obtain ⟨hic, hspan⟩ := Nat.le_min.1 hwin
    rw [hb]
    exact ⟨hd, hic, hspan, commonPrefix_spec _ _ _ _⟩

/-- A report without a length is the pair `(0, 0)` (D20). -/
theorem bestMatch_eq_zero_of_length (s : State) (h : (bestMatch s).2 = 0) : bestMatch s = (0, 0) := by
  rcases bestMatch_spec s with ⟨hb, _⟩ | ⟨d, _, _, hb, hpos, _⟩
  · exact hb
  · rw [hb] at h
    exact absurd h (Nat.ne_of_gt hpos)

/-- Settles O31, with the pair of `bestMatch`: it beats every candidate of the window, and is one if it has a length. -/
theorem finderReportsNearestLongestMatch : Obligations.FinderReportsNearestLongestMatch := by
  intro s _
  exact ⟨(bestMatch s).1, (bestMatch s).2, rfl,
    fun _ _ he hic hspan hk => bestMatch_longest_nearest s he hic hspan hk, bestMatch_isCandidate s⟩

/-- Settles O32: a report with a length would be a candidate that starts with the byte at the position. -/
theorem finderWithNoCandidateAnswersZero : Obligations.FinderWithNoCandidateAnswersZero := by
  intro s _ hnone
  have hlen : (bestMatch s).2 = 0 := by
    by_contra hne
    obtain ⟨hd, hic, hspan, hprefix⟩ := bestMatch_isCandidate s (Nat.pos_of_ne_zero hne)
    exact hnone _ hd hic hspan (hprefix.firstByte_eq (Nat.pos_of_ne_zero hne))
  rw [find, bestMatch_eq_zero_of_length s hlen]

end Sys2Proof.Machine
end

section
/-! The selector (42_mode_selector.md R111, R112): its choice by the ranges of the pair it is given, and the selector
step of a running ENCODE by that choice (R113 to R117). -/

namespace Sys2Proof.Machine

/-! ## The choice -/

theorem clamp_of_lt {d len : Nat} (hd : d < 256) (hlen : len ≤ 34) : clamp d len = min len 33 := by
  rw [clamp_eq]
  split <;> omega

theorem clamp_of_le {d : Nat} (hd : 256 ≤ d) (len : Nat) : clamp d len = len := by
  rw [clamp_eq, if_neg (by omega)]

theorem select_eq_near {d len : Nat} (hlen : 2 ≤ len ∧ len ≤ 5) (hd : 1 ≤ d ∧ d ≤ 15) :
    select d len = .near d len := by
  rw [select_eq, if_pos ⟨hlen.1, hd⟩, if_pos hlen.2]

/-- A length of at least 3 that the near form does not carry goes to the far form, clamped. -/
theorem select_eq_far {d len : Nat} (hlen : 3 ≤ len) (hfar : 6 ≤ len ∨ d = 0 ∨ 16 ≤ d) :
    select d len = .far d (clamp d len) := by
  rw [select_eq]
  by_cases hnear : 2 ≤ len ∧ 1 ≤ d ∧ d ≤ 15
  · rw [if_pos hnear, if_neg (by omega)]
  · rw [if_neg hnear, if_pos hlen]

theorem select_eq_lit {d len : Nat} (h : len < 2 ∨ (len = 2 ∧ (d = 0 ∨ 16 ≤ d))) : select d len = .lit := by
  rw [select_eq, if_neg (by omega), if_neg (by omega)]

/-- Settles O33: each clause is one branch of the ordered tests, the far ones with their clamp. -/
theorem selectorChoosesByTheOrderedTests : Obligations.SelectorChoosesByTheOrderedTests := by
  intro d len hle
  refine ⟨?_, ?_, ?_, ?_, select_eq_lit⟩
  · rintro ⟨hmin, hmax, hd⟩
    exact select_eq_near ⟨hmin, hmax⟩ hd
  · rintro ⟨hlen, -, hd⟩
    rw [select_eq_far (by omega) (Or.inl hlen), clamp_of_lt (by omega) hle]
  · rintro ⟨hlen, hfar, hd⟩
    rw [select_eq_far hlen (Or.inr hfar), clamp_of_lt hd hle]
  · rintro ⟨hlen, hd⟩
    rw [select_eq_far hlen (by omega), clamp_of_le hd]

/-- Settles O34, by the choice: a match keeps the finder's displacement and at most its length. -/
theorem selectedMatchesAreSpellable : Obligations.SelectedMatchesAreSpellable := by
  intro s _
  rcases select_cases s with hc | ⟨d, len, hc, hwf, hd, hic, hend, _⟩ | ⟨d, len, hc, hwf, hd, hic, hend, _⟩
  · rw [hc]
    trivial
  · rw [hc]
    exact ⟨hwf, hd, hic, hend⟩
  · rw [hc]
    exact ⟨hwf, hd, hic, hend⟩

/-! ## The step, by the choice -/

theorem step_encode_input {s : State} (hh : s.host = []) (hp : s.phase = .busy .encode) (hlt : s.ic < s.inLen) :
    step s = .next (encodeIteration s) := by
  rw [step_busyEncode s hh hp, encodeStep, if_pos hlt]

theorem step_encode_end {s : State} (hh : s.host = []) (hp : s.phase = .busy .encode) (hle : s.inLen ≤ s.ic) :
    step s = .next (finishEncode s) := by
  rw [step_busyEncode s hh hp, encodeStep, if_neg (Nat.not_lt.2 hle)]

/-- A literal decision emits nothing (R113). -/
theorem encodeIteration_of_lit {s : State} (hc : select (bestMatch s).1 (bestMatch s).2 = .lit) :
    encodeIteration s =
      { s with ic := s.ic + 1, pend := s.pend + 1, mDisp := (bestMatch s).1, mLen := (bestMatch s).2 } := by
  simp only [encodeIteration_eq, stepTokens, stepAdvance, stepPend, hc, emitAll]

/-- A near emission (R114). -/
theorem encodeIteration_of_near {s : State} {d len : Nat}
    (hc : select (bestMatch s).1 (bestMatch s).2 = .near d len) :
    encodeIteration s = { emitAll (pendingTokens s ++ [(true, [nearFlag d len])]) s with
      ic := s.ic + len, pend := 0, mDisp := (bestMatch s).1, mLen := (bestMatch s).2 } := by
  simp only [encodeIteration_eq, stepTokens, stepAdvance, stepPend, hc]

/-- A far emission (R115). -/
theorem encodeIteration_of_far {s : State} {d len : Nat}
    (hc : select (bestMatch s).1 (bestMatch s).2 = .far d len) :
    encodeIteration s = { emitAll (pendingTokens s ++ [(true, [farFlag d len, farLow d])]) s with
      ic := s.ic + len, pend := 0, mDisp := (bestMatch s).1, mLen := (bestMatch s).2 } := by
  simp only [encodeIteration_eq, stepTokens, stepAdvance, stepPend, hc]

/-- Settles O17: the step is a selector step, and a literal decision emits nothing. -/
theorem literalDecisionEmitsNothing : Obligations.LiteralDecisionEmitsNothing := by
  intro s hh hp hlt hc
  rw [step_encode_input hh hp hlt, encodeIteration_of_lit hc]

/-! ## The bytes of a match, as sums of their fields -/

/-- The fields of a near flag byte do not overlap (30_encoding.md R79). -/
theorem nearFlag_eq_ofNat {d len : Nat} (h : nearSpellable d len = true) :
    nearFlag d len = BitVec.ofNat 8 (0x80 + 16 * (len - 2) + d) := by
  have hfields : ∀ d < 16, ∀ l < 4,
      0x80#8 ||| (BitVec.ofNat 8 l <<< 4) ||| BitVec.ofNat 8 d = BitVec.ofNat 8 (0x80 + 16 * l + d) := by decide
  obtain ⟨hd, hmin, hmax⟩ := (nearSpellable_iff d len).1 h
  exact hfields d (by omega) (len - 2) (by omega)

/-- The fields of a far flag byte do not overlap (30_encoding.md R79). -/
theorem farFlag_eq_ofNat {d len : Nat} (h : farSpellable d len = true) :
    farFlag d len = BitVec.ofNat 8 (32 * (d / 256) + (len - 3)) := by
  have hfields : ∀ g < 4, ∀ l < 32,
      (BitVec.ofNat 8 g <<< 5) ||| BitVec.ofNat 8 l = BitVec.ofNat 8 (32 * g + l) := by decide
  obtain ⟨hd, hmin, hmax, -⟩ := (farSpellable_iff d len).1 h
  rw [farFlag, Nat.shiftRight_eq_div_pow]
  exact hfields (d / 2 ^ 8) (by omega) (len - 3) (by omega)

theorem farLow_eq_ofNat (d : Nat) : farLow d = BitVec.ofNat 8 (d % 256) :=
  congrArg (BitVec.ofNat 8) (Nat.and_two_pow_sub_one_eq_mod d 8)

/-- What the selector asks for has an encoding: the near form carries the pair. -/
theorem nearSpellable_of_select {s : State} {d len : Nat} (hlt : s.ic < s.inLen)
    (hc : select (bestMatch s).1 (bestMatch s).2 = .near d len) : nearSpellable d len = true := by
  have h := selectedMatchesAreSpellable s hlt
  rw [hc] at h
  obtain ⟨hwf, -⟩ := h
  exact hwf

/-- The same for the far form. -/
theorem farSpellable_of_select {s : State} {d len : Nat} (hlt : s.ic < s.inLen)
    (hc : select (bestMatch s).1 (bestMatch s).2 = .far d len) : farSpellable d len = true := by
  have h := selectedMatchesAreSpellable s hlt
  rw [hc] at h
  obtain ⟨hwf, -⟩ := h
  exact hwf

/-- Settles O18, by the form of the match: the step emits the pending literals and the match's packed bytes, which are
the sums of their fields. -/
theorem matchStepEmitsPendingLiteralsThenTheMatch : Obligations.MatchStepEmitsPendingLiteralsThenTheMatch := by
  intro s d len payload hh hp hlt hmatch
  rw [step_encode_input hh hp hlt]
  rcases hmatch with ⟨hc, rfl⟩ | ⟨hc, rfl⟩
  · rw [encodeIteration_of_near hc, nearFlag_eq_ofNat (nearSpellable_of_select hlt hc), pendingTokens]
  · rw [encodeIteration_of_far hc, farFlag_eq_ofNat (farSpellable_of_select hlt hc), farLow_eq_ofNat, pendingTokens]

/-- Settles O19: ENCODE's end emits the closing tokens, then accounts and is DONE. -/
theorem endOfInputEmitsPendingLiteralsThenTheTerminator :
    Obligations.EndOfInputEmitsPendingLiteralsThenTheTerminator := by
  intro s hh hp hle
  rw [step_encode_end hh hp hle, finishEncode, endOfInput_eq]
  rfl

end Sys2Proof.Machine
end

section
/-! The size of an encoding that finds no match (42_mode_selector.md R119): where no run of two bytes repeats, ENCODE's
loop emits nothing, and the end of the input emits one literal a byte and the Terminator. -/

namespace Sys2Proof.Machine

/-- No run of two bytes of the input occurs at a second place, overlapping or not. -/
def State.NoRepeatedPair (s : State) : Prop :=
  ∀ i j, i < j → j + 1 < s.inLen → ¬ (s.readIn i = s.readIn j ∧ s.readIn (i + 1) = s.readIn (j + 1))

/-- A finder's match of two bytes or more would be a repeated pair, so the selector decides for a literal. -/
theorem State.NoRepeatedPair.select_eq_lit {s : State} (h : s.NoRepeatedPair) :
    select (bestMatch s).1 (bestMatch s).2 = .lit := by
  obtain ⟨_, hic, _, hend, hpos, hagree⟩ := bestMatch_range s
  apply Machine.select_eq_lit
  by_contra hlen
  have hd := hpos (by omega)
  have h0 := hagree 0 (by omega)
  have h1 := hagree 1 (by omega)
  exact h (s.ic - (bestMatch s).1) s.ic (by omega) (by omega) ⟨h0, h1⟩

/-- A state that ENCODE's loop reaches from `b` by literal decisions alone: every byte it passed is pending. -/
def AllPending (b t : State) : Prop :=
  t = { b with ic := t.ic, pend := t.ic, mDisp := t.mDisp, mLen := t.mLen }

theorem AllPending.next {b t : State} (h : AllPending b t) (hb : b.NoRepeatedPair) :
    AllPending b (encodeIteration t) := by
  have ht : t.NoRepeatedPair := by
    rw [h]
    exact hb
  rw [encodeIteration_of_lit ht.select_eq_lit]
  unfold AllPending at h ⊢
  rw [h]

/-- Without a repeated pair ENCODE's loop makes literal decisions alone. -/
theorem encodeLoop_allPending {s : State} (hs : s.NoRepeatedPair) (n : Nat) :
    AllPending (beginEncode s) (encodeLoop n (beginEncode s)) :=
  have hb : (beginEncode s).NoRepeatedPair := hs
  encodeLoop_keeps (P := AllPending (beginEncode s)) (fun _ ht _ => ht.next hb) n _ rfl

/-- What ENCODE's end stores behind the two header bytes where every byte is pending and no group is open: one byte and
one bit for each literal and for the Terminator. -/
theorem finishEncode_oc_of_pending {s : State} (hoc : s.oc = 2) (hcnt : s.dfCnt = 8) :
    (finishEncode s).oc = 2 + (s.pend + 1 + 7) / 8 + s.pend + 1 := by
  have hsize := emitAll_size (closingTokens s) s
  have hdf := emitAll_dfCnt (closingTokens s) s (by omega)
  have hlast := hdf.2 (Or.inl (by omega))
  rw [closingTokens_cost] at hsize
  rw [finishEncode_oc]
  omega

/-- Settles O42: the loop leaves the whole input pending, and the end of the input emits it. -/
theorem incompressibleInputHasTheLiteralSize : Obligations.IncompressibleInputHasTheLiteralSize := by
  intro s t hb hi ho hpair h
  rw [exec_encode_accepted s hb hi ho] at h
  cases h
  have hall : AllPending (beginEncode s) (encodeLoop s.inLen (beginEncode s)) := encodeLoop_allPending hpair _
  have hic : (encodeLoop s.inLen (beginEncode s)).ic = s.inLen := encodeLoop_ends _ _ (Nat.zero_le _) le_rfl
  change (finishEncode (encodeLoop s.inLen (beginEncode s))).oc = _
  generalize encodeLoop s.inLen (beginEncode s) = u at hall hic ⊢
  have hoc : u.oc = 2 := by rw [hall, beginEncode_oc]
  have hcnt : u.dfCnt = 8 := by rw [hall, beginEncode_dfCnt]
  have hpend : u.pend = s.inLen := by rw [hall, hic]
  rw [finishEncode_oc_of_pending hoc hcnt, hpend]

end Sys2Proof.Machine
end

section
/-! Writing control bits (43_bitstream_codec.md R131): the open group that several calls of `pushBit` fill. -/

namespace Sys2Proof.Machine

/-- The state `t` is reached from `s` by pushing the bits `bs` into one group opened at the cursor of `s`: its control
byte holds them from bit 0 on and is stored, below `OUT_CAP`. -/
structure GroupFilled (s : State) (bs : List Bool) (t : State) : Prop where
  frame : t = { s with oc := s.oc + 1, dfPos := s.oc, dfCnt := bs.length, dfAcc := t.dfAcc, outMem := t.outMem }
  acc   : ∀ j, t.dfAcc.getLsbD j = bs.getD j false
  out   : ∀ a, t.readOut a = if a = s.oc ∧ a < s.outCap then t.dfAcc else s.readOut a

/-- A control byte has no bit at or above the count of its group (D15). -/
theorem GroupFilled.dfAcc_lt {s t : State} {bs : List Bool} (h : GroupFilled s bs t) :
    t.dfAcc.toNat < 2 ^ bs.length := by
  apply Nat.lt_pow_two_of_testBit
  intro j hj
  rw [BitVec.testBit_toNat, h.acc, List.getD_eq_default _ _ hj]

theorem getLsbD_bitByte (b : Bool) (j : Nat) : (bitByte b).getLsbD j = [b].getD j false := by
  rcases j with _ | j
  · cases b <;> rfl
  · cases b <;> simp [bitByte]

/-- The push that finds no group open opens one at the cursor. -/
theorem groupFilled_pushBit {s : State} (h8 : s.dfCnt = 8) (b : Bool) : GroupFilled s [b] (pushBit b s) where
  frame := by
    rw [pushBit_frame]
    simp [h8]
  acc j := by
    rw [pushBit_dfAcc, if_pos h8, getLsbD_bitByte]
  out a := by
    rw [readOut_pushBit, pushBit_dfPos, if_pos h8]

/-- A further push puts its bit behind the ones the group holds. -/
theorem GroupFilled.pushBit {s t : State} {bs : List Bool} (h : GroupFilled s bs t) (hlt : bs.length < 8) (b : Bool) :
    GroupFilled s (bs ++ [b]) (Machine.pushBit b t) := by
  have hcnt : t.dfCnt = bs.length := by rw [h.frame]
  have hpos : t.dfPos = s.oc := by rw [h.frame]
  have hcap : t.outCap = s.outCap := by rw [h.frame]
  have h8 : t.dfCnt ≠ 8 := by omega
  refine ⟨?_, fun j => ?_, fun a => ?_⟩
  · rw [pushBit_frame, h.frame]
    simp [Nat.ne_of_lt hlt]
  · rw [pushBit_dfAcc, if_neg h8, hcnt, orBit_getLsbD _ hlt b _ h.dfAcc_lt, h.acc]
    rcases Nat.lt_trichotomy j bs.length with hj | rfl | hj
    · rw [if_neg (Nat.ne_of_lt hj), List.getD_append _ _ _ _ hj]
    · rw [if_pos rfl, List.getD_append_right _ _ _ _ le_rfl, Nat.sub_self, List.getD_cons_zero]
    · rw [if_neg (Nat.ne_of_gt hj), List.getD_eq_default _ _ hj.le, List.getD_eq_default _ _ (by simpa using hj)]
  · rw [readOut_pushBit, pushBit_dfPos, if_neg h8, hpos, hcap, h.out]
    split
    · rfl
    · rfl

theorem GroupFilled.pushBits {s t : State} {bs : List Bool} (h : GroupFilled s bs t) (cs : List Bool)
    (hle : (bs ++ cs).length ≤ 8) : GroupFilled s (bs ++ cs) (Machine.pushBits cs t) := by
  induction cs generalizing bs t with
  | nil =>
    rw [List.append_nil]
    exact h
  | cons c cs ih =>
    have hlt : bs.length < 8 := by
      rw [List.length_append, List.length_cons] at hle
      omega
    rw [List.append_cons] at hle ⊢
    exact ih (h.pushBit hlt c) hle

/-- Settles O29: the first push opens the group, and the further ones fill it. -/
theorem pushedBitsPackLowToHigh : Obligations.PushedBitsPackLowToHigh := by
  intro s bs h8 hne hle
  obtain ⟨b, cs, rfl⟩ := List.exists_cons_of_ne_nil hne
  have h : GroupFilled s (b :: cs) (pushBits (b :: cs) s) := (groupFilled_pushBit h8 b).pushBits cs hle
  refine ⟨_, rfl, h.frame, h.acc, fun hcap => ?_, fun a ha => ?_⟩
  · rw [h.out, if_pos ⟨rfl, hcap⟩]
  · rw [h.out, if_neg]
    rintro ⟨rfl, hcap⟩
    exact ha ⟨rfl, hcap⟩

end Sys2Proof.Machine
end

section
/-! The mirror property (43_bitstream_codec.md R134): a decoder in step with an emission reads all of its tokens back. -/

namespace Sys2Proof.Machine

/-- A decoder with no bits left is in step with an encoder that has no group open, where IN holds the emission. -/
theorem inStep_of_fresh {s t u : State} (hs : s.dfCnt = 8) (hu : u.dfCnt = 0) (hcap : t.oc ≤ s.outCap)
    (hlen : u.ic + (t.oc - s.oc) ≤ u.inLen)
    (hbytes : ∀ a, a < t.oc - s.oc → u.readIn (u.ic + a) = t.readOut (s.oc + a)) : InStep s t u where
  group := Or.inl hs
  fits := hcap
  count := by omega
  bytes a hlow hhigh := by
    rw [inByte_of_lt (by omega), hbytes _ (by omega), Nat.add_sub_cancel' hlow]
  bits j hj := by omega

/-- Fetches return the bytes that stand at the cursor. -/
theorem inFetches_of_getElem? {u : State} {p : List Byte}
    (h : ∀ k v, p[k]? = some v → u.inByte (u.ic + k) = v) :
    inFetches p.length u = (p, { u with ic := u.ic + p.length }) := by
  rw [inFetches_eq]
  congr 1
  refine List.ext_getElem (by simp) fun k _ hk => ?_
  rw [List.getElem_map, List.getElem_range]
  exact h k _ (List.getElem?_eq_getElem hk)

/-- In step with an emission, the decoder reads its tokens back and passes exactly its bytes. -/
theorem InStep.readAll_eq {e t u : State} {ts : List (Bool × List Byte)} (h : InStep e t u) (ht : t = emitAll ts e) :
    (readAll (ts.map fun p => p.2.length) u).1 = ts ∧
    (readAll (ts.map fun p => p.2.length) u).2.ic = u.ic + (t.oc - e.oc) := by
  induction ts generalizing e u with
  | nil =>
    subst ht
    simp [readAll]
  | cons token ts ih =>
    obtain ⟨b, p⟩ := token
    obtain ⟨hbit, hpay, hic, hnext⟩ := h.next ht
    obtain ⟨hrest, hend⟩ := ih hnext ht
    have hlow : e.oc ≤ (outStores p (pushBit b e)).oc := emitAll_oc_le [(b, p)] e
    have hhigh : (outStores p (pushBit b e)).oc ≤ t.oc := ht ▸ emitAll_oc_le ts _
    simp only [List.map_cons, readAll, inFetches_of_getElem? hpay, hbit]
    refine ⟨by rw [hrest], ?_⟩
    calc _ = (nextBit u).2.ic + p.length + (t.oc - (outStores p (pushBit b e)).oc) := hend
      _ = u.ic + (t.oc - e.oc) := by omega

/-- Settles O30: the decoder starts in step with the emission. -/
theorem codecMirrorsItself : Obligations.CodecMirrorsItself := by
  intro ts s t u hs ht hcap hu hlen hbytes
  exact (inStep_of_fresh hs hu hcap hlen hbytes).readAll_eq ht

end Sys2Proof.Machine
end

section
/-! The decoder and copy engine (44_decoder_copy_engine.md R141 to R148): what the meaning of each token leaves in the
state, and the step of a running DECODE by whether its loop goes on. -/

namespace Sys2Proof.Machine

/-! ## Bytes from input to output -/

/-- OUT after a literal. -/
theorem readOut_literalToken (v : Byte) (s : State) (a : Nat) :
    (literalToken v s).readOut a = if a = s.oc ∧ s.oc < s.outCap then v else s.readOut a :=
  readOut_outStore v (inFetch s).2 a

/-- Settles O5: a literal is one guarded store, made at the output cursor. -/
theorem literalPassesOneByte : Obligations.LiteralPassesOneByte := by
  intro v s
  refine ⟨literalToken v s, rfl, rfl, fun hcap => ?_, fun a ha => ?_⟩
  · rw [readOut_literalToken, if_pos ⟨rfl, hcap⟩]
  · rw [readOut_literalToken, if_neg]
    rintro ⟨rfl, hcap⟩
    exact ha ⟨rfl, hcap⟩

/-- OUT after a raw run. -/
theorem readOut_rawRunToken (raw : List Byte) (s : State) (a : Nat) :
    (rawRunToken raw s).readOut a =
      if s.oc ≤ a ∧ a < s.oc + raw.length ∧ a < s.outCap then raw.getD (a - s.oc) 0 else s.readOut a := by
  rw [rawRunToken_eq]
  exact readOut_outStores raw _ a

/-- Settles O7: a raw run is its bytes' guarded stores, one after another from the output cursor on. -/
theorem rawRunPassesItsBytes : Obligations.RawRunPassesItsBytes := by
  intro raw s
  refine ⟨rawRunToken raw s, rfl, ?_, fun k v hk hcap => ?_, fun a ha => ?_⟩
  · rw [rawRunToken_eq, outStores_frame]
  · have hlen : k < raw.length := (List.getElem?_eq_some_iff.1 hk).1
    rw [readOut_rawRunToken, if_pos (by omega), Nat.add_sub_cancel_left, List.getD, hk, Option.getD_some]
  · rw [readOut_rawRunToken, if_neg ha]

/-! ## Copies inside OUT -/

/-- The registers of a match token are loaded, and its copy begins (R146). -/
def loadMatch (d len : Nat) (s : State) : State := { s with tDisp := d, tCnt := len }

/-- A near match is `len` iterations of the copy engine with displacement `d` (R146, R147). -/
theorem exec_nearMatch (d len : Nat) (s : State) :
    exec (.nearMatch d len) s = .next (copyBytes len (loadMatch d len s)) := rfl

/-- A far match is the near match of its operands behind one more byte of input (R148). -/
theorem exec_farMatch (d len : Nat) (s : State) :
    exec (.farMatch d len) s = exec (.nearMatch d len) { s with ic := s.ic + 1 } := rfl

/-- Settles O8, by what a copy does to the frame, to OUT and to `REF_FAULT`. -/
theorem nearMatchCopiesFromTheWindow : Obligations.NearMatchCopiesFromTheWindow := by
  intro d len s
  refine ⟨_, exec_nearMatch d len s, copyMatch_frame (loadMatch d len s), readOut_copyBytes len (loadMatch d len s),
    fun a ha => ?_, refFault_copyBytes len (loadMatch d len s)⟩
  refine readOut_copyBytes_outside len (loadMatch d len s) a ?_
  change a < s.oc ∨ s.oc + len ≤ a ∨ s.outCap ≤ a
  omega

/-- Settles O9: as the near match, one input byte on. -/
theorem farMatchCopiesFromTheWindow : Obligations.FarMatchCopiesFromTheWindow := by
  intro d len s
  rw [exec_farMatch]
  exact nearMatchCopiesFromTheWindow d len { s with ic := s.ic + 1 }

/-- A copy that finds its source in the window and its target inside `OUT_CAP` repeats the last bytes cyclically: behind
the first `d` bytes, each byte is one that the copy itself has produced (R147, 20_memory.md R53). -/
theorem readOut_copyBytes_cyclic {n : Nat} {s : State} (hd : 1 ≤ s.tDisp) (hoc : s.tDisp ≤ s.oc)
    (hcap : s.oc + n ≤ s.outCap) (k : Nat) (hk : k < n) :
    (copyBytes n s).readOut (s.oc + k) = s.readOut (s.oc - s.tDisp + k % s.tDisp) := by
  induction k using Nat.strongRecOn with
  | ind k ih =>
    rw [readOut_copyBytes n s k hk (by omega), if_pos (by omega)]
    by_cases hlt : k < s.tDisp
    · rw [Nat.mod_eq_of_lt hlt, readOut_copyBytes_outside n s _ (Or.inl (by omega)), Nat.sub_add_comm hoc]
    · have hle : s.tDisp ≤ k := Nat.le_of_not_lt hlt
      rw [Nat.add_sub_assoc hle, ih (k - s.tDisp) (by omega) (by omega), Nat.mod_eq_sub_mod hle]

/-- A copy that finds its source in the window and its target inside `OUT_CAP` raises nothing. -/
theorem refFault_copyBytes_inside {n : Nat} {s : State} (hd : 1 ≤ s.tDisp) (hoc : s.tDisp ≤ s.oc)
    (hcap : s.oc + n ≤ s.outCap) : (copyBytes n s).refFault = s.refFault := by
  rw [Bool.eq_iff_iff, refFault_copyBytes, or_iff_left]
  rintro ⟨i, hi, hinvalid⟩
  omega

/-- Settles O10: both match tokens are a copy from the written window, the far one an input byte on. -/
theorem matchRepeatsLastBytesCyclically : Obligations.MatchRepeatsLastBytesCyclically := by
  have hnear : ∀ (d len : Nat) (s : State), 1 ≤ d → d ≤ s.oc → s.oc + len ≤ s.outCap →
      ∃ t, exec (.nearMatch d len) s = .next t ∧ t.refFault = s.refFault ∧
        ∀ k, k < len → t.readOut (s.oc + k) = s.readOut (s.oc - d + k % d) :=
    fun d len s hd hoc hcap => ⟨_, exec_nearMatch d len s,
      refFault_copyBytes_inside (s := loadMatch d len s) hd hoc hcap,
      readOut_copyBytes_cyclic (s := loadMatch d len s) hd hoc hcap⟩
  rintro d len s hd hoc hcap i (rfl | rfl)
  · exact hnear d len s hd hoc hcap
  · rw [exec_farMatch]
    exact hnear d len { s with ic := s.ic + 1 } hd hoc hcap

/-! ## The step of a running DECODE -/

/-- Between tokens, with input left and no Terminator met, the step runs the token it fetches (R141, R142). -/
theorem step_decode_token {s : State} (hh : s.host = []) (hp : s.phase = .busy .decode)
    (hterm : s.terminated = false) (hlt : s.ic < s.inLen) :
    step s = exec (fetchToken s).1 (fetchToken s).2 := by
  rw [step_busyDecode s hh hp, decodeStep, if_pos ((moreTokens_iff s).2 ⟨hterm, hlt⟩)]

/-- With the loop over, by the Terminator or by exhaustion, the step is what follows the loop (R141). -/
theorem step_decode_end {s : State} (hh : s.host = []) (hp : s.phase = .busy .decode)
    (hend : s.terminated = true ∨ s.inLen ≤ s.ic) : step s = .next (finishDecode s) := by
  have hmore : s.moreTokens = false := by
    rw [Bool.eq_false_iff, Ne, moreTokens_iff]
    rintro ⟨hterm, hlt⟩
    rcases hend with h | h
    · rw [hterm] at h
      cases h
    · omega
  rw [step_busyDecode s hh hp, decodeStep_ends s hmore]

/-- Settles O6: `TERMINATED` ends the loop whatever is left of the input. -/
theorem terminatorEndsTheLoop : Obligations.TerminatorEndsTheLoop :=
  fun _ => ⟨rfl, fun hh hp => step_decode_end hh hp (Or.inl rfl)⟩

/-- Settles O12: the fetch reads the token that is spelled at the cursor. -/
theorem stepRunsTheDecodedToken : Obligations.StepRunsTheDecodedToken := by
  intro s s1 i ctl payload hh hp hterm hlt hwf henc hbit hpay
  have hfetch : fetchToken s = (i, if ctl then fetchFlag s1 else s1) := by
    have h := fetchToken_spelled (s := s) hwf henc
    rw [hbit] at h
    exact h rfl hpay
  rw [step_decode_token hh hp hterm hlt, hfetch]
  rfl

/-- Settles O15: what follows the loop is the accounting, each flag by a comparison of the final cursors, and DONE. -/
theorem decodeLoopEndsAtTerminatorOrExhaustion : Obligations.DecodeLoopEndsAtTerminatorOrExhaustion := by
  intro s hh hp hend
  rw [step_decode_end hh hp hend, finishDecode_eq, hp, decide_eq_true rfl, Bool.true_and]

end Sys2Proof.Machine
end

section
/-! What the buffer accounting is obliged to do (45_buffer_accounting.md). -/

namespace Sys2Proof.Machine

/-- Settles O35, by the equation of the accounting step: its input side and its output side, each with its own
comparisons. -/
theorem accountingComparesFinalCursors : Obligations.AccountingComparesFinalCursors := account_eq

end Sys2Proof.Machine
end

section
/-! The host's accesses while no command runs (46_commands.md R170 to R172): a write of `CMD` by its field, its
acceptance test, and every other access, which leaves the results. -/

namespace Sys2Proof.Machine

/-! ## A write of `CMD` -/

theorem step_commandWrite {s : State} {v : Word} {rest : List HostAccess} (h : s.host = .writeReg .cmd v :: rest) :
    step s = commandWrite (commandField v) { s with host := rest } := step_host s _ rest h

/-- The field is the value's low two bits (10_state.md R20; log 20). -/
theorem commandField_of_mod {v : Word} {k : Nat} (h : v.toNat % 4 = k) : commandField v = BitVec.ofNat 2 k := by
  apply BitVec.eq_of_toNat_eq
  rw [commandField, BitVec.toNat_setWidth, BitVec.toNat_ofNat]
  omega

theorem commandWrite_encode (s : State) : commandWrite 1#2 s = exec .encode s := rfl

theorem commandWrite_decode (s : State) : commandWrite 2#2 s = exec .decode s := rfl

/-- A write with no command in it is ignored while BUSY, else it sets `REFUSED`. -/
theorem rejectedWrite_eq (s : State) : rejectedWrite s = { s with refused := s.refused || !s.isBusy } := by
  unfold rejectedWrite
  cases hb : s.isBusy with
  | true => simp
  | false => simp [refuseCommand, raise]

theorem commandWrite_noCommand {op : BitVec 2} (h : op = 0#2 ∨ op = 3#2) (s : State) :
    commandWrite op s = .next { s with refused := s.refused || !s.isBusy } := by
  rw [← rejectedWrite_eq]
  rcases h with rfl | rfl
  · rfl
  · rfl

/-- Settles O13: the step is the write of `CMD`, and its field is the value modulo 4. -/
theorem stepMakesTheCommandWrite : Obligations.StepMakesTheCommandWrite := by
  intro s v rest h
  rw [step_commandWrite h]
  refine ⟨fun hv => ?_, fun hv => ?_, fun hv => ?_⟩
  · rw [commandField_of_mod hv, commandWrite_encode]
  · rw [commandField_of_mod hv, commandWrite_decode]
  · exact commandWrite_noCommand (hv.imp commandField_of_mod commandField_of_mod) _

/-! ## The acceptance test -/

/-- A command that arrives while BUSY is ignored. -/
theorem exec_command_busy {s : State} (hb : s.isBusy = true) :
    exec .encode s = .next s ∧ exec .decode s = .next s := by
  constructor
  · rw [exec, execEncode, if_pos hb]
  · rw [exec, execDecode, if_pos hb]

theorem exec_encode_refused {s : State} (hb : s.isBusy = false) (h : ¬ (s.inLen ≤ 0xFFFF ∧ s.outCap ≤ 0x00FFFFFF)) :
    exec .encode s = .next { s with refused := true } := by
  rw [exec, execEncode, hb, if_neg Bool.false_ne_true, if_neg ((acceptsEncode_iff s).not.2 h)]
  rfl

theorem exec_decode_refused {s : State} (hb : s.isBusy = false) (h : ¬ s.inLen ≤ 0x00FFFFFF) :
    exec .decode s = .next { s with refused := true } := by
  rw [exec, execDecode, hb, if_neg Bool.false_ne_true, if_neg ((acceptsDecode_iff s).not.2 h)]
  rfl

/-- Settles O39, by the two tests of ENCODE: BUSY, then the limits. -/
theorem encodeRefusedOrIgnored : Obligations.EncodeRefusedOrIgnored :=
  fun _ => ⟨fun hb => (exec_command_busy hb).1, fun hb h => exec_encode_refused hb (by omega)⟩

/-- Settles O46, by the two tests of DECODE: BUSY, then the limit. -/
theorem decodeRefusedOrIgnored : Obligations.DecodeRefusedOrIgnored :=
  fun _ => ⟨fun hb => (exec_command_busy hb).2, fun hb h => exec_decode_refused hb (by omega)⟩

/-- An accepted command starts with `REFUSED` clear, and nothing in it sets it (46_commands.md R170). -/
theorem runEncode_refused (s : State) : (runEncode s).refused = false := by rw [runEncode_frame]; rfl

theorem runDecode_refused (s : State) : (runDecode s).refused = false := by
  cases hg : s.allocGrant s.declaredSize with
  | false => rw [runDecode_denied s hg]; rfl
  | true => rw [runDecode_eq_body hg, decodeBody_frame]; rfl

/-- Settles O14, by the field of the write: each command runs exactly inside its limits, and a field of 0 or 3 names
none. -/
theorem commandWritePassesTheAcceptanceTest : Obligations.CommandWritePassesTheAcceptanceTest := by
  rintro s u v rest h hb rfl
  have hb' : State.isBusy { s with host := rest } = false := hb
  rw [step_commandWrite h]
  refine ⟨?_, fun hrej => ?_⟩
  · rintro (⟨hv, hi, ho⟩ | ⟨hv, hi⟩)
    · rw [commandField_of_mod hv, commandWrite_encode, exec_encode_accepted _ hb' hi ho]
      exact ⟨_, rfl, runEncode_phase _, runEncode_refused _⟩
    · rw [commandField_of_mod hv, commandWrite_decode, exec_decode_accepted _ hb' hi]
      exact ⟨_, rfl, runDecode_phase _, runDecode_refused _⟩
  · by_cases h1 : v.toNat % 4 = 1
    · rw [commandField_of_mod h1, commandWrite_encode]
      exact exec_encode_refused hb' fun hacc => hrej (Or.inl ⟨h1, hacc⟩)
    · by_cases h2 : v.toNat % 4 = 2
      · rw [commandField_of_mod h2, commandWrite_decode]
        exact exec_decode_refused hb' fun hacc => hrej (Or.inr ⟨h2, hacc⟩)
      · have hv : v.toNat % 4 = 0 ∨ v.toNat % 4 = 3 := by omega
        rw [commandWrite_noCommand (hv.imp commandField_of_mod commandField_of_mod), hb', Bool.not_false, Bool.or_true]

/-! ## Every other access -/

/-- An access that is no write of `CMD` changes at most IN, `IN_LEN` and `OUT_CAP`. -/
theorem hostEffect_frame (a : HostAccess) (s : State) : hostEffect a s =
    { s with inMem := (hostEffect a s).inMem, inLen := (hostEffect a s).inLen, outCap := (hostEffect a s).outCap } := by
  cases a with
  | writeReg r v => cases r <;> rfl
  | _ => rfl

theorem hostEffect_inLen {a : HostAccess} (h : ∀ v, a ≠ .writeReg .inLen v) (s : State) :
    (hostEffect a s).inLen = s.inLen := by
  cases a with
  | writeReg r v =>
    cases r with
    | inLen => exact absurd rfl (h v)
    | _ => rfl
  | _ => rfl

theorem hostEffect_outCap {a : HostAccess} (h : ∀ v, a ≠ .writeReg .outCap v) (s : State) :
    (hostEffect a s).outCap = s.outCap := by
  cases a with
  | writeReg r v =>
    cases r with
    | outCap => exact absurd rfl (h v)
    | _ => rfl
  | _ => rfl

theorem hostEffect_inMem {a : HostAccess} (h : ∀ b v, a ≠ .writeIn b v) (s : State) :
    (hostEffect a s).inMem = s.inMem := by
  cases a with
  | writeReg r v => cases r <;> rfl
  | writeIn b v => exact absurd rfl (h b v)
  | _ => rfl

/-- Settles O26: with no access pending the engine waits; with one, its effect on the registers is that of the access. -/
theorem resultsStableUntilNextCommandWrite : Obligations.ResultsStableUntilNextCommandWrite := by
  intro s hb hcmd
  cases hh : s.host with
  | nil =>
    refine ⟨s, step_waits s hh (isBusy_eq_false s hb), ?_, fun _ _ h => ?_, fun _ => rfl, fun _ _ h => ?_,
      fun _ => rfl, fun _ => rfl⟩
    · rw [List.tail_nil, ← hh]
    · cases h
    · cases h
  | cons a rest =>
    have hne : ∀ v, a ≠ .writeReg .cmd v := fun v hv => hcmd v rest (by rw [hh, hv])
    refine ⟨_, step_hostNotBusy s a rest hh hb hne, hostEffect_frame a _, ?_, fun h => ?_, ?_, fun h => ?_, fun h => ?_⟩
    · rintro v _ ⟨⟩
      rfl
    · exact hostEffect_inLen (fun v hv => h v rest (by rw [hv])) _
    · rintro v _ ⟨⟩
      rfl
    · exact hostEffect_outCap (fun v hv => h v rest (by rw [hv])) _
    · exact hostEffect_inMem (fun b v hv => h b v rest (by rw [hv])) _

end Sys2Proof.Machine
end

section
/-! The two views of a command (46_commands.md R173; log 2): its atomic run is reached by its single steps. -/

namespace Sys2Proof.Machine

/-! ## ENCODE by selector steps -/

/-- A selector step changes the encoder's registers and OUT. -/
theorem encodeIteration_frame (s : State) : encodeIteration s = { s with
    ic := (encodeIteration s).ic, oc := (encodeIteration s).oc, dfAcc := (encodeIteration s).dfAcc
    dfCnt := (encodeIteration s).dfCnt, dfPos := (encodeIteration s).dfPos, pend := (encodeIteration s).pend
    mDisp := (encodeIteration s).mDisp, mLen := (encodeIteration s).mLen, outMem := (encodeIteration s).outMem } := by
  rw [encodeIteration_eq, emitAll_frame]

/-- Settles O16: the step is a selector step, which passes at least one byte and stays inside the input. -/
theorem stepOfRunningEncodeAdvances : Obligations.StepOfRunningEncodeAdvances := by
  intro s hh hp hlt
  obtain ⟨hpos, hend⟩ := stepAdvance_range s hlt
  refine ⟨_, step_encode_input hh hp hlt, ?_, ?_, encodeIteration_frame s⟩
  · rw [encodeIteration_ic]
    omega
  · rw [encodeIteration_ic]
    exact hend

/-- ENCODE's loop is reached by single steps. -/
theorem run_encodeLoop (n : Nat) {s : State} (hh : s.host = []) (hp : s.phase = .busy .encode) :
    ∃ k, core.run k s = .next (encodeLoop n s) := by
  induction n generalizing s with
  | zero => exact ⟨0, rfl⟩
  | succ n ih =>
    by_cases hlt : s.ic < s.inLen
    · obtain ⟨k, hk⟩ := ih (s := encodeIteration s) (by rw [encodeIteration_frame]; exact hh)
        (by rw [encodeIteration_frame]; exact hp)
      exact ⟨k + 1, by rw [run_next core k s _ (step_encode_input hh hp hlt), hk, encodeLoop_succ n s hlt]⟩
    · exact ⟨0, by rw [encodeLoop, if_neg hlt]; rfl⟩

/-- Where ENCODE's loop ends. -/
def encodeEnd (s : State) : State := encodeLoop s.inLen (beginEncode s)

theorem runEncode_eq (s : State) : runEncode s = finishEncode (encodeEnd s) := rfl

theorem encodeEnd_ic (s : State) : (encodeEnd s).ic = s.inLen := encodeLoop_ends _ _ (Nat.zero_le _) le_rfl

/-- ENCODE's loop leaves what is the host's, the phase and the flags as the command's start set them. -/
theorem encodeEnd_frame (s : State) : encodeEnd s = { startCommand .encode s with
    ic := s.inLen, oc := (encodeEnd s).oc, outMem := (encodeEnd s).outMem, dfAcc := (encodeEnd s).dfAcc
    dfCnt := (encodeEnd s).dfCnt, dfPos := (encodeEnd s).dfPos, pend := (encodeEnd s).pend
    mDisp := (encodeEnd s).mDisp, mLen := (encodeEnd s).mLen } := by
  have h := encodeLoop_frame s.inLen (beginEncode s)
  rw [show (encodeLoop s.inLen (beginEncode s)).ic = s.inLen from encodeEnd_ic s] at h
  exact h

/-- Settles O52: the loop's turns are steps, and one more step is the end of the input. -/
theorem encodeIsItsSelectorSteps : Obligations.EncodeIsItsSelectorSteps := by
  intro s hh hb hi ho
  obtain ⟨k, hk⟩ := run_encodeLoop s.inLen (s := beginEncode s) hh rfl
  have hstep : step (encodeEnd s) = .next (runEncode s) := by
    refine step_encode_end ?_ ?_ ?_
    · rw [encodeEnd_frame]; exact hh
    · rw [encodeEnd_frame]; rfl
    · rw [encodeEnd_frame]; exact le_rfl
  exact ⟨_, k + 1, exec_encode_accepted s hb hi ho, run_then core k _ _ _ hk hstep⟩

/-! ## DECODE by token steps -/

/-- DECODE's loop is reached by single steps. -/
theorem run_decodeLoop (n : Nat) {s : State} (hh : s.host = []) (hp : s.phase = .busy .decode) :
    ∃ k, core.run k s = .next (decodeLoop n s) := by
  induction n generalizing s with
  | zero => exact ⟨0, rfl⟩
  | succ n ih =>
    cases hm : s.moreTokens with
    | true =>
      obtain ⟨k, hk⟩ := ih (s := runToken s) (by rw [runToken_frame]; exact hh) (by rw [runToken_frame]; exact hp)
      have hstep : step s = .next (runToken s) := by rw [step_busyDecode s hh hp, decodeStep_token s hm]
      exact ⟨k + 1, by rw [run_next core k s _ hstep, hk, decodeLoop_succ n s hm]⟩
    | false => exact ⟨0, by rw [decodeLoop, hm]; rfl⟩

/-- Where a granted DECODE's loop ends. -/
def decodeEnd (s : State) : State := decodeLoop (s.inLen - 2) (decodeStart s)

theorem runDecode_eq {s : State} (h : s.allocGrant s.declaredSize = true) : runDecode s = finishDecode (decodeEnd s) :=
  runDecode_eq_body h

/-- DECODE's loop ends by the Terminator or by exhaustion. -/
theorem decodeEnd_moreTokens (s : State) : (decodeEnd s).moreTokens = false := decodeLoop_ends _ _ le_rfl

/-- DECODE's loop leaves what is the host's, the granted capacity, the phase and the flags but `REF_FAULT`. -/
theorem decodeEnd_frame (s : State) : decodeEnd s = { decodeStart s with
    ic := (decodeEnd s).ic, oc := (decodeEnd s).oc, outMem := (decodeEnd s).outMem
    dfAcc := (decodeEnd s).dfAcc, dfCnt := (decodeEnd s).dfCnt, flag := (decodeEnd s).flag
    tDisp := (decodeEnd s).tDisp, tCnt := (decodeEnd s).tCnt
    terminated := (decodeEnd s).terminated, refFault := (decodeEnd s).refFault } := decodeLoop_frame _ _

theorem fetchHeader_startCommand (s : State) :
    fetchHeader (startCommand .decode s) = (s.declaredSize, { startCommand .decode s with ic := 2 }) := rfl

theorem beginDecode_granted {s : State} (h : s.allocGrant s.declaredSize = true) : beginDecode s = decodeStart s := by
  have h' : State.allocGrant { startCommand .decode s with ic := 2 } s.declaredSize = true := h
  simp only [beginDecode, fetchHeader_startCommand, h', if_true]
  rfl

theorem beginDecode_denied {s : State} (h : s.allocGrant s.declaredSize = false) : beginDecode s = runDecode s := by
  have h' : State.allocGrant { startCommand .decode s with ic := 2 } s.declaredSize = false := h
  simp only [beginDecode, runDecode, fetchHeader_startCommand, h', Bool.false_eq_true, if_false]

/-- Settles O51: a denied DECODE is at its end where its loop would begin; the loop's turns of a granted one are steps,
and one more step is its end. -/
theorem decodeIsItsTokenSteps : Obligations.DecodeIsItsTokenSteps := by
  intro s hh hb hi
  refine ⟨runDecode s, ?_⟩
  cases hg : s.allocGrant s.declaredSize with
  | false => exact ⟨0, exec_decode_accepted s hb hi, by rw [beginDecode_denied hg]; rfl⟩
  | true =>
    obtain ⟨k, hk⟩ := run_decodeLoop (s.inLen - 2) (s := decodeStart s) hh rfl
    have hstep : step (decodeEnd s) = .next (runDecode s) := by
      rw [runDecode_eq hg, ← decodeStep_ends _ (decodeEnd_moreTokens s)]
      refine step_busyDecode _ ?_ ?_
      · rw [decodeEnd_frame]; exact hh
      · rw [decodeEnd_frame]; rfl
    exact ⟨k + 1, exec_decode_accepted s hb hi, by rw [beginDecode_granted hg]; exact run_then core k _ _ _ hk hstep⟩

end Sys2Proof.Machine
end

section
/-! What an accepted ENCODE answers (46_commands.md R174, R176): its results from where its loop ends, the size of the
encoding, the header. -/

namespace Sys2Proof.Machine

/-! ## ENCODE's end -/

/-- What ENCODE's loop keeps holds where it ends. -/
theorem encodeEnd_state (s : State) : EncodeLoopState (beginEncode s) (encodeEnd s) := encodeLoop_state s _

/-- The end of ENCODE: the closing tokens, the comparisons of the accounting step, DONE. -/
theorem finishEncode_eq (s : State) : finishEncode s = { emitAll (closingTokens s) s with
    pend := 0
    phase := .done
    resultLen := min (emitAll (closingTokens s) s).oc s.outCap
    err := { s.err with
      inputOverflow := s.err.inputOverflow || decide (s.inLen < s.ic)
      inputUnderflow := s.err.inputUnderflow || decide (s.ic < s.inLen)
      outputOverflow := s.err.outputOverflow || decide (s.outCap < (emitAll (closingTokens s) s).oc)
      outputUnderflow := s.err.outputUnderflow ||
        (decide (s.phase = .busy .decode) && decide ((emitAll (closingTokens s) s).oc < s.outCap)) } } := by
  rw [finishEncode, complete, account_eq, endOfInput_eq, withPend, emitAll_frame]

/-- The results of an ENCODE, by its final output cursor: the input is consumed, and `OUTPUT_OVERFLOW` is the only flag
it can set (45_buffer_accounting.md R161, R162, R164). -/
theorem runEncode_results (s : State) : (runEncode s).ic = s.inLen ∧
    (runEncode s).resultLen = min (runEncode s).oc s.outCap ∧
    (runEncode s).err = { ErrFlags.none with outputOverflow := decide (s.outCap < (runEncode s).oc) } := by
  have hoc : (runEncode s).oc = (emitAll (closingTokens (encodeEnd s)) (encodeEnd s)).oc := finishEncode_oc _
  have herr : (encodeEnd s).err = ErrFlags.none := by rw [encodeEnd_frame]; rfl
  have hphase : (encodeEnd s).phase = .busy .encode := by rw [encodeEnd_frame]; rfl
  have hlen : (encodeEnd s).inLen = s.inLen := by rw [encodeEnd_frame]; rfl
  have hcap : (encodeEnd s).outCap = s.outCap := by rw [encodeEnd_frame]; rfl
  rw [hoc, runEncode_eq, finishEncode_eq, herr, hphase, hlen, hcap, encodeEnd_ic]
  refine ⟨?_, rfl, ?_⟩
  · rw [emitAll_frame]
    exact encodeEnd_ic s
  · simp [ErrFlags.none]

/-! ## The size of an encoding -/

/-- What the end of the input emits, counted in eighths of a byte. -/
theorem runEncode_size (s : State) : 8 * (runEncode s).oc + (runEncode s).dfCnt =
    8 * (encodeEnd s).oc + (encodeEnd s).dfCnt + (9 * (encodeEnd s).pend + 9) := by
  rw [← closingTokens_cost, ← emitAll_size, runEncode_eq, finishEncode_eq]

theorem runEncode_dfCnt (s : State) : 1 ≤ (runEncode s).dfCnt ∧ (runEncode s).dfCnt ≤ 8 := by
  obtain ⟨hmin, hmax⟩ := (encodeEnd_state s).count
  obtain ⟨hle, hpos⟩ := emitAll_dfCnt (closingTokens (encodeEnd s)) (encodeEnd s) hmax
  rw [runEncode_eq, finishEncode_eq]
  exact ⟨hpos (Or.inl hmin), hle⟩

/-- At least a header, a control byte and the Terminator; at most a byte and a bit for each input byte and for the
Terminator (46_commands.md R176). -/
theorem runEncode_oc_bounds (s : State) :
    4 ≤ (runEncode s).oc ∧ (runEncode s).oc ≤ 2 + (s.inLen + 1) + (s.inLen + 1 + 7) / 8 := by
  have hloop := encodeEnd_state s
  have hsize := runEncode_size s
  have hold := hloop.size
  have habove := hloop.above
  have hbegun := hloop.begun
  have hpatch := hloop.patch
  have hpend := hloop.pend
  obtain ⟨hmin, hmax⟩ := hloop.count
  obtain ⟨hpos, hle⟩ := runEncode_dfCnt s
  rw [encodeEnd_ic] at hold hpend
  omega

/-- Settles O40: the bound of R176, which for at most 65535 bytes is 73730. -/
theorem encodingSizeBounds : Obligations.EncodingSizeBounds := by
  intro s t hb hi ho h
  rw [exec_encode_accepted s hb hi ho] at h
  obtain rfl : runEncode s = t := Host.Outcome.next.inj h
  obtain ⟨hmin, hmax⟩ := runEncode_oc_bounds s
  exact ⟨hmin, hmax, by omega⟩

/-! ## OUT -/

theorem runEncode_readOut (s : State) (a : Nat) :
    (runEncode s).readOut a = (emitAll (closingTokens (encodeEnd s)) (encodeEnd s)).readOut a := finishEncode_readOut _ a

/-- The header stays: no emission patches a byte below the first group (20_memory.md R41). -/
theorem runEncode_readOut_header (s : State) {a : Nat} (ha : a < 2) :
    (runEncode s).readOut a = (beginEncode s).readOut a := by
  have hloop := encodeEnd_state s
  have hbegun := hloop.begun
  have habove := hloop.above
  rw [runEncode_readOut, readOut_emitAll_below _ _ _ (by omega) (by omega), hloop.low a ha]

/-- The header, big-endian, where it fits (46_commands.md R174). -/
theorem readOut_beginEncode_header {s : State} (hi : s.inLen ≤ 0xFFFF) (hcap : 2 ≤ s.outCap) :
    ((beginEncode s).readOut 0).toNat = s.inLen / 256 ∧ ((beginEncode s).readOut 1).toNat = s.inLen % 256 := by
  have hshift : s.inLen >>> 8 = s.inLen / 256 := Nat.shiftRight_eq_div_pow _ 8
  rw [beginEncode_eq, readOut_outStores, readOut_outStores,
    if_pos ⟨le_rfl, Nat.two_pos, Nat.lt_of_lt_of_le Nat.two_pos hcap⟩, if_pos ⟨Nat.zero_le _, Nat.one_lt_two, hcap⟩, hshift]
  refine ⟨?_, BitVec.toNat_ofNat _ _⟩
  exact (BitVec.toNat_ofNat _ _).trans (Nat.mod_eq_of_lt (by omega))

/-- OUT from the final output cursor up is untouched. -/
theorem runEncode_readOut_beyond (s : State) {a : Nat} (ha : (runEncode s).oc ≤ a) :
    (runEncode s).readOut a = s.readOut a := by
  have hloop := encodeEnd_state s
  have hoc : (runEncode s).oc = (emitAll (closingTokens (encodeEnd s)) (encodeEnd s)).oc := finishEncode_oc _
  have hle := finishEncode_oc_le (encodeEnd s)
  have hbegun := hloop.begun
  rw [← runEncode_eq] at hle
  rw [runEncode_readOut, readOut_emitAll_beyond _ _ _ hloop.patch (hoc ▸ ha), hloop.high a (by omega), beginEncode_eq,
    readOut_outStores, if_neg]
  · rfl
  · rintro ⟨-, hlt, -⟩
    change a < 2 at hlt
    omega

/-- Settles O38: the frame of the run, its results by the final cursors, and OUT below and above what it stored. -/
theorem acceptedEncodeCompletes : Obligations.AcceptedEncodeCompletes := by
  intro s hb hi ho
  obtain ⟨hic, hlen, herr⟩ := runEncode_results s
  refine ⟨runEncode s, exec_encode_accepted s hb hi ho, ?_, fun hfit => ?_, fun a ha => ?_⟩
  · have hframe := runEncode_frame s
    rw [hic, hlen, herr] at hframe
    exact hframe
  · have hmin := (runEncode_oc_bounds s).1
    rw [runEncode_readOut_header s Nat.two_pos, runEncode_readOut_header s Nat.one_lt_two]
    exact readOut_beginEncode_header hi (by omega)
  · rcases Nat.le_total (runEncode s).oc s.outCap with h | h
    · exact runEncode_readOut_beyond s (Nat.min_eq_left h ▸ ha)
    · exact runEncode_above s a (Nat.min_eq_right h ▸ ha)

end Sys2Proof.Machine
end

section
/-! What an accepted DECODE answers (46_commands.md R177, R178), granted its buffer or denied it. -/

namespace Sys2Proof.Machine

/-! ## Granted -/

/-- The declared size, read big-endian (20_memory.md R41). -/
theorem declaredSize_toNat (s : State) : s.declaredSize.toNat = 256 * (s.inByte 0).toNat + (s.inByte 1).toNat := by
  rw [State.declaredSize, headerValue, BitVec.toNat_append, ← Nat.shiftLeft_add_eq_or_of_lt (s.inByte 1).isLt,
    Nat.shiftLeft_eq, Nat.mul_comm]

/-- The results of a granted DECODE, by where its loop ends: every flag is a comparison of the final cursors
(45_buffer_accounting.md R161, R162, R164). -/
theorem runDecode_results {s : State} (h : s.allocGrant s.declaredSize = true) : runDecode s = { decodeEnd s with
    phase := .done
    resultLen := min (decodeEnd s).oc s.declaredSize.toNat
    err := { inputOverflow := decide (s.inLen < (decodeEnd s).ic)
             inputUnderflow := decide ((decodeEnd s).ic < s.inLen)
             outputOverflow := decide (s.declaredSize.toNat < (decodeEnd s).oc)
             outputUnderflow := decide ((decodeEnd s).oc < s.declaredSize.toNat)
             allocationFailed := false } } := by
  have herr : (decodeEnd s).err = ErrFlags.none := by rw [decodeEnd_frame]; rfl
  have hphase : (decodeEnd s).phase = .busy .decode := by rw [decodeEnd_frame]; rfl
  have hlen : (decodeEnd s).inLen = s.inLen := by rw [decodeEnd_frame]; rfl
  have hcap : (decodeEnd s).outCap = s.declaredSize.toNat := by rw [decodeEnd_frame]; rfl
  rw [runDecode_eq h, finishDecode_eq]
  simp [herr, hphase, hlen, hcap, ErrFlags.none]

/-- DECODE's loop leaves OUT untouched from its final output cursor up. -/
theorem decodeLoop_readOut_beyond (n : Nat) (s : State) {a : Nat} (ha : (decodeLoop n s).oc ≤ a) :
    (decodeLoop n s).readOut a = s.readOut a := by
  refine decodeLoop_keeps (P := fun t => t.oc ≤ a → t.readOut a = s.readOut a) (fun t ht _ hoc => ?_) n s
    (fun _ => rfl) ha
  obtain ⟨-, -, hmono, -⟩ := runToken_cursors t
  rw [runToken_readOut t a (Or.inr (Or.inl hoc))]
  exact ht (Nat.le_trans hmono hoc)

/-- A granted DECODE leaves OUT untouched from what it delivers up (10_state.md R26). -/
theorem decodeEnd_readOut (s : State) {a : Nat} (ha : min (decodeEnd s).oc s.declaredSize.toNat ≤ a) :
    (decodeEnd s).readOut a = s.readOut a := by
  have hstart : (decodeStart s).readOut a = s.readOut a := rfl
  rcases Nat.le_total (decodeEnd s).oc s.declaredSize.toNat with h | h
  · rw [Nat.min_eq_left h] at ha
    exact (decodeLoop_readOut_beyond _ _ ha).trans hstart
  · rw [Nat.min_eq_right h] at ha
    exact (decodeLoop_above _ (decodeStart s) a ha).trans hstart

/-- Settles O43: the run is its loop and the comparisons behind it, and the loop ends for one of its two reasons. -/
theorem grantedDecodeCompletes : Obligations.GrantedDecodeCompletes := by
  intro s n hb hi hg hn
  have hsize : s.declaredSize.toNat = n := (declaredSize_toNat s).trans hn.symm
  have hrun := runDecode_results hg
  have hframe := decodeEnd_frame s
  have hmore := decodeEnd_moreTokens s
  have hlen : (decodeEnd s).inLen = s.inLen := by rw [hframe]; rfl
  have hout : ∀ a, min (decodeEnd s).oc n ≤ a → (decodeEnd s).readOut a = s.readOut a := fun a ha =>
    decodeEnd_readOut s (by rw [hsize]; exact ha)
  rw [hsize] at hrun
  refine ⟨_, (exec_decode_accepted s hb hi).trans (congrArg _ hrun), ?_, ?_, hout⟩
  · generalize decodeEnd s = e at hframe ⊢
    rw [hframe, decodeStart, hsize]
    rfl
  · rw [Bool.eq_false_iff, Ne, moreTokens_iff, hlen] at hmore
    cases ht : (decodeEnd s).terminated with
    | true => exact Or.inl rfl
    | false => exact Or.inr (Nat.le_of_not_lt fun hlt => hmore ⟨ht, hlt⟩)

/-! ## Denied, and without a header -/

/-- Settles O44: a denied DECODE is its start values, the consumed header and the one flag. -/
theorem deniedDecodeCompletes : Obligations.DeniedDecodeCompletes := by
  intro s hb hi hg
  rw [exec_decode_accepted s hb hi, runDecode_denied s hg]
  rfl

/-- Settles O45: the header's two fetches are past the end of the input, so the loop ends where it begins. -/
theorem decodeOfLessThanAHeaderCompletes : Obligations.DecodeOfLessThanAHeaderCompletes := by
  intro s hb hi hg
  have hend : decodeEnd s = decodeStart s := by rw [decodeEnd, Nat.sub_eq_zero_of_le hi.le, decodeLoop]
  have hrun := runDecode_results hg
  rw [hend] at hrun
  refine ⟨_, (exec_decode_accepted s hb (by omega)).trans (congrArg _ hrun), rfl, rfl, rfl, rfl, ?_, ?_⟩
  · exact decide_eq_true hi
  · exact decide_eq_true_iff

end Sys2Proof.Machine
end

section
/-! ENCODE reads its input alone (46_commands.md R176): the finder reads the input below `IN_LEN`, and two encoders that
emit the same tokens from the same description field store the same bytes where both capacities allow it. -/

namespace Sys2Proof.Machine

/-! ## The finder -/

/-- The inner loop reads bytes below the end of the longer run. -/
theorem commonPrefix_congr {rd rd' : Nat → Byte} {m p cap : Nat} (hm : m ≤ p) (h : ∀ a, a < p + cap → rd a = rd' a) :
    commonPrefix rd m p cap = commonPrefix rd' m p cap := by
  induction cap generalizing m p with
  | zero => rfl
  | succ cap ih =>
    rw [commonPrefix, commonPrefix, h m (by omega), h p (by omega),
      ih (Nat.succ_le_succ hm) fun a ha => h a (by omega)]

theorem scanWindow_congr {rd rd' : Nat → Byte} {p cap : Nat} (h : ∀ a, a < p + cap → rd a = rd' a) (n d : Nat)
    (best : Nat × Nat) : scanWindow rd p cap n d best = scanWindow rd' p cap n d best := by
  induction n generalizing d best with
  | zero => rfl
  | succ n ih => simp only [scanWindow, commonPrefix_congr (Nat.sub_le p d) h, ih]

/-- At the same position of the same input the finder answers the same pair. -/
theorem bestMatch_of_sameInput {s t : State} (h : s.sameInput t) (hic : s.ic = t.ic) (hle : s.ic ≤ s.inLen) :
    bestMatch s = bestMatch t := by
  obtain ⟨hlen, hin⟩ := h
  unfold bestMatch
  rw [matchLimit_eq, matchLimit_eq, ← hic, ← hlen]
  exact scanWindow_congr (fun a ha => hin a (by omega)) _ _ _

/-! ## Emissions -/

/-- Two encoder states with the same output cursor and description field, whose OUT holds the same bytes below the
cursor where both capacities allow it. -/
structure SameEmission (s t : State) : Prop where
  oc    : s.oc = t.oc
  dfAcc : s.dfAcc = t.dfAcc
  dfCnt : s.dfCnt = t.dfCnt
  dfPos : s.dfPos = t.dfPos
  out   : ∀ a, a < s.oc → a < s.outCap → a < t.outCap → s.readOut a = t.readOut a

namespace SameEmission

theorem refl (s : State) : SameEmission s s := ⟨rfl, rfl, rfl, rfl, fun _ _ _ _ => rfl⟩

theorem outStore {s t : State} (h : SameEmission s t) (v : Byte) : SameEmission (outStore v s) (outStore v t) where
  oc := congrArg (· + 1) h.oc
  dfAcc := h.dfAcc
  dfCnt := h.dfCnt
  dfPos := h.dfPos
  out a ha hs ht := by
    rw [outStore_oc] at ha
    rw [outStore_outCap] at hs ht
    rw [readOut_outStore, readOut_outStore, ← h.oc]
    by_cases heq : a = s.oc
    · rw [if_pos (by omega), if_pos (by omega)]
    · rw [if_neg (by omega), if_neg (by omega)]
      exact h.out a (by omega) hs ht

theorem outStores {s t : State} (h : SameEmission s t) (vs : List Byte) :
    SameEmission (outStores vs s) (outStores vs t) := by
  induction vs generalizing s t with
  | nil => exact h
  | cons v vs ih => exact ih (h.outStore v)

theorem pushBit {s t : State} (h : SameEmission s t) (b : Bool) : SameEmission (pushBit b s) (pushBit b t) where
  oc := by rw [pushBit_oc, pushBit_oc, h.oc, h.dfCnt]
  dfAcc := by rw [pushBit_dfAcc, pushBit_dfAcc, h.dfAcc, h.dfCnt]
  dfCnt := by rw [pushBit_dfCnt, pushBit_dfCnt, h.dfCnt]
  dfPos := by rw [pushBit_dfPos, pushBit_dfPos, h.oc, h.dfCnt, h.dfPos]
  out a ha hs ht := by
    rw [pushBit_oc] at ha
    rw [pushBit_outCap] at hs ht
    have hnew : s.dfCnt = 8 → (Machine.pushBit b s).dfPos = s.oc := fun h8 => by rw [pushBit_dfPos, if_pos h8]
    have hpos : (Machine.pushBit b t).dfPos = (Machine.pushBit b s).dfPos := by
      rw [pushBit_dfPos, pushBit_dfPos, h.oc, h.dfCnt, h.dfPos]
    have hacc : (Machine.pushBit b t).dfAcc = (Machine.pushBit b s).dfAcc := by
      rw [pushBit_dfAcc, pushBit_dfAcc, h.dfAcc, h.dfCnt]
    rw [readOut_pushBit, readOut_pushBit, hpos, hacc]
    by_cases heq : a = (Machine.pushBit b s).dfPos
    · rw [if_pos ⟨heq, hs⟩, if_pos ⟨heq, ht⟩]
    · rw [if_neg fun hc => heq hc.1, if_neg fun hc => heq hc.1]
      refine h.out a ?_ hs ht
      split at ha
      · next h8 => have := hnew h8; omega
      · exact ha

/-- The same tokens keep the two emissions the same. -/
theorem emitAll {s t : State} (h : SameEmission s t) (ts : List (Bool × List Byte)) :
    SameEmission (emitAll ts s) (emitAll ts t) := by
  induction ts generalizing s t with
  | nil => exact h
  | cons tok ts ih =>
    obtain ⟨b, p⟩ := tok
    exact ih ((h.pushBit b).outStores p)

/-- A selector step is, for its emission, its tokens. -/
theorem encodeIteration {s t : State} (h : SameEmission s (Machine.emitAll (stepTokens t) t)) :
    SameEmission s (Machine.encodeIteration t) := by
  rw [encodeIteration_eq]
  exact { h with }

/-- ENCODE's end is, for its emission, the closing tokens. -/
theorem finishEncode {s t : State} (h : SameEmission s (Machine.emitAll (closingTokens t) t)) :
    SameEmission s (Machine.finishEncode t) := by
  rw [finishEncode_eq]
  exact { h with }

/-- ENCODE begins with nothing but its header, which the length decides. -/
theorem beginEncode {s t : State} (h : s.inLen = t.inLen) : SameEmission (beginEncode s) (beginEncode t) := by
  have hstart : SameEmission (startCommand .encode s) (startCommand .encode t) :=
    ⟨rfl, rfl, rfl, rfl, fun a ha _ _ => absurd ha (Nat.not_lt_zero a)⟩
  rw [beginEncode_eq, beginEncode_eq, h]
  exact hstart.outStores _

end SameEmission

/-! ## Two runs -/

/-- Two states inside two ENCODEs of the same input: the same position, the same pending literals, the same emission. -/
structure SameEncode (s t : State) : Prop where
  input    : s.sameInput t
  ic       : s.ic = t.ic
  ic_le    : s.ic ≤ s.inLen
  pend     : s.pend = t.pend
  pend_le  : s.pend ≤ s.ic
  emission : SameEmission s t

namespace SameEncode

theorem pendingTokens {s t : State} (h : SameEncode s t) : pendingTokens s = pendingTokens t := by
  have hle := h.ic_le
  have hpend := h.pend_le
  unfold Machine.pendingTokens
  rw [← h.ic, ← h.pend]
  refine List.map_congr_left fun k hk => ?_
  rw [h.input.2 _ (by have := List.mem_range.1 hk; omega)]

theorem bestMatch {s t : State} (h : SameEncode s t) : bestMatch s = bestMatch t :=
  bestMatch_of_sameInput h.input h.ic h.ic_le

/-- A selector step of both keeps the relation: it depends on the finder's pair and the pending literals. -/
theorem encodeIteration {s t : State} (h : SameEncode s t) (hlt : s.ic < s.inLen) :
    SameEncode (encodeIteration s) (encodeIteration t) := by
  have htok : stepTokens s = stepTokens t := by unfold stepTokens; rw [h.bestMatch, h.pendingTokens]
  have hadv : stepAdvance s = stepAdvance t := by unfold stepAdvance; rw [h.bestMatch]
  have hpend : stepPend s = stepPend t := by unfold stepPend; rw [h.bestMatch, h.pend]
  have hemit : SameEmission (Machine.encodeIteration s) (emitAll (stepTokens t) t) := by
    rw [encodeIteration_eq, htok]
    exact { h.emission.emitAll (stepTokens t) with }
  have hin : ∀ u a, (Machine.encodeIteration u).readIn a = u.readIn a := fun u a =>
    readIn_congr (by rw [encodeIteration_frame]) a
  exact {
    input := by
      refine ⟨by rw [encodeIteration_inLen, encodeIteration_inLen, h.input.1], fun a ha => ?_⟩
      rw [encodeIteration_inLen] at ha
      rw [hin, hin, h.input.2 a ha]
    ic := by rw [encodeIteration_ic, encodeIteration_ic, h.ic, hadv]
    ic_le := by rw [encodeIteration_ic, encodeIteration_inLen]; exact (stepAdvance_range s hlt).2
    pend := by rw [encodeIteration_eq, encodeIteration_eq]; exact hpend
    pend_le := by rw [encodeIteration_eq]; exact stepPend_le s h.pend_le
    emission := hemit.encodeIteration }

theorem encodeLoop {s t : State} (h : SameEncode s t) (n : Nat) : SameEncode (encodeLoop n s) (encodeLoop n t) := by
  induction n generalizing s t with
  | zero => exact h
  | succ n ih =>
    by_cases hlt : s.ic < s.inLen
    · rw [encodeLoop_succ n s hlt, encodeLoop_succ n t (by rw [← h.ic, ← h.input.1]; exact hlt)]
      exact ih (h.encodeIteration hlt)
    · rw [Machine.encodeLoop, Machine.encodeLoop, if_neg hlt, if_neg (by rw [← h.ic, ← h.input.1]; exact hlt)]
      exact h

/-- Two accepted ENCODEs of the same input end with the same emission. -/
theorem runEncode {s t : State} (h : s.sameInput t) : SameEmission (runEncode s) (runEncode t) := by
  have hbegin : SameEncode (beginEncode s) (beginEncode t) :=
    { input := h, ic := rfl, ic_le := Nat.zero_le _, pend := rfl, pend_le := le_rfl
      emission := SameEmission.beginEncode h.1 }
  have hend : SameEncode (encodeEnd s) (encodeEnd t) := by
    rw [encodeEnd, encodeEnd, ← h.1]
    exact hbegin.encodeLoop _
  have hclose : closingTokens (encodeEnd s) = closingTokens (encodeEnd t) := by
    rw [closingTokens, closingTokens, hend.pendingTokens]
  have hemit : SameEmission (finishEncode (encodeEnd s)) (emitAll (closingTokens (encodeEnd t)) (encodeEnd t)) := by
    rw [finishEncode_eq, hclose]
    exact { hend.emission.emitAll _ with }
  exact hemit.finishEncode

end SameEncode

/-- Settles O41: two ENCODEs of the same input go through the same selector steps and emit the same tokens. -/
theorem encodingDependsOnInputOnly : Obligations.EncodingDependsOnInputOnly := by
  intro s s' t t' hb hb' hin hi ho ho' h h'
  rw [exec_encode_accepted s hb hi ho] at h
  rw [exec_encode_accepted s' hb' (hin.1 ▸ hi) ho'] at h'
  obtain rfl : runEncode s = t := Host.Outcome.next.inj h
  obtain rfl : runEncode s' = t' := Host.Outcome.next.inj h'
  have hsame := SameEncode.runEncode hin
  have hcap : ∀ u, (runEncode u).outCap = u.outCap := fun u => by rw [runEncode_frame]; rfl
  refine ⟨hsame.oc, fun hfit hfit' a ha => hsame.out a ha ?_ ?_⟩
  · rw [hcap]; omega
  · rw [hcap]; omega

end Sys2Proof.Machine
end

section
/-! What ENCODE's tokens spell (46_commands.md R180): the tokens it emits, as instructions, and the bytes of the input
that each of them produces. -/

namespace Sys2Proof.Machine

/-! ## Instructions as emitted tokens -/

/-- The control bit and the payload that spell a token. -/
def spelling (i : Instr) : Bool × List Byte :=
  match encode i with
  | .token ctl payload => (ctl, payload)
  | .command _ => (false, [])

theorem encode_eq_spelling {i : Instr} (h : i.isToken = true) : encode i = .token (spelling i).1 (spelling i).2 := by
  cases i with
  | encode => cases h
  | decode => cases h
  | _ => rfl

/-- A spelling is the flag byte, where the control bit is 1, and the bytes that the token's meaning fetches. -/
theorem spelling_length {i : Instr} (h : i.isToken = true) :
    (spelling i).2.length = (if (spelling i).1 then 1 else 0) + operandCount i := by
  cases i with
  | rawRun raw => exact Nat.add_comm _ _
  | encode => cases h
  | decode => cases h
  | _ => rfl

/-! ## What a token produces -/

/-- A match of displacement `d` that repeats the bytes of `rd` at `p`, and begins behind its source. -/
def Repeats (rd : Nat → Byte) (p d len : Nat) : Prop :=
  1 ≤ d ∧ d ≤ p ∧ ∀ j, j < len → rd (p - d + j) = rd (p + j)

/-- The token produces the bytes of `rd` from `p` on, where those below `p` have been produced. Of the tokens that
produce bytes, ENCODE emits no raw run. -/
def Covers (rd : Nat → Byte) (p : Nat) : Instr → Prop
  | .literal v => v = rd p
  | .nearMatch d len => Repeats rd p d len
  | .farMatch d len => Repeats rd p d len
  | .terminator => False
  | .rawRun _ => False
  | .encode => False
  | .decode => False

theorem Covers.isToken {rd : Nat → Byte} {p : Nat} {i : Instr} (h : Covers rd p i) : i.isToken = true := by
  cases i with
  | encode => exact h.elim
  | decode => exact h.elim
  | _ => rfl

/-- The tokens, one after another, produce the bytes of `rd` from `p` up to `q`. -/
inductive Spells (rd : Nat → Byte) : Nat → List Instr → Nat → Prop
  | nil (p : Nat) : Spells rd p [] p
  | cons {p q : Nat} {i : Instr} {is : List Instr} (wellFormed : i.wellFormed = true) (covers : Covers rd p i)
      (rest : Spells rd (p + producedCount i) is q) : Spells rd p (i :: is) q

theorem Spells.append {rd : Nat → Byte} {p q r : Nat} {is js : List Instr} (h : Spells rd p is q)
    (h' : Spells rd q js r) : Spells rd p (is ++ js) r := by
  induction h with
  | nil p => exact h'
  | cons hw hc _ ih => exact .cons hw hc (ih h')

theorem Spells.single {rd : Nat → Byte} {p : Nat} {i : Instr} (hw : i.wellFormed = true) (hc : Covers rd p i) :
    Spells rd p [i] (p + producedCount i) := .cons hw hc (.nil _)

theorem Spells.le {rd : Nat → Byte} {p q : Nat} {is : List Instr} (h : Spells rd p is q) : p ≤ q := by
  induction h with
  | nil p => exact le_rfl
  | cons _ _ _ ih => omega

/-- One literal a byte. -/
theorem Spells.literals (rd : Nat → Byte) (p n : Nat) :
    Spells rd p ((List.range n).map fun k => .literal (rd (p + k))) (p + n) := by
  induction n with
  | zero => exact .nil p
  | succ n ih =>
    rw [List.range_succ, List.map_append]
    exact ih.append (.single rfl rfl)

/-! ## A selector step -/

/-- The pending literals as instructions. -/
def pendingLiterals (s : State) : List Instr :=
  (List.range s.pend).map fun k => .literal (s.readIn (s.ic - s.pend + k))

theorem pendingTokens_eq_spelling (s : State) : pendingTokens s = (pendingLiterals s).map spelling := by
  rw [pendingLiterals, List.map_map]
  rfl

/-- The pending literals spell the bytes that are passed over and not yet emitted (10_state.md R17). -/
theorem pendingLiterals_spells {s : State} (h : s.pend ≤ s.ic) :
    Spells s.readIn (s.ic - s.pend) (pendingLiterals s) s.ic := by
  have hlit := Spells.literals s.readIn (s.ic - s.pend) s.pend
  rwa [Nat.sub_add_cancel h] at hlit

/-- The finder's match, or as much of it as the selector takes, repeats the input at the position. -/
theorem bestMatch_repeats {s : State} {len : Nat} (hd : 1 ≤ (bestMatch s).1) (hlen : len ≤ (bestMatch s).2) :
    Repeats s.readIn s.ic (bestMatch s).1 len := by
  obtain ⟨_, hic, _, _, _, hagree⟩ := bestMatch_range s
  exact ⟨hd, hic, fun j hj => hagree j (Nat.lt_of_lt_of_le hj hlen)⟩

/-- The pending literals and a token behind them. -/
theorem pendingTokens_then_spells {s : State} {i : Instr} (hpend : s.pend ≤ s.ic) (hw : i.wellFormed = true)
    (hc : Covers s.readIn s.ic i) : ∃ is, pendingTokens s ++ [spelling i] = is.map spelling ∧
      Spells s.readIn (s.ic - s.pend) is (s.ic + producedCount i) :=
  ⟨pendingLiterals s ++ [i], by rw [pendingTokens_eq_spelling, List.map_append]; rfl,
    (pendingLiterals_spells hpend).append (.single hw hc)⟩

/-- The tokens of a selector step are the spellings of instructions, which produce the input from the first byte not
yet emitted up to the first that is pending afterwards. -/
theorem stepTokens_spells {s : State} (hpend : s.pend ≤ s.ic) : ∃ is, stepTokens s = is.map spelling ∧
    Spells s.readIn (s.ic - s.pend) is (s.ic + stepAdvance s - stepPend s) := by
  unfold stepTokens stepAdvance stepPend
  rcases select_cases s with hc | ⟨d, len, hc, hwf, hd, _, _, _, rfl, hlen⟩ |
    ⟨d, len, hc, hwf, hd, _, _, _, rfl, hlen⟩
  · rw [hc]
    refine ⟨[], rfl, ?_⟩
    simp only [Nat.add_sub_add_right]
    exact .nil _
  · rw [hc]
    exact pendingTokens_then_spells (i := .nearMatch _ len) hpend hwf (bestMatch_repeats hd hlen)
  · rw [hc]
    exact pendingTokens_then_spells (i := .farMatch _ len) hpend hwf (bestMatch_repeats hd hlen)

/-! ## The command -/

/-- Instructions and the Terminator behind them, as emitted tokens. -/
def closed (is : List Instr) : List (Bool × List Byte) := is.map spelling ++ [spelling .terminator]

/-- A state of an ENCODE that began in `b`: what it has emitted are spellings of instructions that produce the input up
to the first pending byte. -/
structure EncodedSoFar (b t : State) : Prop where
  input   : t.inMem = b.inMem
  pend_le : t.pend ≤ t.ic
  emitted : ∃ is, Spells b.readIn 0 is (t.ic - t.pend) ∧ SameEmission (emitAll (is.map spelling) b) t

theorem EncodedSoFar.next {b t : State} (h : EncodedSoFar b t) : EncodedSoFar b (encodeIteration t) := by
  obtain ⟨hin, hpend, is, hspells, hemit⟩ := h
  obtain ⟨js, htok, hstep⟩ := stepTokens_spells hpend
  have hrd : t.readIn = b.readIn := funext fun a => readIn_congr hin a
  rw [hrd] at hstep
  refine ⟨by rw [encodeIteration_frame]; exact hin, by rw [encodeIteration_eq]; exact stepPend_le t hpend,
    is ++ js, ?_, ?_⟩
  · rw [encodeIteration_eq]
    exact hspells.append hstep
  · rw [List.map_append, emitAll_append, ← htok]
    exact (hemit.emitAll _).encodeIteration

theorem EncodedSoFar.start (b : State) (h : b.pend = 0) (hic : b.ic = 0) : EncodedSoFar b b where
  input := rfl
  pend_le := by omega
  emitted := ⟨[], by rw [h, hic]; exact .nil 0, SameEmission.refl b⟩

/-- What an ENCODE has emitted, behind its header: the spellings of instructions that produce the whole input, then the
Terminator. -/
theorem runEncode_spells (s : State) : ∃ is, Spells s.readIn 0 is s.inLen ∧
    SameEmission (emitAll (closed is) (beginEncode s)) (runEncode s) := by
  obtain ⟨hin, hpend, is, hspells, hemit⟩ := encodeLoop_keeps (P := EncodedSoFar (beginEncode s))
    (fun _ h _ => h.next) s.inLen _ (EncodedSoFar.start _ rfl rfl)
  change (encodeEnd s).inMem = _ at hin
  change (encodeEnd s).pend ≤ (encodeEnd s).ic at hpend
  change Spells _ 0 is ((encodeEnd s).ic - (encodeEnd s).pend) at hspells
  have hrd : (encodeEnd s).readIn = s.readIn := funext fun a => readIn_congr hin a
  have hlits := pendingLiterals_spells hpend
  rw [hrd, encodeEnd_ic] at hlits
  rw [encodeEnd_ic] at hspells
  refine ⟨is ++ pendingLiterals (encodeEnd s), hspells.append hlits, ?_⟩
  have hclose : (pendingLiterals (encodeEnd s)).map spelling ++ [spelling .terminator] = closingTokens (encodeEnd s) := by
    rw [← pendingTokens_eq_spelling]
    rfl
  rw [closed, List.map_append, List.append_assoc, hclose, emitAll_append]
  exact (hemit.emitAll _).finishEncode

end Sys2Proof.Machine
end

section
/-! The round trip (46_commands.md R180): a decoder in step with an emission of spelled tokens runs these tokens, and
what they produce is what they spell. -/

namespace Sys2Proof.Machine

/-! ## What a token produces in OUT -/

/-- A DECODE between two tokens that has produced the bytes of `rd` below `p` and raised nothing. -/
structure Rebuilt (rd : Nat → Byte) (p : Nat) (u : State) : Prop where
  cursor : u.oc = p
  sound  : u.refFault = false
  out    : ∀ a, a < p → u.readOut a = rd a

namespace Rebuilt
variable {rd : Nat → Byte} {p : Nat} {u : State}

theorem literalToken (h : Rebuilt rd p u) (hcap : p < u.outCap) : Rebuilt rd (p + 1) (literalToken (rd p) u) where
  cursor := congrArg (· + 1) h.cursor
  sound := h.sound
  out a ha := by
    rw [readOut_literalToken, h.cursor]
    by_cases heq : a = p
    · rw [if_pos ⟨heq, hcap⟩, heq]
    · rw [if_neg fun hc => heq hc.1]
      exact h.out a (by omega)

/-- A copy that repeats the bytes of `rd` produces them: each byte it stores is one that has been produced (R147). -/
theorem copyBytes {len : Nat} (h : Rebuilt rd p u) (hrep : Repeats rd p u.tDisp len) (hcap : p + len ≤ u.outCap) :
    Rebuilt rd (p + len) (copyBytes len u) := by
  obtain ⟨hd, hdp, hagree⟩ := hrep
  obtain ⟨rfl, hsound, hout⟩ := h
  refine ⟨copyBytes_oc len u, (refFault_copyBytes_inside hd hdp hcap).trans hsound, fun a ha => ?_⟩
  induction a using Nat.strongRecOn with
  | ind a ih =>
    by_cases hlow : a < u.oc
    · rw [readOut_copyBytes_outside len u a (Or.inl hlow), hout a hlow]
    · obtain ⟨i, rfl⟩ := Nat.exists_eq_add_of_le (Nat.le_of_not_lt hlow)
      rw [readOut_copyBytes len u i (by omega) (by omega), if_pos (by omega), ih _ (by omega) (by omega),
        Nat.sub_add_comm hdp, hagree i (by omega)]

/-- A token that covers the bytes of `rd` at `p` produces them. -/
theorem tokenEffect {i : Instr} (h : Rebuilt rd p u) (hc : Covers rd p i) (hcap : p + producedCount i ≤ u.outCap) :
    Rebuilt rd (p + producedCount i) (tokenEffect i u) := by
  cases i with
  | literal v =>
    have hv : v = rd p := hc
    rw [hv]
    exact h.literalToken hcap
  | nearMatch d len =>
    have hload : Rebuilt rd p { u with tDisp := d, tCnt := len } := { h with }
    exact hload.copyBytes hc hcap
  | farMatch d len =>
    have hload : Rebuilt rd p { u with ic := u.ic + 1, tDisp := d, tCnt := len } := { h with }
    exact hload.copyBytes hc hcap
  | terminator => exact hc.elim
  | rawRun raw => exact hc.elim
  | encode => exact hc.elim
  | decode => exact hc.elim

theorem fetchToken (h : Rebuilt rd p u) : Rebuilt rd p (fetchToken u).2 := by
  rw [fetchToken_frame]
  exact { h with }

end Rebuilt

/-- Of the tokens, the Terminator alone sets `TERMINATED`. -/
theorem Covers.tokenEffect_terminated {rd : Nat → Byte} {p : Nat} {i : Instr} (h : Covers rd p i) (s : State) :
    (tokenEffect i s).terminated = s.terminated := by
  cases i with
  | literal v => rfl
  | nearMatch d len => simp only [tokenEffect, nearMatchToken]; rw [copyMatch_frame]
  | farMatch d len => simp only [tokenEffect, farMatchToken]; rw [copyMatch_frame]; rfl
  | terminator => exact h.elim
  | rawRun raw => exact h.elim
  | encode => exact h.elim
  | decode => exact h.elim

/-! ## A token in step with its emission -/

/-- A token leaves the description field as the fetch of its control bit does, and the input as it is. -/
theorem runToken_codec (u : State) : (runToken u).dfCnt = (nextBit u).2.dfCnt ∧
    (runToken u).dfAcc = (nextBit u).2.dfAcc ∧ ∀ a, (runToken u).inByte a = (nextBit u).2.inByte a := by
  have hfetch : (fetchToken u).2.dfCnt = (nextBit u).2.dfCnt ∧ (fetchToken u).2.dfAcc = (nextBit u).2.dfAcc := by
    rw [fetchToken_eq]
    dsimp only
    split
    · exact ⟨rfl, rfl⟩
    · exact ⟨rfl, rfl⟩
  refine ⟨?_, ?_, fun a => inByte_congr ?_ ?_ a⟩
  · rw [runToken, tokenEffect_frame]
    exact hfetch.1
  · rw [runToken, tokenEffect_frame]
    exact hfetch.2
  · rw [runToken_frame, nextBit_frame]
  · rw [runToken_inLen, nextBit_frame]

/-- The decoder runs the token that the encoder emitted next, passes exactly its bytes, and is in step behind it. -/
theorem InStep.runToken {e t u : State} {i : Instr} {ts : List (Bool × List Byte)} (h : InStep e t u)
    (ht : t = emitAll (spelling i :: ts) e) (hw : i.wellFormed = true) (hi : i.isToken = true) :
    (fetchToken u).1 = i ∧
    (runToken u).ic = u.ic + ((outStores (spelling i).2 (pushBit (spelling i).1 e)).oc - e.oc) ∧
    InStep (outStores (spelling i).2 (pushBit (spelling i).1 e)) t (runToken u) := by
  obtain ⟨hbit, hpay, hic, hnext⟩ := h.next (b := (spelling i).1) (p := (spelling i).2) ht
  have hfetch := fetchToken_spelled hw (encode_eq_spelling hi) hbit hpay
  have hfirst : (fetchToken u).1 = i := by rw [hfetch]
  have hcur : (Machine.runToken u).ic = (nextBit u).2.ic + (spelling i).2.length := by
    rw [Machine.runToken, tokenEffect_ic, hfetch, spelling_length hi]
    cases (spelling i).1 with
    | true => exact Nat.add_assoc _ _ _
    | false => rw [if_neg Bool.false_ne_true, if_neg Bool.false_ne_true, Nat.zero_add]
  obtain ⟨hcnt, hacc, hin⟩ := runToken_codec u
  refine ⟨hfirst, hcur.trans hic, ?_⟩
  exact {
    group := hnext.group
    fits := hnext.fits
    count := hcnt.trans hnext.count
    bytes := fun a ha ha' => by rw [hin, hcur]; exact hnext.bytes a ha ha'
    bits := fun j hj => by rw [hacc]; exact hnext.bits j hj }

/-- A loop that is over stays where it is. -/
theorem decodeLoop_of_over (n : Nat) {s : State} (h : s.moreTokens = false) : decodeLoop n s = s := by
  cases n with
  | zero => rfl
  | succ n => rw [decodeLoop, h]; rfl

/-- One turn of a loop that is in step with an emission and has its bytes ahead in the input. -/
theorem decodeLoop_inStep {e t u : State} {i : Instr} {ts : List (Bool × List Byte)} {n : Nat} (h : InStep e t u)
    (ht : t = emitAll (spelling i :: ts) e) (hw : i.wellFormed = true) (hi : i.isToken = true)
    (hlive : u.terminated = false) (hend : u.ic + (t.oc - e.oc) = u.inLen) (hn : u.inLen - u.ic ≤ n) :
    ∃ m, decodeLoop n u = decodeLoop m (runToken u) ∧ (runToken u).inLen - (runToken u).ic ≤ m ∧
      (runToken u).ic + (t.oc - (outStores (spelling i).2 (pushBit (spelling i).1 e)).oc) = u.inLen := by
  obtain ⟨-, hic, -⟩ := h.runToken ht hw hi
  obtain ⟨hstart, -⟩ := runToken_cursors u
  have hle : (outStores (spelling i).2 (pushBit (spelling i).1 e)).oc ≤ t.oc := by
    rw [ht]
    exact emitAll_oc_le ts _
  have hlt : u.ic < u.inLen := by omega
  obtain ⟨m, rfl⟩ : ∃ m, n = m + 1 := ⟨n - 1, by omega⟩
  refine ⟨m, decodeLoop_succ m u ((moreTokens_iff u).2 ⟨hlive, hlt⟩), ?_, by omega⟩
  rw [runToken_inLen]
  omega

/-- The Terminator, in step with its emission, ends the loop and produces nothing. -/
theorem decodeLoop_terminator {rd : Nat → Byte} {p : Nat} {e t u : State} {n : Nat} (h : InStep e t u)
    (ht : t = emitAll [spelling .terminator] e) (hlive : u.terminated = false) (hu : Rebuilt rd p u)
    (hend : u.ic + (t.oc - e.oc) = u.inLen) (hn : u.inLen - u.ic ≤ n) :
    Rebuilt rd p (decodeLoop n u) ∧ (decodeLoop n u).ic = u.inLen := by
  obtain ⟨hfirst, -, -⟩ := h.runToken ht rfl rfl
  obtain ⟨m, hloop, -, hrest⟩ := decodeLoop_inStep h ht rfl rfl hlive hend hn
  have hrun : runToken u = terminatorToken (fetchToken u).2 := by rw [runToken, hfirst]; rfl
  have hover : (runToken u).moreTokens = false := by rw [hrun]; rfl
  rw [hloop, decodeLoop_of_over m hover]
  refine ⟨?_, ?_⟩
  · rw [hrun]
    exact { hu.fetchToken with }
  · rw [← hrest, ht]
    exact (Nat.add_eq_left.2 (Nat.sub_self _)).symm

/-- The decoder rebuilds what the tokens of an emission spell, and ends at its Terminator. -/
theorem decodeLoop_rebuilds {rd : Nat → Byte} {p q : Nat} {is : List Instr} {e t u : State} {n : Nat}
    (hspells : Spells rd p is q) (h : InStep e t u) (ht : t = emitAll (closed is) e)
    (hlive : u.terminated = false) (hu : Rebuilt rd p u) (hcap : q ≤ u.outCap)
    (hend : u.ic + (t.oc - e.oc) = u.inLen) (hn : u.inLen - u.ic ≤ n) :
    Rebuilt rd q (decodeLoop n u) ∧ (decodeLoop n u).ic = u.inLen := by
  induction hspells generalizing e u n with
  | nil p => exact decodeLoop_terminator h ht hlive hu hend hn
  | @cons p q i is hw hc hrest ih =>
    have hi := hc.isToken
    have hq := hrest.le
    obtain ⟨hfirst, -, hnext⟩ := h.runToken ht hw hi
    obtain ⟨m, hloop, hm, hend'⟩ := decodeLoop_inStep h ht hw hi hlive hend hn
    have hrun : runToken u = tokenEffect i (fetchToken u).2 := by rw [runToken, hfirst]
    have hcap' : (fetchToken u).2.outCap = u.outCap := by rw [fetchToken_frame]
    have hlen := runToken_inLen u
    rw [hloop, ← hlen]
    refine ih hnext ht ?_ ?_ ?_ (hlen.symm ▸ hend') hm
    · rw [hrun, hc.tokenEffect_terminated, fetchToken_frame]
      exact hlive
    · rw [hrun]
      exact hu.fetchToken.tokenEffect hc (by omega)
    · rw [runToken_frame]
      exact hcap

/-! ## The two commands -/

/-- An ENCODE whose encoding fits sets no flag, and its result is the whole encoding (60_exceptions.md R193). -/
theorem runEncode_clean {s : State} (hfit : (runEncode s).oc ≤ s.outCap) :
    (runEncode s).Clean ∧ (runEncode s).resultLen = (runEncode s).oc := by
  obtain ⟨-, hres, herr⟩ := runEncode_results s
  refine ⟨⟨runEncode_phase s, ?_, ?_⟩, hres.trans (Nat.min_eq_left hfit)⟩
  · rw [herr, decide_eq_false (Nat.not_lt.2 hfit)]
    rfl
  · rw [runEncode_frame]
    rfl

/-- A DECODE whose loop ends at the end of the input with the declared size produced sets no flag but a `REF_FAULT` of
its copies. -/
theorem runDecode_clean {s : State} (hg : s.allocGrant s.declaredSize = true) (hic : (decodeEnd s).ic = s.inLen)
    (hoc : (decodeEnd s).oc = s.declaredSize.toNat) (hsound : (decodeEnd s).refFault = false) :
    (runDecode s).Clean ∧ (runDecode s).resultLen = s.declaredSize.toNat := by
  rw [runDecode_results hg, hic, hoc, Nat.min_self, decide_eq_false (Nat.lt_irrefl s.inLen),
    decide_eq_false (Nat.lt_irrefl s.declaredSize.toNat)]
  exact ⟨⟨rfl, rfl, hsound⟩, rfl⟩

/-- An encoding that fits, read as input, declares the size of what was encoded. -/
theorem declaredSize_of_encoding {s u : State} (hi : s.inLen ≤ 0xFFFF) (hfit : (runEncode s).oc ≤ s.outCap)
    (hlen : u.inLen = (runEncode s).oc) (hin : ∀ a, a < (runEncode s).oc → u.readIn a = (runEncode s).readOut a) :
    u.declaredSize = BitVec.ofNat 16 s.inLen := by
  obtain ⟨hmin, -⟩ := runEncode_oc_bounds s
  obtain ⟨hhigh, hlow⟩ := readOut_beginEncode_header hi (by omega : 2 ≤ s.outCap)
  have hbyte : ∀ a, a < 2 → u.inByte a = (beginEncode s).readOut a := fun a ha => by
    rw [inByte_of_lt (by omega), hin a (by omega), runEncode_readOut_header s ha]
  apply BitVec.eq_of_toNat_eq
  rw [declaredSize_toNat, BitVec.toNat_ofNat, hbyte 0 Nat.two_pos, hbyte 1 Nat.one_lt_two, hhigh, hlow]
  omega

/-- A DECODE of tokens emitted behind a header, and of nothing more, rebuilds what they spell if that is of the declared
size. -/
theorem decodeEnd_rebuilds {rd : Nat → Byte} {is : List Instr} {s u : State}
    (hspells : Spells rd 0 is u.declaredSize.toNat)
    (hfit : (emitAll (closed is) (beginEncode s)).oc ≤ s.outCap)
    (hlen : u.inLen = (emitAll (closed is) (beginEncode s)).oc)
    (hin : ∀ a, a < u.inLen → u.readIn a = (emitAll (closed is) (beginEncode s)).readOut a) :
    Rebuilt rd u.declaredSize.toNat (decodeEnd u) ∧ (decodeEnd u).ic = u.inLen := by
  have hbegun : 2 ≤ (emitAll (closed is) (beginEncode s)).oc := emitAll_oc_le _ (beginEncode s)
  have hend : 2 + ((emitAll (closed is) (beginEncode s)).oc - 2) = u.inLen := by omega
  have hstep : InStep (beginEncode s) (emitAll (closed is) (beginEncode s)) (decodeStart u) :=
    inStep_of_fresh rfl rfl hfit hend.le fun a ha => hin _ (by change a < _ - 2 at ha; change 2 + a < _; omega)
  have hstart : Rebuilt rd 0 (decodeStart u) := ⟨rfl, rfl, fun a ha => absurd ha (Nat.not_lt_zero a)⟩
  exact decodeLoop_rebuilds hspells hstep rfl rfl hstart le_rfl hend le_rfl

/-- Settles O50: the emission of ENCODE spells the input, and DECODE starts in step with it, behind the header, and runs
its tokens up to the Terminator. -/
theorem decodeOfEncodingGivesTheInputBack : Obligations.DecodeOfEncodingGivesTheInputBack := by
  intro s t u hb hi hroom ho h hb' hlen hin hgrant
  rw [exec_encode_accepted s hb hi ho] at h
  obtain rfl : runEncode s = t := Host.Outcome.next.inj h
  obtain ⟨-, hmax⟩ := runEncode_oc_bounds s
  have hfit : (runEncode s).oc ≤ s.outCap := by omega
  obtain ⟨hclean, hres⟩ := runEncode_clean hfit
  rw [hres] at hlen hin
  have hsize := declaredSize_of_encoding hi hfit hlen hin
  have hn : u.declaredSize.toNat = s.inLen := by
    rw [hsize, BitVec.toNat_ofNat]
    omega
  obtain ⟨is, hspells, hemit⟩ := runEncode_spells s
  have hoc := hemit.oc
  have hcap : (emitAll (closed is) (beginEncode s)).outCap = s.outCap := by rw [emitAll_frame]; rfl
  have hcap' : (runEncode s).outCap = s.outCap := by rw [runEncode_frame]; rfl
  obtain ⟨⟨hcur, hsound, hout⟩, hend⟩ := decodeEnd_rebuilds (hn.symm ▸ hspells) (hoc.trans_le hfit)
    (hlen.trans hoc.symm) fun a ha => by
      rw [hin a (by omega), hemit.out a (by omega) (by omega) (by omega)]
  have hg : u.allocGrant u.declaredSize = true := hsize.symm ▸ hgrant
  obtain ⟨hclean', hres'⟩ := runDecode_clean hg hend hcur hsound
  refine ⟨_, exec_decode_accepted u hb' (by omega), hclean, hclean', hres'.trans hn, ?_, fun a ha => ?_⟩
  · rw [runDecode_results hg]
    exact hend
  · rw [runDecode_results hg]
    exact hout a (hn.symm ▸ ha)

end Sys2Proof.Machine
end

section
/-! Conditions and what stops the machine (60_exceptions.md): raising sets one bit, nothing clears one while a command
runs, an engine with nothing to do waits, and a step stops on nothing but a host access that is forbidden while BUSY. -/

namespace Sys2Proof.Machine

/-! ## Raising a condition -/

/-- A bit of the catalogue after a condition was raised: set if it is that condition's, else as it was. -/
theorem raised_raise (c d : Condition) (s : State) : (raise c s).raised d = (decide (d = c) || s.raised d) := by
  cases c <;> cases d <;> rfl

/-- The three fields that hold the catalogue's bits are all that raising can change. -/
theorem raise_frame (c : Condition) (s : State) :
    raise c s = { s with err := (raise c s).err, refFault := (raise c s).refFault, refused := (raise c s).refused } := by
  cases c <;> rfl

/-- Settles O36, by the bits after `raise` and its frame. -/
theorem raiseSetsOneBitOnly : Obligations.RaiseSetsOneBitOnly := by
  refine fun c s => ⟨?_, fun d hd => ?_, raise_frame c s⟩
  · rw [raised_raise, decide_eq_true rfl, Bool.true_or]
  · rw [raised_raise, decide_eq_false hd, Bool.false_or]

/-! ## No flag is cleared while BUSY -/

/-- A condition's bit depends on `ERR`, `REF_FAULT` and `REFUSED` alone. -/
theorem raised_congr {s t : State} (herr : t.err = s.err) (hfault : t.refFault = s.refFault)
    (hrefused : t.refused = s.refused) (c : Condition) : t.raised c = s.raised c := by
  cases c <;> simp only [State.raised, herr, hfault, hrefused]

/-- The end of a command is its accounting, which clears no flag. -/
theorem complete_account_keeps (c : Condition) {s : State} (h : s.raised c = true) :
    (complete (account s)).raised c = true :=
  (raised_congr rfl rfl rfl c).trans (account_keeps c s h)

/-- The encoder emits and moves its cursors; it touches a flag only in its accounting. -/
theorem encodeStep_keeps (c : Condition) {s : State} (h : s.raised c = true) : (encodeStep s).raised c = true := by
  unfold encodeStep
  split
  · rw [encodeIteration_frame, raised_congr rfl rfl rfl c]
    exact h
  · refine complete_account_keeps c ?_
    rw [endOfInput_eq, withPend, emitAll_frame, raised_congr rfl rfl rfl c]
    exact h

/-- A token can raise `REF_FAULT` and leaves every other flag. -/
theorem runToken_keeps (c : Condition) {s : State} (h : s.raised c = true) : (runToken s).raised c = true := by
  cases c with
  | refFault => exact runToken_refFault s h
  | _ => rw [runToken_frame]; exact h

/-- Settles O25, by the cases of a step while BUSY: an access of the host that changes nothing, a piece of ENCODE, a
token, DECODE's end. -/
theorem nothingClearsAFlagWhileBusy : Obligations.NothingClearsAFlagWhileBusy := by
  intro s t c hb h hc
  rcases step_busy_cases hb h with ⟨rest, rfl⟩ | rfl | rfl | rfl
  · exact (raised_congr rfl rfl rfl c).trans hc
  · exact encodeStep_keeps c hc
  · exact runToken_keeps c hc
  · exact complete_account_keeps c hc

/-! ## Waiting, and what stops a step -/

/-- Settles O20, by the case of a step that waits. -/
theorem idleOrDoneEngineWaits : Obligations.IdleOrDoneEngineWaits := step_waits

/-- With no access of the host to make, the engine always goes on: no condition of the data stops it (R197). -/
theorem step_of_no_access {s : State} (hh : s.host = []) : ∃ t, step s = .next t := by
  cases hb : s.isBusy with
  | false => exact ⟨s, step_waits s hh (isBusy_eq_false s hb)⟩
  | true =>
    rcases isBusy_eq_true hb with hp | hp
    · exact ⟨_, step_busyEncode s hh hp⟩
    · rw [step_busyDecode s hh hp]
      cases hm : s.moreTokens with
      | true => exact ⟨_, decodeStep_token s hm⟩
      | false => exact ⟨_, decodeStep_ends s hm⟩

/-- A write of `CMD` always answers, whatever its field and the phase. -/
theorem commandWrite_answers (op : BitVec 2) (s : State) : ∃ t, commandWrite op s = .next t := by
  unfold commandWrite decodeCommand
  split_ifs
  · exact ⟨_, rfl⟩
  · exact ⟨_, rfl⟩
  · exact ⟨_, rfl⟩

/-- An access the spec gives no meaning while BUSY has no next state then (U9). -/
theorem whenNotBusy_ne_next {s t : State} (hb : s.isBusy = true) (after : Host.Outcome State Fault Refusal) :
    whenNotBusy s after ≠ .next t := by
  rw [whenNotBusy, if_pos hb]
  nofun

/-- While BUSY the host has two accesses: a read of `STATUS` and a write of `CMD` (20_memory.md R54, U9). -/
theorem hostAccess_busy_answers {s : State} (hb : s.isBusy = true) (a : HostAccess) :
    (∃ t, hostAccess a s = .next t) ↔ a = .readReg .status ∨ ∃ v, a = .writeReg .cmd v := by
  refine ⟨fun ⟨t, ht⟩ => ?_, ?_⟩
  · cases a with
    | writeReg r v =>
      cases r with
      | cmd => exact Or.inr ⟨v, rfl⟩
      | _ => exact absurd ht (whenNotBusy_ne_next hb _)
    | readReg r =>
      cases r with
      | status => exact Or.inl rfl
      | _ => exact absurd ht (whenNotBusy_ne_next hb _)
    | _ => exact absurd ht (whenNotBusy_ne_next hb _)
  · rintro (rfl | ⟨v, rfl⟩)
    · exact ⟨s, rfl⟩
    · exact commandWrite_answers _ s

/-- While not BUSY the host has every access. -/
theorem step_hostNotBusy_answers {s : State} {a : HostAccess} {rest : List HostAccess} (hh : s.host = a :: rest)
    (hb : s.isBusy = false) : ∃ t, step s = .next t := by
  by_cases hc : ∃ v, a = .writeReg .cmd v
  · obtain ⟨v, rfl⟩ := hc
    rw [step_commandWrite hh]
    exact commandWrite_answers _ _
  · exact ⟨_, step_hostNotBusy s a rest hh hb fun v hv => hc ⟨v, hv⟩⟩

/-- Settles O21: without an access the engine goes on, not BUSY every access answers, and BUSY the two permitted ones
do and no other. -/
theorem stepStopsOnlyOnAHostBreach : Obligations.StepStopsOnlyOnAHostBreach := by
  intro s
  cases hh : s.host with
  | nil => exact iff_of_true (step_of_no_access hh) nofun
  | cons a rest =>
    cases hb : s.isBusy with
    | false => exact iff_of_true (step_hostNotBusy_answers hh hb) fun _ _ _ => nofun
    | true =>
      rw [step_host s a rest hh, hostAccess_busy_answers (s := { s with host := rest }) hb a]
      refine ⟨fun h b tail heq _ => ?_, fun h => h a rest rfl rfl⟩
      obtain ⟨rfl, -⟩ := List.cons.inj heq
      exact h

/-! ## An empty `ERR` -/

/-- Settles O49: a denied DECODE sets `ALLOCATION_FAILED`, and in a granted one each clear flag is a comparison of a
final cursor that does not hold. -/
theorem emptyErrMeansExactCursors : Obligations.EmptyErrMeansExactCursors := by
  intro s t hb hi h herr
  rw [exec_decode_accepted s hb hi] at h
  obtain rfl : runDecode s = t := Host.Outcome.next.inj h
  cases hg : s.allocGrant s.declaredSize with
  | false =>
    rw [runDecode_denied s hg] at herr
    cases herr
  | true =>
    have hcap : (decodeEnd s).outCap = s.declaredSize.toNat := by rw [decodeEnd_frame]; rfl
    rw [runDecode_results hg] at herr ⊢
    obtain ⟨hio, hiu, hoo, hou, -⟩ := ErrFlags.mk.inj herr
    have hic : (decodeEnd s).ic = s.inLen :=
      Nat.le_antisymm (Nat.le_of_not_lt (of_decide_eq_false hio)) (Nat.le_of_not_lt (of_decide_eq_false hiu))
    have hoc : (decodeEnd s).oc = s.declaredSize.toNat :=
      Nat.le_antisymm (Nat.le_of_not_lt (of_decide_eq_false hoo)) (Nat.le_of_not_lt (of_decide_eq_false hou))
    exact ⟨hic, hoc, hcap.trans hoc.symm, Nat.min_eq_left hoc.le⟩

end Sys2Proof.Machine
end
